-- ==== Sys2Proof/Word.lean ====
section
/-! DEFINITION. The word and byte types (00_scope.md R9, R11: the host data width is 32 bits). -/
namespace Sys2Proof

/-- A register, a region word or a host data word (R11: "A register or word is 32 bits unless stated"). -/
abbrev Word := BitVec 32

/-- A byte: the unit of the byte-addressed bus space (R200). -/
abbrev Byte := BitVec 8

end Sys2Proof
end

