-- ==== Sys2Proof/Syntax.lean ====
section
/-! DEFINITION. The names of the block: engines, registers, regions, the 28 command words (one constructor of `Instr` per
row of spec/opcode_table.json), host accesses and the events of the agents. -/
namespace Sys2Proof

/-- The nine engines (00_scope.md R2), by their short names. -/
inductive Eng
  | rlee | rled | gre | grd | hufe | hufd | lzwe | lzwd | vq
deriving DecidableEq, Repr

/-- Every engine, in the order of the ids 0 to 8 (R2). -/
def Eng.all : List Eng := [.rlee, .rled, .gre, .grd, .hufe, .hufd, .lzwe, .lzwd, .vq]

/-- One value for each of the nine engines. -/
structure PerEngine (α : Type) where
  rlee : α
  rled : α
  gre : α
  grd : α
  hufe : α
  hufd : α
  lzwe : α
  lzwd : α
  vq : α
deriving DecidableEq, Repr

/-- Engine `e`'s entry. -/
def PerEngine.get {α : Type} (p : PerEngine α) : Eng → α
  | .rlee => p.rlee
  | .rled => p.rled
  | .gre => p.gre
  | .grd => p.grd
  | .hufe => p.hufe
  | .hufd => p.hufd
  | .lzwe => p.lzwe
  | .lzwd => p.lzwd
  | .vq => p.vq

/-- Replace engine `e`'s entry. -/
def PerEngine.set {α : Type} (p : PerEngine α) (e : Eng) (x : α) : PerEngine α :=
  match e with
  | .rlee => { p with rlee := x }
  | .rled => { p with rled := x }
  | .gre => { p with gre := x }
  | .grd => { p with grd := x }
  | .hufe => { p with hufe := x }
  | .hufd => { p with hufd := x }
  | .lzwe => { p with lzwe := x }
  | .lzwd => { p with lzwd := x }
  | .vq => { p with vq := x }

/-- The four regions of an engine window (20_memory.md R203). -/
inductive Region
  | r1 | r2 | r3 | r4
deriving DecidableEq, Repr

/-- The regions each engine uses (10_state.md R130); the others have no words. -/
def Eng.usedRegions : Eng → List Region
  | .rlee | .rled | .gre | .grd | .lzwe | .lzwd => [.r1, .r2]
  | .hufe | .hufd => [.r1, .r2, .r3]
  | .vq => [.r1, .r2, .r3, .r4]

/-- The registers of the engine windows, by the names of 10_state.md (R107, R113 to R118). -/
inductive Reg
  | id | cmd | status | ctrl | errLoc
  | inLen | outLen | auxLen | inCap | outCap | auxCap
  | grM | lzwDictCap | lzwNextCode
  | vqLevels | vqBs | vqMaxIter | vqH | vqW | vqC | vqInitSrc
  | vqTh | vqTw | vqK | vqIters | vqNblk | vqSseLo | vqSseHi | vqNsamp
  | pixCap | cbCap | asgCap | initCap | vqMaxBs | vqMaxBlocks
deriving DecidableEq, Repr

/-- Which START a BUSY engine runs: OP 0x01 (START, on engine 8 START_ENC) or OP 0x02 (START_DEC, engine 8 only)
(30_encoding.md R302). -/
inductive StartCmd
  | start | startDec
deriving DecidableEq, Repr

/-- The 28 legal command words, one constructor per row of the opcode map (30_encoding.md R305). A command word carries
no operand (R306). -/
inductive Instr
  | rleeNop | rleeStart | rleeClear
  | rledNop | rledStart | rledClear
  | greNop | greStart | greClear
  | grdNop | grdStart | grdClear
  | hufeNop | hufeStart | hufeClear
  | hufdNop | hufdStart | hufdClear
  | lzweNop | lzweStart | lzweClear
  | lzwdNop | lzwdStart | lzwdClear
  | vqNop | vqStartEnc | vqStartDec | vqClear
deriving DecidableEq, Repr

/-- Every command, in the order of the opcode map. -/
def Instr.all : List Instr :=
  [.rleeNop, .rleeStart, .rleeClear, .rledNop, .rledStart, .rledClear, .greNop, .greStart, .greClear,
   .grdNop, .grdStart, .grdClear, .hufeNop, .hufeStart, .hufeClear, .hufdNop, .hufdStart, .hufdClear,
   .lzweNop, .lzweStart, .lzweClear, .lzwdNop, .lzwdStart, .lzwdClear,
   .vqNop, .vqStartEnc, .vqStartDec, .vqClear]

/-- A host access (20_memory.md R206): a read or a write of `size` bits at a byte address. Sizes other than 32 and
misaligned addresses can be issued and are refused (R207). -/
inductive Access
  | read (size : Nat) (addr : BitVec 32)
  | write (size : Nat) (addr : BitVec 32) (data : Word)
deriving DecidableEq, Repr

/-- The access's width in bits. -/
def Access.size : Access → Nat
  | .read n _ => n
  | .write n _ _ => n

/-- The access's byte address. -/
def Access.addr : Access → BitVec 32
  | .read _ a => a
  | .write _ a _ => a

/-- `rd32 ADDR` of the host notation (30_encoding.md R319). -/
abbrev Access.rd32 (addr : BitVec 32) : Access := .read 32 addr

/-- `wr32 ADDR, VALUE` of the host notation (30_encoding.md R319). -/
abbrev Access.wr32 (addr : BitVec 32) (data : Word) : Access := .write 32 addr data

/-- What one agent does next: the host performs an access, an engine takes its completion step, or the reset input is
asserted (10_state.md R100; 40_commands.md R408, R410; 70_reset_and_hazards.md R1100). -/
inductive Event
  | host (a : Access)
  | complete (e : Eng)
  | reset
deriving DecidableEq, Repr

end Sys2Proof
end

