-- ==== Sys2Proof/Config.lean ====
section
/-! DEFINITION. What an implementation fixes (00_scope.md R9, parameters P1 to P4), and the free values the spec leaves
open (R14 `draw`). -/
namespace Sys2Proof

/-- REGION_WORDS of one engine: how many words of each region exist (R9, P1). -/
structure RegionSizes where
  r1 : Nat
  r2 : Nat
  r3 : Nat
  r4 : Nat
deriving DecidableEq, Repr

/-- The size of one region. -/
def RegionSizes.get (z : RegionSizes) : Region → Nat
  | .r1 => z.r1
  | .r2 => z.r2
  | .r3 => z.r3
  | .r4 => z.r4

/-- The implementation parameters P1 to P4 (00_scope.md R9). They are fixed for a machine: no step changes them. -/
structure Params where
  /-- REGION_WORDS[e][r], P1. -/
  regionWords : PerEngine RegionSizes
  /-- LZW_DICT_CAP, P2: the same value for engines 6 and 7. -/
  lzwDictCap : Nat
  /-- VQ_MAX_BS, P3. -/
  vqMaxBs : Nat
  /-- VQ_MAX_BLOCKS, P4. -/
  vqMaxBlocks : Nat
deriving DecidableEq, Repr

/-- REGION_WORDS[e][r]. -/
def Params.words (p : Params) (e : Eng) (r : Region) : Nat := (p.regionWords.get e).get r

/-- The suggested, not normative, parameter values of 92_eei_decisions.md P1 to P4: 65536 words for a used region.
DESIGN CHOICE, log 4 (unsafe): only `State.reset` uses them. -/
def Config.suggested : Params :=
  { regionWords :=
      { rlee := ⟨65536, 65536, 0, 0⟩
        rled := ⟨65536, 65536, 0, 0⟩
        gre := ⟨65536, 65536, 0, 0⟩
        grd := ⟨65536, 65536, 0, 0⟩
        hufe := ⟨65536, 65536, 65536, 0⟩
        hufd := ⟨65536, 65536, 65536, 0⟩
        lzwe := ⟨65536, 65536, 0, 0⟩
        lzwd := ⟨65536, 65536, 0, 0⟩
        vq := ⟨65536, 65536, 65536, 65536⟩ }
    lzwDictCap := 65536
    vqMaxBs := 16
    vqMaxBlocks := 65536 }

/-- A free value: what an unspecified region byte reads as, by draw number and byte address (20_memory.md R214, R215;
70_reset_and_hazards.md R1102). It has no body, so nothing can be proved about it (log 5). -/
opaque Config.freeByte : Nat → Nat → Byte

/-- A free value: the raw choices behind the VQ engine's own initial indices, by draw number and position
(45_vq_kmeans.md R905, P6; log 6). -/
opaque Config.freeChoice : Nat → Nat → Nat

end Sys2Proof
end

