-- ==== Sys2Proof/WellFormed.lean ====
section
/-! DEFINITION. Well-formedness: which command terms, host accesses and parameter values are legal. -/
namespace Sys2Proof

/-- Every command term is well formed: a command word carries no operand that could be out of range (30_encoding.md R306).
The match names every constructor, so that a command with an operand could not slip past. -/
def Instr.wellFormed : Instr → Bool
  | .rleeNop | .rleeStart | .rleeClear | .rledNop | .rledStart | .rledClear
  | .greNop | .greStart | .greClear | .grdNop | .grdStart | .grdClear
  | .hufeNop | .hufeStart | .hufeClear | .hufdNop | .hufdStart | .hufdClear
  | .lzweNop | .lzweStart | .lzweClear | .lzwdNop | .lzwdStart | .lzwdClear
  | .vqNop | .vqStartEnc | .vqStartDec | .vqClear => true

/-- A host access the port accepts: 32 bits wide at a multiple of 4 (20_memory.md R207). -/
def Access.wellFormed (a : Access) : Bool := a.size == 32 && a.addr.toNat % 4 == 0

/-- Region sizes of one region are legal: at least one word and at most 2^20 for a used region, none for an unused one
(00_scope.md R9, P1). -/
def Params.regionLegal (p : Params) (e : Eng) (r : Region) : Bool :=
  if r ∈ e.usedRegions then decide (1 ≤ p.words e r) && decide (p.words e r ≤ 2 ^ 20) else p.words e r == 0

/-- The parameters lie in their legal ranges (00_scope.md R9, P1 to P4). -/
def Params.legal (p : Params) : Bool :=
  Eng.all.all (fun e => [Region.r1, .r2, .r3, .r4].all fun r => p.regionLegal e r)
    && decide (256 ≤ p.lzwDictCap) && decide (p.lzwDictCap ≤ 2 ^ 31)
    && decide (1 ≤ p.vqMaxBs) && decide (p.vqMaxBs ≤ 255)
    && decide (p.vqMaxBlocks ≤ 2 ^ 20)

end Sys2Proof
end

