-- ==== Sys2Proof/Decode.lean ====
section
/-! DEFINITION. The command decoder, total on every 32-bit word and rejecting by name, and the encoder
(30_encoding.md R300 to R305). -/
namespace Sys2Proof

/-- The engine id of R2. -/
def Eng.id : Eng → Nat
  | .rlee => 0
  | .rled => 1
  | .gre => 2
  | .grd => 3
  | .hufe => 4
  | .hufd => 5
  | .lzwe => 6
  | .lzwd => 7
  | .vq => 8

/-- The engine an id names; ids above 8 name none (R2). -/
def engOfId : Nat → Option Eng
  | 0 => some .rlee
  | 1 => some .rled
  | 2 => some .gre
  | 3 => some .grd
  | 4 => some .hufe
  | 5 => some .hufd
  | 6 => some .lzwe
  | 7 => some .lzwd
  | 8 => some .vq
  | _ => none

/-- OP, bits [7:0] of a command word (R300). -/
def cmdOp (w : Word) : Nat := (w.extractLsb' 0 8).toNat

/-- ENG, bits [15:8] of a command word (R300, R301). -/
def cmdEng (w : Word) : Nat := (w.extractLsb' 8 8).toNat

/-- RSV, bits [31:16] of a command word (R300, R303). -/
def cmdRsv (w : Word) : Nat := (w.extractLsb' 16 16).toNat

/-- The command that OP names on engine `e`: 0x00, 0x01 and 0x0F everywhere, 0x02 on engine 8 only (R302, R304). -/
def instrAt (e : Eng) (op : Nat) : Option Instr :=
  match e, op with
  | .rlee, 0x00 => some .rleeNop
  | .rlee, 0x01 => some .rleeStart
  | .rlee, 0x0F => some .rleeClear
  | .rled, 0x00 => some .rledNop
  | .rled, 0x01 => some .rledStart
  | .rled, 0x0F => some .rledClear
  | .gre, 0x00 => some .greNop
  | .gre, 0x01 => some .greStart
  | .gre, 0x0F => some .greClear
  | .grd, 0x00 => some .grdNop
  | .grd, 0x01 => some .grdStart
  | .grd, 0x0F => some .grdClear
  | .hufe, 0x00 => some .hufeNop
  | .hufe, 0x01 => some .hufeStart
  | .hufe, 0x0F => some .hufeClear
  | .hufd, 0x00 => some .hufdNop
  | .hufd, 0x01 => some .hufdStart
  | .hufd, 0x0F => some .hufdClear
  | .lzwe, 0x00 => some .lzweNop
  | .lzwe, 0x01 => some .lzweStart
  | .lzwe, 0x0F => some .lzweClear
  | .lzwd, 0x00 => some .lzwdNop
  | .lzwd, 0x01 => some .lzwdStart
  | .lzwd, 0x0F => some .lzwdClear
  | .vq, 0x00 => some .vqNop
  | .vq, 0x01 => some .vqStartEnc
  | .vq, 0x02 => some .vqStartDec
  | .vq, 0x0F => some .vqClear
  | _, _ => none

/-- Why a word is not a legal command for a window. -/
inductive DecodeError
  /-- A bit of [31:16] is set (R303). -/
  | reservedBits
  /-- ENG names no engine (R301). -/
  | noSuchEngine
  /-- OP is not one of the engine's (R302). -/
  | illegalOp
  /-- The word is another engine's command (R301). -/
  | wrongEngine
deriving DecidableEq, Repr

/-- Decode a command word by itself (R300 to R303). -/
def decode (w : Word) : Except DecodeError Instr :=
  if cmdRsv w ≠ 0 then .error .reservedBits
  else match engOfId (cmdEng w) with
    | none => .error .noSuchEngine
    | some e =>
      match instrAt e (cmdOp w) with
      | none => .error .illegalOp
      | some i => .ok i

/-- The engine whose CMD register a command is for (R305). -/
def Instr.engine : Instr → Eng
  | .rleeNop | .rleeStart | .rleeClear => .rlee
  | .rledNop | .rledStart | .rledClear => .rled
  | .greNop | .greStart | .greClear => .gre
  | .grdNop | .grdStart | .grdClear => .grd
  | .hufeNop | .hufeStart | .hufeClear => .hufe
  | .hufdNop | .hufdStart | .hufdClear => .hufd
  | .lzweNop | .lzweStart | .lzweClear => .lzwe
  | .lzwdNop | .lzwdStart | .lzwdClear => .lzwd
  | .vqNop | .vqStartEnc | .vqStartDec | .vqClear => .vq

/-- The OP byte of a command (R302). -/
def Instr.op : Instr → BitVec 8
  | .rleeNop | .rledNop | .greNop | .grdNop | .hufeNop | .hufdNop | .lzweNop | .lzwdNop | .vqNop => 0x00#8
  | .rleeStart | .rledStart | .greStart | .grdStart | .hufeStart | .hufdStart | .lzweStart | .lzwdStart
  | .vqStartEnc => 0x01#8
  | .vqStartDec => 0x02#8
  | .rleeClear | .rledClear | .greClear | .grdClear | .hufeClear | .hufdClear | .lzweClear | .lzwdClear
  | .vqClear => 0x0F#8

/-- Decode a word written to CMD of engine `e`: the word must be legal and carry this engine's id (R301, R304). -/
def decodeFor (e : Eng) (w : Word) : Except DecodeError Instr :=
  match decode w with
  | .error x => .error x
  | .ok i => if i.engine = e then .ok i else .error .wrongEngine

/-- The command word of a command: RSV = 0, ENG = the engine's id, OP (R300, R305). -/
def encode (i : Instr) : Word := 0#16 ++ BitVec.ofNat 8 i.engine.id ++ i.op

/-- The 32-bit word with the low `nbits` bits of `w` and zeros above. -/
def tableWord (nbits w : Nat) : Word := BitVec.ofNat 32 (w % 2 ^ nbits)

/-- What the decoder reads from a word numbered as spec/opcode_table.json numbers it. A command is one 32-bit bus write
(R300), so the table's bit numbers are the word's own. -/
def decodeTableWord (nbits w : Nat) : Option Instr :=
  match decode (tableWord nbits w) with
  | .ok i => some i
  | .error _ => none

end Sys2Proof
end

