-- ==== Sys2Proof/Machine/State.lean ====
section
/-! DEFINITION. The state of the block as plain data: every register of 10_state.md, the region words, the parameters and
the model's own fields (the event queue, the last bus response, the draw counter). -/
namespace Sys2Proof.Machine

/-- ERR_CODE values (60_exceptions.md R1002); 6 to 15 are never produced. -/
inductive ErrCode
  | none | illegalCmd | config | malformed | resource | unsupportedInput
deriving DecidableEq, Repr

/-- ERR_SRC values (60_exceptions.md R1003); 9 to 15 are never produced. -/
inductive ErrSrc
  | none | cmd | reg | r1 | r2 | r3 | r4 | dict | internal
deriving DecidableEq, Repr

/-- A failure `Err(code, src, loc)` of an ideal function (00_scope.md R14, R15). -/
structure Err where
  code : ErrCode
  src : ErrSrc
  loc : Nat
deriving DecidableEq, Repr

/-- The control registers every engine has: STATUS, CTRL and ERR_LOC (10_state.md R107, R109, R111, R112). Reserved bits
read 0 and ignore writes, so they are not stored. -/
structure Ctl where
  /-- STATUS.BUSY, and which START is running: BUSY is `running.isSome` (R101, R109). -/
  running : Option StartCmd
  /-- STATUS.DONE. -/
  done : Bool
  /-- STATUS.ERROR. -/
  error : Bool
  /-- STATUS.DROPPED. -/
  dropped : Bool
  /-- STATUS.ERR_CODE. -/
  errCode : ErrCode
  /-- STATUS.ERR_SRC. -/
  errSrc : ErrSrc
  /-- ERR_LOC. -/
  errLoc : Word
  /-- CTRL.IRQ_EN. -/
  irqEn : Bool
deriving DecidableEq, Repr

/-- The length registers of an RLE engine (R113). -/
structure LenRegs where
  inLen : Word
  outLen : Word
deriving DecidableEq, Repr

/-- The registers of a Golomb-Rice engine (R113, R116). -/
structure GrRegs where
  inLen : Word
  outLen : Word
  m : Word
deriving DecidableEq, Repr

/-- The registers of a Huffman engine (R113, R114). -/
structure HufRegs where
  inLen : Word
  outLen : Word
  auxLen : Word
deriving DecidableEq, Repr

/-- The registers of an LZW engine (R113, R117). -/
structure LzwRegs where
  inLen : Word
  outLen : Word
  nextCode : Word
deriving DecidableEq, Repr

/-- The registers of the VQ engine (R118 to R128). VQ_INIT_SRC keeps only its bit [0] (R124). -/
structure VqRegs where
  levels : Word
  bs : Word
  maxIter : Word
  h : Word
  w : Word
  c : Word
  initSrc : Bool
  th : Word
  tw : Word
  k : Word
  iters : Word
  nblk : Word
  sseLo : Word
  sseHi : Word
  nsamp : Word
deriving DecidableEq, Repr

/-- The response of the last host access: the model's own field (log 7). -/
inductive PortResponse
  /-- No access has been performed yet. -/
  | none
  /-- A read was accepted and returned this word. -/
  | data (w : Word)
  /-- A write was accepted. -/
  | accepted
  /-- The access was refused (20_memory.md R207, 60_exceptions.md R1018). -/
  | busError
deriving DecidableEq, Repr

/-- The region words as (byte address, byte) pairs, addresses strictly rising. An unlisted address has no value: its
content is unspecified and a read of it draws a free value (log 5). -/
abbrev Memory := List Host.Cell

/-- Reasons a step stops with a fault: there are none. The block has no trap and no stuck state; every error of the spec is
recorded in an engine's registers or answered on the bus, and the machine goes on (log 7). -/
inductive Fault
deriving DecidableEq, Repr

/-- Reasons a step is refused. -/
inductive Refusal
  /-- An arm of `exec` without a meaning: raised by `exec` only, and by no arm of this model. Safe. -/
  | notModelled (mnemonic : String)
deriving DecidableEq, Repr

/-- The whole block, the parameters it was built with, and the model's own fields. -/
structure State where
  /-- The implementation parameters P1 to P4 (00_scope.md R9); no step changes them. -/
  params : Params
  /-- STATUS, CTRL and ERR_LOC of each engine. -/
  ctl : PerEngine Ctl
  /-- Engine 0. -/
  rlee : LenRegs
  /-- Engine 1. -/
  rled : LenRegs
  /-- Engine 2. -/
  gre : GrRegs
  /-- Engine 3. -/
  grd : GrRegs
  /-- Engine 4. -/
  hufe : HufRegs
  /-- Engine 5. -/
  hufd : HufRegs
  /-- Engine 6. -/
  lzwe : LzwRegs
  /-- Engine 7. -/
  lzwd : LzwRegs
  /-- Engine 8. -/
  vq : VqRegs
  /-- The region words of all engines (20_memory.md R203). -/
  mem : Memory
  /-- The model's own: what happens next, oldest first (log 1). -/
  inbox : List Event
  /-- The model's own: the response of the last host access (log 7). -/
  port : PortResponse
  /-- The model's own: how many accesses and completions have drawn free values (log 5). -/
  draws : Nat
deriving DecidableEq, Repr

/-- An engine's control registers after reset (70_reset_and_hazards.md R1100, R1101). -/
def Ctl.reset : Ctl :=
  { running := .none, done := false, error := false, dropped := false, errCode := .none, errSrc := .none, errLoc := 0#32,
    irqEn := false }

/-- The VQ registers after reset (R1101): the document's defaults 16 levels, 4×4 blocks, 20 iterations, grayscale. -/
def VqRegs.reset : VqRegs :=
  { levels := 16#32, bs := 4#32, maxIter := 20#32, h := 0#32, w := 0#32, c := 1#32, initSrc := false, th := 0#32, tw := 0#32,
    k := 0#32, iters := 0#32, nblk := 0#32, sseLo := 0#32, sseHi := 0#32, nsamp := 0#32 }

/-- The block of parameters `p` right after reset (R1100 to R1102): every register at its reset value, every region word
unspecified. -/
def State.resetWith (p : Params) : State :=
  { params := p
    ctl := ⟨.reset, .reset, .reset, .reset, .reset, .reset, .reset, .reset, .reset⟩
    rlee := ⟨0#32, 0#32⟩
    rled := ⟨0#32, 0#32⟩
    gre := ⟨0#32, 0#32, 5#32⟩
    grd := ⟨0#32, 0#32, 5#32⟩
    hufe := ⟨0#32, 0#32, 0#32⟩
    hufd := ⟨0#32, 0#32, 0#32⟩
    lzwe := ⟨0#32, 0#32, 0#32⟩
    lzwd := ⟨0#32, 0#32, 0#32⟩
    vq := .reset
    mem := []
    inbox := []
    port := .none
    draws := 0 }

/-- The machine right after reset, at the suggested parameter values (DESIGN CHOICE, log 4). -/
def State.reset : State := .resetWith Config.suggested

end Sys2Proof.Machine
end

