-- ==== Sys2Proof/Machine/Flags.lean ====
section
/-! DEFINITION. The STATUS word and every change of the STATUS fields and ERR_LOC: START, completion, failure, illegal
command, CLEAR, a dropped write; and the interrupt request. -/
namespace Sys2Proof.Machine

/-- ERR_CODE as STATUS bits [11:8] (60_exceptions.md R1002). -/
def ErrCode.bits : ErrCode → BitVec 4
  | .none => 0#4
  | .illegalCmd => 1#4
  | .config => 2#4
  | .malformed => 3#4
  | .resource => 4#4
  | .unsupportedInput => 5#4

/-- ERR_SRC as STATUS bits [15:12] (60_exceptions.md R1003). -/
def ErrSrc.bits : ErrSrc → BitVec 4
  | .none => 0#4
  | .cmd => 1#4
  | .reg => 2#4
  | .r1 => 3#4
  | .r2 => 4#4
  | .r3 => 5#4
  | .r4 => 6#4
  | .dict => 7#4
  | .internal => 8#4

/-- STATUS.BUSY (10_state.md R101, R109). -/
def Ctl.busy (c : Ctl) : Bool := c.running.isSome

/-- The STATUS word: ERR_SRC [15:12], ERR_CODE [11:8], DROPPED [3], ERROR [2], DONE [1], BUSY [0], reserved bits 0
(10_state.md R109). -/
def Ctl.statusWord (c : Ctl) : Word :=
  0#16 ++ c.errSrc.bits ++ c.errCode.bits ++ 0#4 ++ BitVec.ofBool c.dropped ++ BitVec.ofBool c.error
    ++ BitVec.ofBool c.done ++ BitVec.ofBool c.busy

/-- The CTRL word: IRQ_EN in bit [0], reserved bits 0 (10_state.md R111). -/
def Ctl.ctrlWord (c : Ctl) : Word := 0#31 ++ BitVec.ofBool c.irqEn

/-- The engine's interrupt request (60_exceptions.md R1010). -/
def Ctl.irq (c : Ctl) : Bool := (c.done || c.error) && c.irqEn

/-- A dropped write: only the sticky DROPPED changes (40_commands.md R401). -/
def Ctl.drop (c : Ctl) : Ctl := { c with dropped := true }

/-- CLEAR: DONE, ERROR, DROPPED, ERR_CODE, ERR_SRC and ERR_LOC to 0 (40_commands.md R404). -/
def Ctl.clear (c : Ctl) : Ctl :=
  { c with done := false, error := false, dropped := false, errCode := .none, errSrc := .none, errLoc := 0#32 }

/-- An illegal command while IDLE: DONE ← 0, ERROR ← 1, ILLEGAL_CMD, CMD, ERR_LOC ← 0; DROPPED unchanged
(40_commands.md R402). -/
def Ctl.illegal (c : Ctl) : Ctl :=
  { c with done := false, error := true, errCode := .illegalCmd, errSrc := .cmd, errLoc := 0#32 }

/-- START accepted: DONE, ERROR, ERR_CODE, ERR_SRC and ERR_LOC to 0, BUSY ← 1; DROPPED unchanged (40_commands.md R405). -/
def Ctl.started (c : Ctl) (cmd : StartCmd) : Ctl :=
  { c with running := some cmd, done := false, error := false, errCode := .none, errSrc := .none, errLoc := 0#32 }

/-- Completion with success: BUSY ← 0, DONE ← 1; the error fields stay (40_commands.md R408). -/
def Ctl.succeeded (c : Ctl) : Ctl := { c with running := .none, done := true }

/-- Completion with failure: BUSY ← 0, ERROR ← 1 and the error record (40_commands.md R410, 60_exceptions.md R1001). -/
def Ctl.failed (c : Ctl) (x : Err) : Ctl :=
  { c with running := .none, error := true, errCode := x.code, errSrc := x.src, errLoc := BitVec.ofNat 32 x.loc }

end Sys2Proof.Machine
end

