-- ==== Sys2Proof/Machine/Ops.lean ====
section
/-! DEFINITION. The shared operations: memory, the address map, the register file, and what a command, a completion, an
error and a reset do to the state. -/
namespace Sys2Proof.Machine

/-! ## Memory cells -/

/-- The byte listed at an address, if any. -/
def Memory.get? : Memory → Nat → Option Byte
  | [], _ => none
  | (b, w) :: m, a => if a = b then some w else Memory.get? m a

/-- Write one byte, keeping the addresses strictly rising. -/
def Memory.set : Memory → Nat → Byte → Memory
  | [], a, v => [(a, v)]
  | (b, w) :: m, a, v =>
    if a < b then (a, v) :: (b, w) :: m
    else if a = b then (a, v) :: m
    else (b, w) :: Memory.set m a v

/-- The `n` bytes from `lo` on become unspecified: no cell of the range stays listed. -/
def Memory.forget (m : Memory) (lo n : Nat) : Memory := m.filter fun c => decide (c.1 < lo) || decide (lo + n ≤ c.1)

/-- The canonical form: addresses strictly rising. (An unlisted address reads as no value, so no entry can equal it.) -/
abbrev Memory.wf (m : Memory) : Prop := m.Pairwise fun c d => c.1 < d.1

/-- Byte `i` (0 to 3) of a word, the lowest-index byte in the low bits (20_memory.md R210). -/
def wordByte (w : Word) (i : Nat) : Byte := w.extractLsb' (8 * i) 8

/-- The word whose bytes 0 to 3 are given (20_memory.md R210). -/
def wordOfBytes (b0 b1 b2 b3 : Byte) : Word := b3 ++ b2 ++ b1 ++ b0

/-- Write the word at a 4-aligned byte address (20_memory.md R206, R208: the whole word at once). -/
def Memory.setWord (m : Memory) (a : Nat) (w : Word) : Memory :=
  (((m.set a (wordByte w 0)).set (a + 1) (wordByte w 1)).set (a + 2) (wordByte w 2)).set (a + 3) (wordByte w 3)

/-- Write consecutive words from a byte address on. -/
def Memory.setWords : Memory → Nat → List Word → Memory
  | m, _, [] => m
  | m, a, w :: ws => Memory.setWords (m.setWord a w) (a + 4) ws

/-! ## The address map (20_memory.md R201 to R204) -/

/-- EB(e), the base of engine `e`'s window (R201). -/
def windowBase (e : Eng) : Nat := 0x02000000 * (e.id + 1)

/-- The number of region Rj (R203). -/
def regionIndex : Region → Nat
  | .r1 => 1
  | .r2 => 2
  | .r3 => 3
  | .r4 => 4

/-- The region of a number (R203). -/
def regionOfIndex : Nat → Option Region
  | 1 => some .r1
  | 2 => some .r2
  | 3 => some .r3
  | 4 => some .r4
  | _ => none

/-- The byte address of word 0 of a region (R203). -/
def regionBase (e : Eng) (r : Region) : Nat := windowBase e + regionIndex r * 0x00400000

/-- The byte address of word `w` of a region (R203). -/
def wordAddr (e : Eng) (r : Region) (w : Nat) : Nat := regionBase e r + 4 * w

/-- The offset of a register in its window (10_state.md R107, R113 to R118). -/
def regOffset : Reg → Nat
  | .id => 0x000
  | .cmd => 0x004
  | .status => 0x008
  | .ctrl => 0x00C
  | .errLoc => 0x010
  | .inLen => 0x014
  | .outLen => 0x018
  | .auxLen => 0x01C
  | .inCap => 0x020
  | .outCap => 0x024
  | .auxCap => 0x028
  | .grM => 0x040
  | .lzwDictCap => 0x040
  | .lzwNextCode => 0x044
  | .vqLevels => 0x040
  | .vqBs => 0x044
  | .vqMaxIter => 0x048
  | .vqH => 0x04C
  | .vqW => 0x050
  | .vqC => 0x054
  | .vqInitSrc => 0x058
  | .vqTh => 0x05C
  | .vqTw => 0x060
  | .vqK => 0x064
  | .vqIters => 0x068
  | .vqNblk => 0x06C
  | .vqSseLo => 0x070
  | .vqSseHi => 0x074
  | .vqNsamp => 0x078
  | .pixCap => 0x080
  | .cbCap => 0x084
  | .asgCap => 0x088
  | .initCap => 0x08C
  | .vqMaxBs => 0x090
  | .vqMaxBlocks => 0x094

/-- The registers of each engine's window (R107; R113 to R117 for engines 0 to 7; R118 for engine 8). AUX_CAP is a register
of every engine 0 to 7 (R115; DEDUCED, log 9). -/
def engRegs (e : Eng) : List Reg :=
  [.id, .cmd, .status, .ctrl, .errLoc] ++
  match e with
  | .rlee | .rled => [.inLen, .outLen, .inCap, .outCap, .auxCap]
  | .gre | .grd => [.inLen, .outLen, .inCap, .outCap, .auxCap, .grM]
  | .hufe | .hufd => [.inLen, .outLen, .auxLen, .inCap, .outCap, .auxCap]
  | .lzwe | .lzwd => [.inLen, .outLen, .inCap, .outCap, .auxCap, .lzwDictCap, .lzwNextCode]
  | .vq =>
    [.vqLevels, .vqBs, .vqMaxIter, .vqH, .vqW, .vqC, .vqInitSrc, .vqTh, .vqTw, .vqK, .vqIters, .vqNblk,
     .vqSseLo, .vqSseHi, .vqNsamp, .pixCap, .cbCap, .asgCap, .initCap, .vqMaxBs, .vqMaxBlocks]

/-- The register at an offset of engine `e`'s window; none where no table lists one (R107). -/
def regAt (e : Eng) (off : Nat) : Option Reg := (engRegs e).find? fun r => regOffset r == off

/-- The byte address of a register. -/
def regAddr (e : Eng) (r : Reg) : Nat := windowBase e + regOffset r

/-- What a bus address names. -/
inductive Target
  /-- BLK_ID (10_state.md R103). -/
  | blkId
  /-- BLK_IRQ_PENDING (R103, R105). -/
  | blkIrqPending
  /-- A register of an engine window. -/
  | reg (e : Eng) (r : Reg)
  /-- An existing word of a region. -/
  | word (e : Eng) (r : Region) (w : Nat)
  /-- An offset of engine `e`'s window that names no register and no existing region word (20_memory.md R204;
  10_state.md R107): RAZ/WI, but a write to it while the engine is BUSY is dropped like any other (R215; log 8). -/
  | hole (e : Eng)
  /-- An address outside the block registers and every window: RAZ/WI (20_memory.md R202, R204; 10_state.md R103). -/
  | unmapped
deriving DecidableEq, Repr

/-- The target of an offset in engine `e`'s window (R203, R204). -/
def windowTarget (p : Params) (e : Eng) (off : Nat) : Target :=
  if off < 0x1000 then
    match regAt e off with
    | some r => .reg e r
    | none => .hole e
  else match regionOfIndex (off / 0x00400000) with
    | some r =>
      let w := off % 0x00400000 / 4
      if w < p.words e r then .word e r w else .hole e
    | none => .hole e

/-- The target of a 4-aligned byte address (R201 to R204). -/
def busTarget (p : Params) (a : Nat) : Target :=
  if a = 0 then .blkId
  else if a = 4 then .blkIrqPending
  else if a < 0x02000000 then .unmapped
  else match engOfId (a / 0x02000000 - 1) with
    | some e => windowTarget p e (a % 0x02000000)
    | none => .unmapped

/-! ## Capacities (00_scope.md R10; 10_state.md R115, R117, R129) -/

/-- How a region's words are read as elements (10_state.md R130, 20_memory.md R209). -/
inductive ElemKind
  /-- A code point, code, assignment or index: one element a word. -/
  | word
  /-- A byte: four a word. -/
  | byte
  /-- A bit: 32 a word. -/
  | bit
  /-- A frequency-table entry: two words. -/
  | entry
deriving DecidableEq, Repr

/-- The element type of each used region (10_state.md R130). -/
def elemKind : Eng → Region → Option ElemKind
  | .rlee, .r1 => some .word
  | .rlee, .r2 => some .word
  | .rled, .r1 => some .word
  | .rled, .r2 => some .word
  | .gre, .r1 => some .word
  | .gre, .r2 => some .bit
  | .grd, .r1 => some .bit
  | .grd, .r2 => some .word
  | .hufe, .r1 => some .word
  | .hufe, .r2 => some .bit
  | .hufe, .r3 => some .entry
  | .hufd, .r1 => some .bit
  | .hufd, .r2 => some .word
  | .hufd, .r3 => some .entry
  | .lzwe, .r1 => some .byte
  | .lzwe, .r2 => some .word
  | .lzwd, .r1 => some .word
  | .lzwd, .r2 => some .byte
  | .vq, .r1 => some .byte
  | .vq, .r2 => some .byte
  | .vq, .r3 => some .word
  | .vq, .r4 => some .word
  | _, _ => none

/-- The capacity of a region in its elements (00_scope.md R10). -/
def capacity (p : Params) (e : Eng) (r : Region) : Nat :=
  match elemKind e r with
  | some .word => p.words e r
  | some .byte => 4 * p.words e r
  | some .bit => 32 * p.words e r
  | some .entry => p.words e r / 2
  | none => 0

/-- How many words a stream of `n` elements of a region takes: ceil(n / elements per word), two words an entry. -/
def wordsFor (k : ElemKind) (n : Nat) : Nat :=
  match k with
  | .word => n
  | .byte => (n + 3) / 4
  | .bit => (n + 31) / 32
  | .entry => 2 * n

/-! ## Registers -/

/-- A stored length register of an RLE engine. -/
def LenRegs.get (x : LenRegs) : Reg → Word
  | .inLen => x.inLen
  | .outLen => x.outLen
  | _ => 0#32

/-- Store into an RLE engine's register. -/
def LenRegs.set (x : LenRegs) (r : Reg) (v : Word) : LenRegs :=
  match r with
  | .inLen => { x with inLen := v }
  | .outLen => { x with outLen := v }
  | _ => x

/-- A stored register of a Golomb-Rice engine. -/
def GrRegs.get (x : GrRegs) : Reg → Word
  | .inLen => x.inLen
  | .outLen => x.outLen
  | .grM => x.m
  | _ => 0#32

/-- Store into a Golomb-Rice engine's register. -/
def GrRegs.set (x : GrRegs) (r : Reg) (v : Word) : GrRegs :=
  match r with
  | .inLen => { x with inLen := v }
  | .outLen => { x with outLen := v }
  | .grM => { x with m := v }
  | _ => x

/-- A stored register of a Huffman engine. -/
def HufRegs.get (x : HufRegs) : Reg → Word
  | .inLen => x.inLen
  | .outLen => x.outLen
  | .auxLen => x.auxLen
  | _ => 0#32

/-- Store into a Huffman engine's register. -/
def HufRegs.set (x : HufRegs) (r : Reg) (v : Word) : HufRegs :=
  match r with
  | .inLen => { x with inLen := v }
  | .outLen => { x with outLen := v }
  | .auxLen => { x with auxLen := v }
  | _ => x

/-- A stored register of an LZW engine. -/
def LzwRegs.get (x : LzwRegs) : Reg → Word
  | .inLen => x.inLen
  | .outLen => x.outLen
  | .lzwNextCode => x.nextCode
  | _ => 0#32

/-- Store into an LZW engine's register. -/
def LzwRegs.set (x : LzwRegs) (r : Reg) (v : Word) : LzwRegs :=
  match r with
  | .inLen => { x with inLen := v }
  | .outLen => { x with outLen := v }
  | .lzwNextCode => { x with nextCode := v }
  | _ => x

/-- A stored register of the VQ engine; VQ_INIT_SRC reads 0 in bits [31:1] (10_state.md R118). -/
def VqRegs.get (x : VqRegs) : Reg → Word
  | .vqLevels => x.levels
  | .vqBs => x.bs
  | .vqMaxIter => x.maxIter
  | .vqH => x.h
  | .vqW => x.w
  | .vqC => x.c
  | .vqInitSrc => 0#31 ++ BitVec.ofBool x.initSrc
  | .vqTh => x.th
  | .vqTw => x.tw
  | .vqK => x.k
  | .vqIters => x.iters
  | .vqNblk => x.nblk
  | .vqSseLo => x.sseLo
  | .vqSseHi => x.sseHi
  | .vqNsamp => x.nsamp
  | _ => 0#32

/-- Store into the VQ engine's register; VQ_INIT_SRC keeps bit [0] only (10_state.md R118, R124). -/
def VqRegs.set (x : VqRegs) (r : Reg) (v : Word) : VqRegs :=
  match r with
  | .vqLevels => { x with levels := v }
  | .vqBs => { x with bs := v }
  | .vqMaxIter => { x with maxIter := v }
  | .vqH => { x with h := v }
  | .vqW => { x with w := v }
  | .vqC => { x with c := v }
  | .vqInitSrc => { x with initSrc := v.getLsbD 0 }
  | .vqTh => { x with th := v }
  | .vqTw => { x with tw := v }
  | .vqK => { x with k := v }
  | .vqIters => { x with iters := v }
  | .vqNblk => { x with nblk := v }
  | .vqSseLo => { x with sseLo := v }
  | .vqSseHi => { x with sseHi := v }
  | .vqNsamp => { x with nsamp := v }
  | _ => x

/-- The stored length, configuration and output registers of engine `e`. -/
def State.getReg (s : State) (e : Eng) (r : Reg) : Word :=
  match e with
  | .rlee => s.rlee.get r
  | .rled => s.rled.get r
  | .gre => s.gre.get r
  | .grd => s.grd.get r
  | .hufe => s.hufe.get r
  | .hufd => s.hufd.get r
  | .lzwe => s.lzwe.get r
  | .lzwd => s.lzwd.get r
  | .vq => s.vq.get r

/-- Store into a length, configuration or output register of engine `e`; a register the engine lacks stores nothing. -/
def State.setReg (s : State) (e : Eng) (r : Reg) (v : Word) : State :=
  match e with
  | .rlee => { s with rlee := s.rlee.set r v }
  | .rled => { s with rled := s.rled.set r v }
  | .gre => { s with gre := s.gre.set r v }
  | .grd => { s with grd := s.grd.set r v }
  | .hufe => { s with hufe := s.hufe.set r v }
  | .hufd => { s with hufd := s.hufd.set r v }
  | .lzwe => { s with lzwe := s.lzwe.set r v }
  | .lzwd => { s with lzwd := s.lzwd.set r v }
  | .vq => { s with vq := s.vq.set r v }

/-- Store into registers one after another. -/
def State.setRegs (s : State) (e : Eng) : List (Reg × Word) → State
  | [] => s
  | (r, v) :: rs => State.setRegs (s.setReg e r v) e rs

/-- Replace engine `e`'s control registers. -/
def State.setCtl (s : State) (e : Eng) (c : Ctl) : State := { s with ctl := s.ctl.set e c }

/-- Replace the memory. -/
def State.setMem (s : State) (m : Memory) : State := { s with mem := m }

/-- One more free value has been drawn (log 5). -/
def State.drew (s : State) : State := { s with draws := s.draws + 1 }

/-- STATUS.BUSY of engine `e`. -/
def State.busy (s : State) (e : Eng) : Bool := (s.ctl.get e).busy

/-- What a host read of a register returns (10_state.md R104 to R129). -/
def State.readReg (s : State) (e : Eng) (r : Reg) : Word :=
  match r with
  | .id => 0x4150#16 ++ 0x01#8 ++ BitVec.ofNat 8 e.id
  | .cmd => 0#32
  | .status => (s.ctl.get e).statusWord
  | .ctrl => (s.ctl.get e).ctrlWord
  | .errLoc => (s.ctl.get e).errLoc
  | .inCap => BitVec.ofNat 32 (capacity s.params e .r1)
  | .outCap => BitVec.ofNat 32 (capacity s.params e .r2)
  | .auxCap => BitVec.ofNat 32 (capacity s.params e .r3)
  | .lzwDictCap => BitVec.ofNat 32 s.params.lzwDictCap
  | .pixCap => BitVec.ofNat 32 (capacity s.params e .r1)
  | .cbCap => BitVec.ofNat 32 (capacity s.params e .r2)
  | .asgCap => BitVec.ofNat 32 (capacity s.params e .r3)
  | .initCap => BitVec.ofNat 32 (capacity s.params e .r4)
  | .vqMaxBs => BitVec.ofNat 32 s.params.vqMaxBs
  | .vqMaxBlocks => BitVec.ofNat 32 s.params.vqMaxBlocks
  | r => s.getReg e r

/-- The registers the host may write (access RW in 10_state.md R107, R113, R114, R116, R118). CMD is not among them: it
stores nothing (R108). -/
def hostWritable (e : Eng) (r : Reg) : Bool :=
  match r with
  | .ctrl => true
  | .inLen => e != .vq
  | .auxLen => e == .hufd
  | .grM => e == .gre || e == .grd
  | .vqLevels | .vqBs | .vqMaxIter | .vqH | .vqW | .vqC | .vqInitSrc | .vqTh | .vqTw | .vqK => e == .vq
  | _ => false

/-- A host write of a register of an IDLE engine under the field rules: read-only registers ignore it and CTRL keeps bit
[0] only (20_memory.md R206; 10_state.md R111; 92_eei_decisions.md D46). -/
def State.writeReg (s : State) (e : Eng) (r : Reg) (v : Word) : State :=
  if hostWritable e r then
    match r with
    | .ctrl => s.setCtl e { s.ctl.get e with irqEn := v.getLsbD 0 }
    | r => s.setReg e r v
  else s

/-- BLK_IRQ_PENDING: bit e is engine e's request (10_state.md R105, 60_exceptions.md R1011). -/
def State.irqPending (s : State) : Word :=
  0#23 ++ BitVec.ofBool s.ctl.vq.irq ++ BitVec.ofBool s.ctl.lzwd.irq ++ BitVec.ofBool s.ctl.lzwe.irq
    ++ BitVec.ofBool s.ctl.hufd.irq ++ BitVec.ofBool s.ctl.hufe.irq ++ BitVec.ofBool s.ctl.grd.irq
    ++ BitVec.ofBool s.ctl.gre.irq ++ BitVec.ofBool s.ctl.rled.irq ++ BitVec.ofBool s.ctl.rlee.irq

/-- The block's interrupt output, the OR of the nine requests (60_exceptions.md R1011). -/
def State.irqLine (s : State) : Bool := Eng.all.any fun e => (s.ctl.get e).irq

/-- BLK_ID: MAGIC 0x4150, SPEC_VERSION 1, ENGINE_COUNT 9 (10_state.md R104). -/
def blkId : Word := 0x4150#16 ++ 0x01#8 ++ 9#8

/-! ## Region words and draws -/

/-- The byte at a region byte address: the listed byte, else a free value (log 5). -/
def State.byteAt (s : State) (a : Nat) : Byte := (s.mem.get? a).getD (Config.freeByte s.draws a)

/-- The word at a region word address. -/
def State.wordAt (s : State) (a : Nat) : Word :=
  wordOfBytes (s.byteAt a) (s.byteAt (a + 1)) (s.byteAt (a + 2)) (s.byteAt (a + 3))

/-- Any value, for a word at this address (00_scope.md R14 `draw`). -/
def State.drawnWord (s : State) (a : Nat) : Word :=
  wordOfBytes (Config.freeByte s.draws a) (Config.freeByte s.draws (a + 1)) (Config.freeByte s.draws (a + 2))
    (Config.freeByte s.draws (a + 3))

/-- The word at a region word address when all its bytes are specified. -/
def State.word? (s : State) (a : Nat) : Option Word :=
  match s.mem.get? a, s.mem.get? (a + 1), s.mem.get? (a + 2), s.mem.get? (a + 3) with
  | some b0, some b1, some b2, some b3 => some (wordOfBytes b0 b1 b2 b3)
  | _, _, _, _ => none

/-! ## Commands, completions, errors -/

/-- The output registers of a command (40_commands.md R405). -/
def outRegs (e : Eng) (cmd : StartCmd) : List Reg :=
  match e, cmd with
  | .rlee, _ | .rled, _ | .gre, _ | .grd, _ | .hufd, _ => [.outLen]
  | .hufe, _ => [.outLen, .auxLen]
  | .lzwe, _ | .lzwd, _ => [.outLen, .lzwNextCode]
  | .vq, .start => [.vqTh, .vqTw, .vqK, .vqIters, .vqNblk, .vqSseLo, .vqSseHi, .vqNsamp]
  | .vq, .startDec => [.vqNblk]

/-- The output regions of a command (10_state.md R130). -/
def outRegions (e : Eng) (cmd : StartCmd) : List Region :=
  match e, cmd with
  | .hufe, _ => [.r2, .r3]
  | .vq, .start => [.r2, .r3]
  | .vq, .startDec => [.r1]
  | _, _ => [.r2]

/-- The input regions of a command (10_state.md R130, 20_memory.md R213). -/
def inRegions (e : Eng) (cmd : StartCmd) : List Region :=
  match e, cmd with
  | .hufd, _ => [.r1, .r3]
  | .vq, .start => [.r1, .r4]
  | .vq, .startDec => [.r2, .r3]
  | _, _ => [.r1]

/-- Every output register of the command to 0 (40_commands.md R405, R410). -/
def State.zeroOutputs (s : State) (e : Eng) (cmd : StartCmd) : State :=
  s.setRegs e ((outRegs e cmd).map fun r => (r, 0#32))

/-- Every word of one region becomes unspecified. -/
def Memory.forgetRegion (m : Memory) (p : Params) (e : Eng) (r : Region) : Memory :=
  m.forget (regionBase e r) (4 * p.words e r)

/-- Every word of the given regions becomes unspecified (20_memory.md R214, 40_commands.md R405, R410). -/
def State.forgetRegions (s : State) (e : Eng) : List Region → State
  | [] => s
  | r :: rs => State.forgetRegions (s.setMem (s.mem.forgetRegion s.params e r)) e rs

/-- A host write dropped by a BUSY engine: nothing is stored, DROPPED ← 1 (40_commands.md R401). -/
def State.drop (s : State) (e : Eng) : State := s.setCtl e (s.ctl.get e).drop

/-- A command or a host write acts when the engine is IDLE and is dropped when it is BUSY (40_commands.md R400, R401). -/
def whenIdle (e : Eng) (s : State) (act : State → State) : Host.Outcome State Fault Refusal :=
  if s.busy e then .next (s.drop e) else .next (act s)

/-- NOP: no state changes (40_commands.md R403). -/
def nopCommand (e : Eng) (s : State) : Host.Outcome State Fault Refusal := whenIdle e s fun s => s

/-- The return from an error: CLEAR (40_commands.md R404, 60_exceptions.md R1008). -/
def State.clear (s : State) (e : Eng) : State := s.setCtl e (s.ctl.get e).clear

/-- CLEAR as a command. -/
def clearCommand (e : Eng) (s : State) : Host.Outcome State Fault Refusal := whenIdle e s fun s => s.clear e

/-- The START frame (40_commands.md R405). The snapshot is not stored: R407 lets the completion step compute from the state
it finds (log 10). -/
def State.startFrame (s : State) (e : Eng) (cmd : StartCmd) : State :=
  ((s.zeroOutputs e cmd).forgetRegions e (outRegions e cmd)).setCtl e ((s.ctl.get e).started cmd)

/-- START as a command. -/
def startCommand (e : Eng) (cmd : StartCmd) (s : State) : Host.Outcome State Fault Refusal :=
  whenIdle e s fun s => s.startFrame e cmd

/-- An illegal command word: dropped when BUSY, else the ILLEGAL_CMD error (40_commands.md R400 to R402). -/
def illegalCommand (e : Eng) (s : State) : State :=
  if s.busy e then s.drop e else s.setCtl e (s.ctl.get e).illegal

/-- What a successful operation publishes: the words of its output regions and its output registers. -/
structure Outputs where
  words : List (Region × List Word)
  regs : List (Reg × Word)
deriving DecidableEq, Repr

/-- Write each stream's words at the start of its region. -/
def State.writeStreams (s : State) (e : Eng) : List (Region × List Word) → State
  | [] => s
  | (r, ws) :: rest => State.writeStreams (s.setMem (s.mem.setWords (regionBase e r) ws)) e rest

/-- Completion with success (40_commands.md R408): the published words, with output words beyond them unspecified
(20_memory.md R214), the output registers, BUSY ← 0 and DONE ← 1. -/
def State.publish (s : State) (e : Eng) (cmd : StartCmd) (o : Outputs) : State :=
  ((((s.forgetRegions e (outRegions e cmd)).writeStreams e o.words).setRegs e o.regs).setCtl e
    (s.ctl.get e).succeeded).drew

/-- Completion with failure, the one operation that records an operation's error (40_commands.md R410, 60_exceptions.md
R1001): output registers 0, output regions unspecified, BUSY ← 0, ERROR ← 1 and the error record. -/
def State.fail (s : State) (e : Eng) (cmd : StartCmd) (x : Err) : State :=
  (((s.zeroOutputs e cmd).forgetRegions e (outRegions e cmd)).setCtl e ((s.ctl.get e).failed x)).drew

/-- The completion step with the result of the ideal function. -/
def State.finish (s : State) (e : Eng) (cmd : StartCmd) (res : Except Err Outputs) : State :=
  match res with
  | .ok o => s.publish e cmd o
  | .error x => s.fail e cmd x

/-- Block reset (70_reset_and_hazards.md R1100 to R1103): every engine and every register, whatever state they are in. The
host's queue, its last response, the draw counter and the parameters are not the block's (log 14). -/
def State.resetBlock (s : State) : State :=
  { State.resetWith s.params with inbox := s.inbox, port := s.port, draws := s.draws }

end Sys2Proof.Machine
end

