-- ==== Sys2Proof/Machine/Operands.lean ====
section
/-! DEFINITION. Operand forms: registers read as numbers, regions read as sequences of elements, and sequences packed into
words (20_memory.md R209 to R212, 30_encoding.md R306 to R318). -/
namespace Sys2Proof.Machine

/-- `sint32` (00_scope.md R11): the two's-complement value of a word. -/
def sint32 (w : Word) : Int := w.toInt

/-- A number stored into a 32-bit register. -/
def toWord (n : Nat) : Word := BitVec.ofNat 32 n

/-- The largest code point (30_encoding.md R307). -/
def maxCodePoint : Nat := 0x10FFFF

/-- `Elem` of a region of words (20_memory.md R209). -/
def State.elemWord (s : State) (e : Eng) (r : Region) (j : Nat) : Word := s.wordAt (wordAddr e r j)

/-- `Elem` of a byte region: bits [8·(j mod 4)+7 : 8·(j mod 4)] of word j div 4 (R209, R210). -/
def State.elemByte (s : State) (e : Eng) (r : Region) (j : Nat) : Byte :=
  (s.wordAt (wordAddr e r (j / 4))).extractLsb' (8 * (j % 4)) 8

/-- `Elem` of a bitstream region: bit j mod 32 of word j div 32 (R209, R211). -/
def State.elemBit (s : State) (e : Eng) (r : Region) (j : Nat) : Bool :=
  (s.wordAt (wordAddr e r (j / 32))).getLsbD (j % 32)

/-- `Elem` of a frequency-table region: symbol word 2j and count word 2j + 1 (R209, 30_encoding.md R311). -/
def State.elemEntry (s : State) (e : Eng) (r : Region) (j : Nat) : Word × Nat :=
  (s.wordAt (wordAddr e r (2 * j)), (s.wordAt (wordAddr e r (2 * j + 1))).toNat)

/-- `In(r, n)` of a region of words (00_scope.md R14). -/
def State.inWords (s : State) (e : Eng) (r : Region) (n : Nat) : List Word := (List.range n).map (s.elemWord e r)

/-- `In(r, n)` of a byte region. -/
def State.inBytes (s : State) (e : Eng) (r : Region) (n : Nat) : List Byte := (List.range n).map (s.elemByte e r)

/-- `In(r, n)` of a bitstream region. -/
def State.inBits (s : State) (e : Eng) (r : Region) (n : Nat) : List Bool := (List.range n).map (s.elemBit e r)

/-- `In(r, n)` of a frequency-table region. -/
def State.inEntries (s : State) (e : Eng) (r : Region) (n : Nat) : List (Word × Nat) :=
  (List.range n).map (s.elemEntry e r)

/-- The number whose digits in base 2^8 are the bytes, first byte lowest. -/
def bytesToNat : List Byte → Nat
  | [] => 0
  | b :: bs => b.toNat + 256 * bytesToNat bs

/-- The number whose binary digits are the bits, first bit lowest. -/
def bitsToNat : List Bool → Nat
  | [] => 0
  | b :: bs => b.toNat + 2 * bitsToNat bs

/-- A byte stream packed four to a word, little-endian, padding 0 (20_memory.md R210, R212). -/
def packBytes (bs : List Byte) : List Word :=
  (List.range (wordsFor .byte bs.length)).map fun w => toWord (bytesToNat ((bs.drop (4 * w)).take 4))

/-- A bitstream packed 32 to a word, first bit lowest, padding 0 (20_memory.md R211, R212). -/
def packBits (bs : List Bool) : List Word :=
  (List.range (wordsFor .bit bs.length)).map fun w => toWord (bitsToNat ((bs.drop (32 * w)).take 32))

/-- A frequency table as words: symbol, count, symbol, count, ... (30_encoding.md R311). -/
def packEntries : List (Word × Nat) → List Word
  | [] => []
  | (sym, cnt) :: t => sym :: toWord cnt :: packEntries t

/-- An invalid length or configuration register: Err(CONFIG, REG, offset) (60_exceptions.md R1002 to R1004). -/
def Err.configReg (r : Reg) : Err := ⟨.config, .reg, regOffset r⟩

/-- A malformed artifact shape register: Err(MALFORMED, REG, offset) (45_vq_kmeans.md R921). -/
def Err.malformedReg (r : Reg) : Err := ⟨.malformed, .reg, regOffset r⟩

/-- A malformed artifact at element `i` of a region. -/
def Err.malformed (src : ErrSrc) (i : Nat) : Err := ⟨.malformed, src, i⟩

/-- An encoder input element outside the alphabet, in region R1. -/
def Err.unsupported (i : Nat) : Err := ⟨.unsupportedInput, .r1, i⟩

/-- A capacity or limit that a valid input's result exceeds. -/
def Err.resource (src : ErrSrc) (cap : Nat) : Err := ⟨.resource, src, cap⟩

/-- The index, counted from `i`, of the first element that fails `ok` or repeats an earlier one (43_huffman.md R721,
45_vq_kmeans.md R905). -/
def firstBadOrRepeated {α : Type} [DecidableEq α] (ok : α → Bool) : List α → Nat → List α → Option Nat
  | _, _, [] => none
  | seen, i, x :: xs => if !ok x || decide (x ∈ seen) then some i else firstBadOrRepeated ok (x :: seen) (i + 1) xs

end Sys2Proof.Machine
end

