-- ==== Sys2Proof/Machine/Golomb.lean ====
section
/-! DEFINITION. Engines 2 and 3: the Golomb-Rice codec and the meanings of its six commands (42_golomb_rice.md). -/
namespace Sys2Proof.Machine

/-- `clog2(m)` for m ≥ 1: the least k with 2^k ≥ m (00_scope.md R12, 42_golomb_rice.md R602). -/
def clog2 (m : Nat) : Nat := if m ≤ 1 then 0 else Nat.log2 (m - 1) + 1

/-- `bits(r, k)`: the k-bit numeral of r, most significant bit first (42_golomb_rice.md R601, 30_encoding.md R313). -/
def msbBits (r k : Nat) : List Bool := (List.range k).map fun t => r.testBit (k - 1 - t)

/-- The number whose binary numeral, most significant bit first, is the list (42_golomb_rice.md R622). -/
def msbValue (bs : List Bool) : Nat := bs.foldl (fun r b => 2 * r + b.toNat) 0

/-- The codeword of a value: unary quotient, terminator, remainder (30_encoding.md R313, 42_golomb_rice.md R603, R604). -/
def grCodeword (m v : Nat) : List Bool := List.replicate (v / m) true ++ [false] ++ msbBits (v % m) (clog2 m)

/-- The artifact: the codewords in input order (42_golomb_rice.md R604). -/
def grEncode (m : Nat) (s : List Word) : List Bool := s.flatMap fun c => grCodeword m c.toNat

/-- The artifact's length in bits: Σ (v div m + 1 + k) (42_golomb_rice.md R605). -/
def grLength (m : Nat) (s : List Word) : Nat := (s.map fun c => c.toNat / m + 1 + clog2 m).sum

/-- The decoder's loop, one codeword a turn from bit `start` on (42_golomb_rice.md R620 to R626). A codeword has at least one
bit, so a `fuel` of the stream's length is never used up. -/
def grLoop (m : Nat) : Nat → Nat → List Bool → Except Err (List Word)
  | _, _, [] => .ok []
  | 0, start, _ :: _ => .error (.malformed .r1 start)
  | fuel + 1, start, b :: bs =>
    let q := ((b :: bs).takeWhile fun x => x).length
    match (b :: bs).drop q with
    | [] => .error (.malformed .r1 start)
    | _ :: rest =>
      if rest.length < clog2 m then .error (.malformed .r1 start)
      else
        let v := q * m + msbValue (rest.take (clog2 m))
        if maxCodePoint < v then .error (.malformed .r1 start)
        else match grLoop m fuel (start + q + 1 + clog2 m) (rest.drop (clog2 m)) with
          | .ok vs => .ok (toWord v :: vs)
          | .error x => .error x

/-- The code points a bitstream denotes under `m`, or the malformed location. -/
def grDecode (m : Nat) (b : List Bool) : Except Err (List Word) := grLoop m b.length 0 b

/-- The ideal function F_GRE (42_golomb_rice.md R600, R601, R605, R606; 40_commands.md R406). -/
def idealGre (s : State) : Except Err Outputs :=
  let n := s.gre.inLen.toNat
  let m := (sint32 s.gre.m).toNat
  if capacity s.params .gre .r1 < n then .error (.configReg .inLen)
  else if sint32 s.gre.m ≤ 0 then .error (.configReg .grM)
  else
    let input := s.inWords .gre .r1 n
    match input.findIdx? fun c => decide (maxCodePoint < c.toNat) with
    | some i => .error (.unsupported i)
    | none =>
      if capacity s.params .gre .r2 < grLength m input then .error (.resource .r2 (capacity s.params .gre .r2))
      else .ok ⟨[(.r2, packBits (grEncode m input))], [(.outLen, toWord (grLength m input))]⟩

/-- The ideal function F_GRD (42_golomb_rice.md R600, R620, R627; 40_commands.md R406). -/
def idealGrd (s : State) : Except Err Outputs :=
  let n := s.grd.inLen.toNat
  let m := (sint32 s.grd.m).toNat
  if capacity s.params .grd .r1 < n then .error (.configReg .inLen)
  else if sint32 s.grd.m ≤ 0 then .error (.configReg .grM)
  else match grDecode m (s.inBits .grd .r1 n) with
    | .error x => .error x
    | .ok out =>
      if capacity s.params .grd .r2 < out.length then .error (.resource .r2 (capacity s.params .grd .r2))
      else .ok ⟨[(.r2, out)], [(.outLen, toWord out.length)]⟩

/-- GRE.NOP (40_commands.md R403). -/
def execGreNop (s : State) : Host.Outcome State Fault Refusal := nopCommand .gre s

/-- GRE.START: the START frame (40_commands.md R405); its completion step applies `idealGre` (42_golomb_rice.md R601). -/
def execGreStart (s : State) : Host.Outcome State Fault Refusal := startCommand .gre .start s

/-- GRE.CLEAR (40_commands.md R404). -/
def execGreClear (s : State) : Host.Outcome State Fault Refusal := clearCommand .gre s

/-- GRD.NOP (40_commands.md R403). -/
def execGrdNop (s : State) : Host.Outcome State Fault Refusal := nopCommand .grd s

/-- GRD.START: the START frame (40_commands.md R405); its completion step applies `idealGrd` (42_golomb_rice.md R620). -/
def execGrdStart (s : State) : Host.Outcome State Fault Refusal := startCommand .grd .start s

/-- GRD.CLEAR (40_commands.md R404). -/
def execGrdClear (s : State) : Host.Outcome State Fault Refusal := clearCommand .grd s

end Sys2Proof.Machine
end

