-- ==== Sys2Proof/Machine/Huffman.lean ====
section
/-! DEFINITION. Engines 4 and 5: the Huffman codec and the meanings of its six commands (43_huffman.md). -/
namespace Sys2Proof.Machine

/-- A Huffman tree (00_scope.md R16): leaves hold symbols, internal nodes a left and a right child. -/
inductive HufTree
  | leaf (sym : Word)
  | node (left right : HufTree)
deriving DecidableEq, Repr

/-- A node of the priority structure Q with its key (weight, seq) (43_huffman.md R701). -/
structure HufNode where
  weight : Nat
  seq : Nat
  tree : HufTree
deriving DecidableEq, Repr

/-- Count one more occurrence of a symbol; a new symbol goes to the end (43_huffman.md R700). -/
def countSymbol : List (Word × Nat) → Word → List (Word × Nat)
  | [], c => [(c, 1)]
  | (t, n) :: rest, c => if c = t then (t, n + 1) :: rest else (t, n) :: countSymbol rest c

/-- `freq(s)`: the distinct symbols in order of first occurrence, with their counts (43_huffman.md R700). -/
def freqTable (s : List Word) : List (Word × Nat) := s.foldl countSymbol []

/-- The order of keys: weight first, then seq (43_huffman.md R701, R702). -/
def keyLess (a b : HufNode) : Bool := decide (a.weight < b.weight) || (a.weight == b.weight && decide (a.seq < b.seq))

/-- Insert a node into Q kept sorted by key, least first. -/
def insertNode (x : HufNode) : List HufNode → List HufNode
  | [] => [x]
  | y :: q => if keyLess x y then x :: y :: q else y :: insertNode x q

/-- The leaves of a table in Q, leaf i with seq i (43_huffman.md R701). -/
def leafQueue : Nat → List (Word × Nat) → List HufNode
  | _, [] => []
  | i, (sym, w) :: t => insertNode ⟨w, i, .leaf sym⟩ (leafQueue (i + 1) t)

/-- The merges: the two least nodes leave Q, the first as left and the second as right child of a new node
(43_huffman.md R701, R703). Each turn shortens Q by one, so a `fuel` of its length is never used up. -/
def mergeNodes : Nat → Nat → List HufNode → Option HufTree
  | _, _, [] => none
  | _, _, [x] => some x.tree
  | 0, _, _ :: _ :: _ => none
  | fuel + 1, next, a :: b :: q =>
    mergeNodes fuel (next + 1) (insertNode ⟨a.weight + b.weight, next, .node a.tree b.tree⟩ q)

/-- `build(T)` (43_huffman.md R701); none for the empty table, which builds no tree. -/
def buildTree (t : List (Word × Nat)) : Option HufTree := mergeNodes t.length t.length (leafQueue 0 t)

/-- The leaves with their root-to-leaf paths, left = 0, right = 1 (43_huffman.md R703, R704). -/
def treePaths : HufTree → List (Word × List Bool)
  | .leaf sym => [(sym, [])]
  | .node l r => (treePaths l).map (fun p => (p.1, false :: p.2)) ++ (treePaths r).map fun p => (p.1, true :: p.2)

/-- `codes(root)` (43_huffman.md R704): a one-leaf tree gives its symbol the single bit 0. -/
def codeTable : HufTree → List (Word × List Bool)
  | .leaf sym => [(sym, [false])]
  | t => treePaths t

/-- A symbol's code in a code table. -/
def codeOf (codes : List (Word × List Bool)) (c : Word) : List Bool :=
  match codes.find? fun p => p.1 == c with
  | some p => p.2
  | none => []

/-- The bitstream of a sequence under a table (43_huffman.md R710, R712, R714). -/
def hufEncode (t : List (Word × Nat)) (s : List Word) : List Bool :=
  match buildTree t with
  | none => []
  | some root => s.flatMap (codeOf (codeTable root))

/-- The child a bit takes (43_huffman.md R724); a leaf has none and stays. -/
def HufTree.child : HufTree → Bool → HufTree
  | .leaf sym, _ => .leaf sym
  | .node l _, false => l
  | .node _ r, true => r

/-- The walk of a tree of two or more leaves (43_huffman.md R720, R724, R725): `cur` is the node reached inside a code
(none: at the root), `i` the index of the next bit, `start` the first bit of the open code. -/
def hufWalk (root : HufTree) : Option HufTree → Nat → Nat → List Bool → Except Err (List Word)
  | none, _, _, [] => .ok []
  | some _, _, start, [] => .error (.malformed .r1 start)
  | cur, i, start, b :: bs =>
    let start' := if cur.isNone then i else start
    match (cur.getD root).child b with
    | .leaf sym =>
      match hufWalk root none (i + 1) start' bs with
      | .ok out => .ok (sym :: out)
      | .error x => .error x
    | .node l r => hufWalk root (some (.node l r)) (i + 1) start' bs

/-- The symbols a bitstream denotes under a table, or the malformed location (43_huffman.md R720 to R725). -/
def hufDecode (t : List (Word × Nat)) (b : List Bool) : Except Err (List Word) :=
  match firstBadOrRepeated (fun c : Word => decide (c.toNat ≤ maxCodePoint)) [] 0 (t.map Prod.fst) with
  | some j => .error (.malformed .r3 j)
  | none =>
    match buildTree t with
    | none => if b = [] then .ok [] else .error (.malformed .r1 0)
    | some (.leaf sym) =>
      match b.findIdx? fun x => x with
      | some i => .error (.malformed .r1 i)
      | none => .ok (List.replicate b.length sym)
    | some root => hufWalk root none 0 0 b

/-- The ideal function F_HUFE (43_huffman.md R710, R711, R713, R714; 40_commands.md R406). -/
def idealHufe (s : State) : Except Err Outputs :=
  let n := s.hufe.inLen.toNat
  if capacity s.params .hufe .r1 < n then .error (.configReg .inLen)
  else
    let input := s.inWords .hufe .r1 n
    match input.findIdx? fun c => decide (maxCodePoint < c.toNat) with
    | some i => .error (.unsupported i)
    | none =>
      let t := freqTable input
      if capacity s.params .hufe .r3 < t.length then .error (.resource .r3 (capacity s.params .hufe .r3))
      else
        let out := hufEncode t input
        if capacity s.params .hufe .r2 < out.length then .error (.resource .r2 (capacity s.params .hufe .r2))
        else .ok ⟨[(.r2, packBits out), (.r3, packEntries t)],
                  [(.outLen, toWord out.length), (.auxLen, toWord t.length)]⟩

/-- The ideal function F_HUFD (43_huffman.md R720, R726; 40_commands.md R406). -/
def idealHufd (s : State) : Except Err Outputs :=
  let n := s.hufd.inLen.toNat
  let t := s.hufd.auxLen.toNat
  if capacity s.params .hufd .r1 < n then .error (.configReg .inLen)
  else if capacity s.params .hufd .r3 < t then .error (.configReg .auxLen)
  else match hufDecode (s.inEntries .hufd .r3 t) (s.inBits .hufd .r1 n) with
    | .error x => .error x
    | .ok out =>
      if capacity s.params .hufd .r2 < out.length then .error (.resource .r2 (capacity s.params .hufd .r2))
      else .ok ⟨[(.r2, out)], [(.outLen, toWord out.length)]⟩

/-- HUFE.NOP (40_commands.md R403). -/
def execHufeNop (s : State) : Host.Outcome State Fault Refusal := nopCommand .hufe s

/-- HUFE.START: the START frame (40_commands.md R405); its completion step applies `idealHufe` (43_huffman.md R710). -/
def execHufeStart (s : State) : Host.Outcome State Fault Refusal := startCommand .hufe .start s

/-- HUFE.CLEAR (40_commands.md R404). -/
def execHufeClear (s : State) : Host.Outcome State Fault Refusal := clearCommand .hufe s

/-- HUFD.NOP (40_commands.md R403). -/
def execHufdNop (s : State) : Host.Outcome State Fault Refusal := nopCommand .hufd s

/-- HUFD.START: the START frame (40_commands.md R405); its completion step applies `idealHufd` (43_huffman.md R720). -/
def execHufdStart (s : State) : Host.Outcome State Fault Refusal := startCommand .hufd .start s

/-- HUFD.CLEAR (40_commands.md R404). -/
def execHufdClear (s : State) : Host.Outcome State Fault Refusal := clearCommand .hufd s

end Sys2Proof.Machine
end

