-- ==== Sys2Proof/Machine/Lzw.lean ====
section
/-! DEFINITION. Engines 6 and 7: the LZW codec and the meanings of its six commands (44_lzw.md). A dictionary is held as
the list of created entries in order of creation: entry j has code 256 + j, and the 256 one-byte seeds are implicit
(44_lzw.md R801). -/
namespace Sys2Proof.Machine

/-- `next`, the code the next new entry will take (44_lzw.md R801). -/
def lzwNext (dict : List (List Byte)) : Nat := 256 + dict.length

/-- The code of a byte sequence, if it is in the dictionary (44_lzw.md R801). -/
def lzwCode (dict : List (List Byte)) : List Byte → Option Nat
  | [b] => some b.toNat
  | w =>
    match dict.findIdx? fun x => decide (x = w) with
    | some j => some (256 + j)
    | none => none

/-- The byte sequence of a code, if it is in the dictionary (44_lzw.md R801). -/
def lzwEntry (dict : List (List Byte)) (c : Nat) : Option (List Byte) :=
  if c < 256 then some [BitVec.ofNat 8 c] else dict[c - 256]?

/-- The encoder's loop over the input with current sequence `w` (44_lzw.md R810 to R812): the codes and the final
dictionary. -/
def lzwEncLoop : List (List Byte) → List Byte → List Byte → List Nat × List (List Byte)
  | dict, w, [] => (if w = [] then [] else [(lzwCode dict w).getD 0], dict)
  | dict, w, b :: bs =>
    match lzwCode dict (w ++ [b]) with
    | some _ => lzwEncLoop dict (w ++ [b]) bs
    | none =>
      let rest := lzwEncLoop (dict ++ [w ++ [b]]) [b] bs
      ((lzwCode dict w).getD 0 :: rest.1, rest.2)

/-- The codes of a byte sequence and the final dictionary (44_lzw.md R810). -/
def lzwEncode (x : List Byte) : List Nat × List (List Byte) := lzwEncLoop [] [] x

/-- The decoder's loop after the first code (44_lzw.md R823, R824): the rest of the output and the final dictionary. A code
not in the dictionary is `next`, the KwKwK case, since the codes have passed `lzwBadCode`. -/
def lzwDecLoop : List (List Byte) → List Byte → List Nat → List Byte × List (List Byte)
  | dict, _, [] => ([], dict)
  | dict, w, c :: cs =>
    let entry :=
      match lzwEntry dict c with
      | some x => x
      | none => w ++ w.take 1
    let rest := lzwDecLoop (dict ++ [w ++ entry.take 1]) entry cs
    (entry ++ rest.1, rest.2)

/-- The first index i with c[i] > 255 + i (44_lzw.md R821, R822), counted from `i`. -/
def lzwBadCode : Nat → List Nat → Option Nat
  | _, [] => none
  | i, c :: cs => if 255 + i < c then some i else lzwBadCode (i + 1) cs

/-- The bytes a code sequence denotes and the final dictionary, or the malformed location (44_lzw.md R820 to R825). -/
def lzwDecode (c : List Nat) : Except Err (List Byte × List (List Byte)) :=
  match lzwBadCode 0 c with
  | some i => .error (.malformed .r1 i)
  | none =>
    match c with
    | [] => .ok ([], [])
    | c0 :: cs =>
      let w := (lzwEntry [] c0).getD []
      let rest := lzwDecLoop [] w cs
      .ok (w ++ rest.1, rest.2)

/-- The ideal function F_LZWE (44_lzw.md R810, R802, R813, R814; 40_commands.md R406). -/
def idealLzwe (s : State) : Except Err Outputs :=
  let n := s.lzwe.inLen.toNat
  if capacity s.params .lzwe .r1 < n then .error (.configReg .inLen)
  else
    let res := lzwEncode (s.inBytes .lzwe .r1 n)
    if s.params.lzwDictCap < lzwNext res.2 then .error (.resource .dict s.params.lzwDictCap)
    else if capacity s.params .lzwe .r2 < res.1.length then .error (.resource .r2 (capacity s.params .lzwe .r2))
    else .ok ⟨[(.r2, res.1.map toWord)],
              [(.outLen, toWord res.1.length), (.lzwNextCode, toWord (lzwNext res.2))]⟩

/-- The ideal function F_LZWD (44_lzw.md R820, R802, R826; 40_commands.md R406). -/
def idealLzwd (s : State) : Except Err Outputs :=
  let n := s.lzwd.inLen.toNat
  if capacity s.params .lzwd .r1 < n then .error (.configReg .inLen)
  else match lzwDecode ((s.inWords .lzwd .r1 n).map BitVec.toNat) with
    | .error x => .error x
    | .ok res =>
      if s.params.lzwDictCap < lzwNext res.2 then .error (.resource .dict s.params.lzwDictCap)
      else if capacity s.params .lzwd .r2 < res.1.length then .error (.resource .r2 (capacity s.params .lzwd .r2))
      else .ok ⟨[(.r2, packBytes res.1)],
                [(.outLen, toWord res.1.length), (.lzwNextCode, toWord (lzwNext res.2))]⟩

/-- LZWE.NOP (40_commands.md R403). -/
def execLzweNop (s : State) : Host.Outcome State Fault Refusal := nopCommand .lzwe s

/-- LZWE.START: the START frame (40_commands.md R405); its completion step applies `idealLzwe` (44_lzw.md R810). -/
def execLzweStart (s : State) : Host.Outcome State Fault Refusal := startCommand .lzwe .start s

/-- LZWE.CLEAR (40_commands.md R404). -/
def execLzweClear (s : State) : Host.Outcome State Fault Refusal := clearCommand .lzwe s

/-- LZWD.NOP (40_commands.md R403). -/
def execLzwdNop (s : State) : Host.Outcome State Fault Refusal := nopCommand .lzwd s

/-- LZWD.START: the START frame (40_commands.md R405); its completion step applies `idealLzwd` (44_lzw.md R820). -/
def execLzwdStart (s : State) : Host.Outcome State Fault Refusal := startCommand .lzwd .start s

/-- LZWD.CLEAR (40_commands.md R404). -/
def execLzwdClear (s : State) : Host.Outcome State Fault Refusal := clearCommand .lzwd s

end Sys2Proof.Machine
end

