-- ==== Sys2Proof/Machine/Rle.lean ====
section
/-! DEFINITION. Engines 0 and 1: the run-length codec and the meanings of its six commands (41_rle.md). -/
namespace Sys2Proof.Machine

/-- A decimal digit: a code point in 0x30..0x39 (41_rle.md R500). -/
def isDigit (c : Word) : Bool := decide (0x30 ≤ c.toNat) && decide (c.toNat ≤ 0x39)

/-- A symbol of the RLE alphabet: a code point that is no decimal digit (R500). -/
def rleSymbol (c : Word) : Bool := decide (c.toNat ≤ maxCodePoint) && !isDigit c

/-- The digits of `n`, most significant first; `fuel` bounds their number. -/
def decDigits : Nat → Nat → List Word
  | 0, _ => []
  | fuel + 1, n => if n < 10 then [toWord (0x30 + n)] else decDigits fuel (n / 10) ++ [toWord (0x30 + n % 10)]

/-- `dec(n)`: the decimal numeral of `n`, no leading zero, most significant digit first (41_rle.md R504). A numeral has at
most n + 1 digits. -/
def dec (n : Nat) : List Word := decDigits (n + 1) n

/-- The maximal runs of a sequence, left to right, as (length, symbol) (41_rle.md R503). -/
def runs : List Word → List (Nat × Word)
  | [] => []
  | x :: xs =>
    match runs xs with
    | (n, y) :: rest => if x = y then (n + 1, y) :: rest else (1, x) :: (n, y) :: rest
    | [] => [(1, x)]

/-- The RLE artifact of a sequence of runs (30_encoding.md R312). -/
def rleEmit (rs : List (Nat × Word)) : List Word := rs.flatMap fun p => dec p.1 ++ [p.2]

/-- The run-length encoding without capacities: UNSUPPORTED_INPUT at the lowest bad index, else the artifact
(41_rle.md R501 to R504). -/
def rleEncode (s : List Word) : Except Err (List Word) :=
  match s.findIdx? fun c => !rleSymbol c with
  | some i => .error (.unsupported i)
  | none => .ok (rleEmit (runs s))

/-- The decoder's scan (41_rle.md R520 to R526): `i` is the index of the next artifact word, `start` the first digit of the
open count (none: no digit read), `cnt` the counter. It gives the runs the artifact denotes. -/
def rleScan : Nat → Option Nat → Nat → List Word → Except Err (List (Nat × Word))
  | _, start, _, [] =>
    match start with
    | none => .ok []
    | some first => .error (.malformed .r1 first)
  | i, start, cnt, c :: cs =>
    if maxCodePoint < c.toNat then .error (.malformed .r1 i)
    else if isDigit c then rleScan (i + 1) (some (start.getD i)) (cnt * 10 + (c.toNat - 0x30)) cs
    else match start with
      | none => .error (.malformed .r1 i)
      | some _ =>
        match rleScan (i + 1) none 0 cs with
        | .ok rs => .ok ((cnt, c) :: rs)
        | .error x => .error x

/-- The decoded length: the sum of the counts (41_rle.md R527). -/
def runsLength (rs : List (Nat × Word)) : Nat := (rs.map Prod.fst).sum

/-- Each symbol the counted number of times (41_rle.md R522). -/
def expandRuns (rs : List (Nat × Word)) : List Word := rs.flatMap fun p => List.replicate p.1 p.2

/-- The runs an artifact denotes, or the malformed location. -/
def rleDecode (a : List Word) : Except Err (List (Nat × Word)) := rleScan 0 none 0 a

/-- The ideal function F_RLEE (41_rle.md R501, R505, R506; 40_commands.md R406). -/
def idealRlee (s : State) : Except Err Outputs :=
  let n := s.rlee.inLen.toNat
  if capacity s.params .rlee .r1 < n then .error (.configReg .inLen)
  else match rleEncode (s.inWords .rlee .r1 n) with
    | .error x => .error x
    | .ok out =>
      if capacity s.params .rlee .r2 < out.length then .error (.resource .r2 (capacity s.params .rlee .r2))
      else .ok ⟨[(.r2, out)], [(.outLen, toWord out.length)]⟩

/-- The ideal function F_RLED (41_rle.md R520, R527; 40_commands.md R406). -/
def idealRled (s : State) : Except Err Outputs :=
  let n := s.rled.inLen.toNat
  if capacity s.params .rled .r1 < n then .error (.configReg .inLen)
  else match rleDecode (s.inWords .rled .r1 n) with
    | .error x => .error x
    | .ok rs =>
      if capacity s.params .rled .r2 < runsLength rs then .error (.resource .r2 (capacity s.params .rled .r2))
      else .ok ⟨[(.r2, expandRuns rs)], [(.outLen, toWord (runsLength rs))]⟩

/-- RLEE.NOP (40_commands.md R403). -/
def execRleeNop (s : State) : Host.Outcome State Fault Refusal := nopCommand .rlee s

/-- RLEE.START: the START frame (40_commands.md R405); its completion step applies `idealRlee` (41_rle.md R501). -/
def execRleeStart (s : State) : Host.Outcome State Fault Refusal := startCommand .rlee .start s

/-- RLEE.CLEAR (40_commands.md R404). -/
def execRleeClear (s : State) : Host.Outcome State Fault Refusal := clearCommand .rlee s

/-- RLED.NOP (40_commands.md R403). -/
def execRledNop (s : State) : Host.Outcome State Fault Refusal := nopCommand .rled s

/-- RLED.START: the START frame (40_commands.md R405); its completion step applies `idealRled` (41_rle.md R520). -/
def execRledStart (s : State) : Host.Outcome State Fault Refusal := startCommand .rled .start s

/-- RLED.CLEAR (40_commands.md R404). -/
def execRledClear (s : State) : Host.Outcome State Fault Refusal := clearCommand .rled s

end Sys2Proof.Machine
end

