-- ==== Sys2Proof/Machine/Vq.lean ====
section
/-! DEFINITION. Engine 8: vector quantization by k-means, in exact rationals, and the meanings of its four commands
(45_vq_kmeans.md). -/
namespace Sys2Proof.Machine

/-- The geometry of a START (45_vq_kmeans.md R900): block side, raster shape, channels, trimmed shape. -/
structure VqGeom where
  b : Nat
  h : Nat
  w : Nat
  c : Nat
  th : Nat
  tw : Nat
deriving DecidableEq, Repr

/-- D, the elements of one block vector (R900). -/
def VqGeom.d (g : VqGeom) : Nat := g.b * g.b * g.c

/-- GW, the blocks of one block row (R900). -/
def VqGeom.gw (g : VqGeom) : Nat := g.tw / g.b

/-- N, the number of blocks (R900). -/
def VqGeom.n (g : VqGeom) : Nat := (g.th / g.b) * g.gw

/-- H · W · C, the bytes of the raster (30_encoding.md R315). -/
def VqGeom.bytes (g : VqGeom) : Nat := g.h * g.w * g.c

/-- The vector of block `i`: element (r·b + s)·C + c is raster byte ((br·b + r)·W + bc·b + s)·C + c (R903). -/
def blockVector (g : VqGeom) (raster : List Byte) (i : Nat) : List Nat :=
  let br := i / g.gw
  let bc := i % g.gw
  (List.range g.d).map fun e =>
    let r := e / g.c / g.b
    let s := e / g.c % g.b
    let c := e % g.c
    (raster.getD (((br * g.b + r) * g.w + bc * g.b + s) * g.c + c) 0#8).toNat

/-- The block vectors v_0 .. v_{N-1} (R903). -/
def blockVectors (g : VqGeom) (raster : List Byte) : List (List Nat) := (List.range g.n).map (blockVector g raster)

/-- `dist2(v, μ)`, exact over ℚ (R906). -/
def dist2 (v : List Nat) (mu : List ℚ) : ℚ := (List.zipWith (fun (x : Nat) (y : ℚ) => ((x : ℚ) - y) * ((x : ℚ) - y)) v mu).sum

/-- The scan of `nearest` from index `j` on, with the best index and distance so far: a later centroid wins only if it is
strictly nearer, so the lowest index wins among equals (R906). -/
def nearestFrom (v : List Nat) : Nat → ℚ → Nat → List (List ℚ) → Nat
  | best, _, _, [] => best
  | best, d, j, mu :: mus =>
    if dist2 v mu < d then nearestFrom v j (dist2 v mu) (j + 1) mus else nearestFrom v best d (j + 1) mus

/-- `nearest(v, μ)`: the least index of a nearest centroid (R906). -/
def nearest (v : List Nat) : List (List ℚ) → Nat
  | [] => 0
  | mu :: mus => nearestFrom v 0 (dist2 v mu) 1 mus

/-- `assign(μ)` (R906). -/
def assignAll (vs : List (List Nat)) (mus : List (List ℚ)) : List Nat := vs.map fun v => nearest v mus

/-- The blocks assigned to centroid `j`, M_j (R907). -/
def members (vs : List (List Nat)) (a : List Nat) (j : Nat) : List (List Nat) :=
  ((vs.zip a).filter fun p => p.2 == j).map Prod.fst

/-- The mean of block vectors, element by element, exact (R907). -/
def meanVector (d : Nat) (ms : List (List Nat)) : List ℚ :=
  (List.range d).map fun e => (((ms.map fun v => v.getD e 0).sum : Nat) : ℚ) / ((ms.length : Nat) : ℚ)

/-- `update(a, μ)` from centroid index `j` on: the mean of the members, or the old centroid when there are none (R907). -/
def updateFrom (d : Nat) (vs : List (List Nat)) (a : List Nat) : Nat → List (List ℚ) → List (List ℚ)
  | _, [] => []
  | j, mu :: mus =>
    (match members vs a j with
     | [] => mu
     | m :: ms => meanVector d (m :: ms)) :: updateFrom d vs a (j + 1) mus

/-- `update(a, μ)` (R907). -/
def updateAll (d : Nat) (vs : List (List Nat)) (a : List Nat) (mus : List (List ℚ)) : List (List ℚ) :=
  updateFrom d vs a 0 mus

/-- The iterations (R902, R908): at most the first argument; the second result counts the iterations run, the one that found
no change included. -/
def kmeansLoop (d : Nat) (vs : List (List Nat)) : Nat → List (List ℚ) → List (List ℚ) × Nat
  | 0, mus => (mus, 0)
  | fuel + 1, mus =>
    let mus' := updateAll d vs (assignAll vs mus) mus
    if mus' = mus then (mus', 1)
    else
      let rest := kmeansLoop d vs fuel mus'
      (rest.1, rest.2 + 1)

/-- round(x) = floor(x + 1/2) (R909). -/
def roundHalfUp (x : ℚ) : Nat := (x + 1 / 2).floor.toNat

/-- The codebook bytes cb_j (R909). -/
def codebookOf (mus : List (List ℚ)) : List (List Nat) := mus.map fun mu => mu.map roundHalfUp

/-- The squared difference of two naturals. -/
def sqDiff (x y : Nat) : Nat := (((x : Int) - (y : Int)) * ((x : Int) - (y : Int))).toNat

/-- VQ_SSE: the squared differences between the blocks and their codebook entries (R910). -/
def sumSquaredError (vs : List (List Nat)) (cb : List (List Nat)) (a : List Nat) : Nat :=
  (List.zipWith (fun v j => (List.zipWith sqDiff v (cb.getD j [])).sum) vs a).sum

/-- An injective sequence of `k` indices taken from `pool` by the choices (R905, P6; log 6). -/
def drawIndices (choice : Nat → Nat) : Nat → List Nat → List Nat
  | 0, _ => []
  | k + 1, pool =>
    let p := choice k % pool.length
    pool.getD p 0 :: drawIndices choice k (pool.eraseIdx p)

/-- The result of a k-means encode: codebook, assignments, iterations, error. -/
structure VqResult where
  codebook : List (List Nat)
  assignments : List Nat
  iters : Nat
  sse : Nat
deriving DecidableEq, Repr

/-- START_ENC's computation from the block vectors and the initial indices (R902, R905 to R910, R913). With k = 0 no
iteration runs. -/
def vqEncode (g : VqGeom) (maxIter : Nat) (vs : List (List Nat)) (idx : List Nat) : VqResult :=
  let mu0 := idx.map fun j => (vs.getD j []).map fun x => ((x : Nat) : ℚ)
  let fin := if idx = [] then (mu0, 0) else kmeansLoop g.d vs maxIter mu0
  let a := assignAll vs fin.1
  let cb := codebookOf fin.1
  { codebook := cb, assignments := a, iters := fin.2, sse := sumSquaredError vs cb a }

/-- The checks of VQ_C, VQ_BS and the raster size that START_ENC and START_DEC share, with START_ENC's check of VQ_LEVELS
between (R901, R921). -/
def vqConfigError (s : State) (levels : Bool) : Option Err :=
  if s.vq.c.toNat ≠ 1 ∧ s.vq.c.toNat ≠ 3 then some (.configReg .vqC)
  else if levels = true ∧ sint32 s.vq.levels ≤ 0 then some (.configReg .vqLevels)
  else if sint32 s.vq.bs < 1 ∨ (s.params.vqMaxBs : Int) < sint32 s.vq.bs then some (.configReg .vqBs)
  else if capacity s.params .vq .r1 < s.vq.h.toNat * s.vq.w.toNat * s.vq.c.toNat then some (.configReg .vqH)
  else none

/-- START_ENC's geometry: the trimmed shape drops the bottom H mod b rows and the right W mod b columns (R900). -/
def vqEncGeom (s : State) : VqGeom :=
  let b := (sint32 s.vq.bs).toNat
  { b := b, h := s.vq.h.toNat, w := s.vq.w.toNat, c := s.vq.c.toNat,
    th := s.vq.h.toNat - s.vq.h.toNat % b, tw := s.vq.w.toNat - s.vq.w.toNat % b }

/-- k = min(L, N) (R904). -/
def vqK (s : State) (g : VqGeom) : Nat := min (sint32 s.vq.levels).toNat g.n

/-- The initial indices (R905): region R4 checked in increasing index, or the engine's own draw. -/
def vqInitial (s : State) (n k : Nat) : Except Err (List Nat) :=
  if s.vq.initSrc = false then
    if capacity s.params .vq .r4 < k then .error ⟨.config, .r4, capacity s.params .vq .r4⟩
    else
      let idx := (s.inWords .vq .r4 k).map BitVec.toNat
      match firstBadOrRepeated (fun i : Nat => decide (i < n)) [] 0 idx with
      | some j => .error ⟨.config, .r4, j⟩
      | none => .ok idx
  else .ok (drawIndices (Config.freeChoice s.draws) k (List.range n))

/-- The ideal function F_VQE (R902, R911 to R913). -/
def idealVqEnc (s : State) : Except Err Outputs :=
  match vqConfigError s true with
  | some x => .error x
  | none =>
    let g := vqEncGeom s
    let k := vqK s g
    match vqInitial s g.n k with
    | .error x => .error x
    | .ok idx =>
      if s.params.vqMaxBlocks < g.n then .error (.resource .internal s.params.vqMaxBlocks)
      else if capacity s.params .vq .r2 < k * g.d then .error (.resource .r2 (capacity s.params .vq .r2))
      else if capacity s.params .vq .r3 < g.n then .error (.resource .r3 (capacity s.params .vq .r3))
      else
        let res := vqEncode g s.vq.maxIter.toNat (blockVectors g (s.inBytes .vq .r1 g.bytes)) idx
        .ok ⟨[(.r2, packBytes (res.codebook.flatten.map (BitVec.ofNat 8))), (.r3, res.assignments.map toWord)],
             [(.vqTh, toWord g.th), (.vqTw, toWord g.tw), (.vqK, toWord k), (.vqIters, toWord res.iters),
              (.vqNblk, toWord g.n), (.vqSseLo, toWord (res.sse % 2 ^ 32)), (.vqSseHi, toWord (res.sse / 2 ^ 32)),
              (.vqNsamp, toWord (g.th * g.tw * g.c))]⟩

/-- START_DEC's geometry: the trimmed shape is read from VQ_TH and VQ_TW (R900, R921). -/
def vqDecGeom (s : State) : VqGeom :=
  { b := (sint32 s.vq.bs).toNat, h := s.vq.h.toNat, w := s.vq.w.toNat, c := s.vq.c.toNat,
    th := s.vq.th.toNat, tw := s.vq.tw.toNat }

/-- START_DEC's shape checks after the configuration checks, without the assignments (R921). -/
def vqShapeError (s : State) (g : VqGeom) : Option Err :=
  if g.h < g.th ∨ g.th % g.b ≠ 0 then some (.malformedReg .vqTh)
  else if g.w < g.tw ∨ g.tw % g.b ≠ 0 then some (.malformedReg .vqTw)
  else if capacity s.params .vq .r3 < g.n then some ⟨.config, .r3, capacity s.params .vq .r3⟩
  else if capacity s.params .vq .r2 < s.vq.k.toNat * g.d then some (.configReg .vqK)
  else none

/-- The reconstructed byte `p` of the raster: inside the trimmed region the element of the block's codebook entry, outside
it 0 (R920, R922). -/
def rasterByte (g : VqGeom) (cb : List Byte) (a : List Nat) (p : Nat) : Byte :=
  let c := p % g.c
  let x := p / g.c % g.w
  let y := p / g.c / g.w
  if y < g.th ∧ x < g.tw then
    cb.getD (a.getD (y / g.b * g.gw + x / g.b) 0 * g.d + (y % g.b * g.b + x % g.b) * g.c + c) 0#8
  else 0#8

/-- The reconstructed raster of H · W · C bytes (R922). -/
def vqDecode (g : VqGeom) (cb : List Byte) (a : List Nat) : List Byte := (List.range g.bytes).map (rasterByte g cb a)

/-- The ideal function F_VQD (R920, R921). -/
def idealVqDec (s : State) : Except Err Outputs :=
  match vqConfigError s false with
  | some x => .error x
  | none =>
    let g := vqDecGeom s
    match vqShapeError s g with
    | some x => .error x
    | none =>
      let a := (s.inWords .vq .r3 g.n).map BitVec.toNat
      match a.findIdx? fun j => decide (s.vq.k.toNat ≤ j) with
      | some i => .error (.malformed .r3 i)
      | none =>
        .ok ⟨[(.r1, packBytes (vqDecode g (s.inBytes .vq .r2 (s.vq.k.toNat * g.d)) a))], [(.vqNblk, toWord g.n)]⟩

/-- VQ.NOP (40_commands.md R403). -/
def execVqNop (s : State) : Host.Outcome State Fault Refusal := nopCommand .vq s

/-- VQ.START_ENC: the START frame (40_commands.md R405); its completion step applies `idealVqEnc` (45_vq_kmeans.md R902). -/
def execVqStartEnc (s : State) : Host.Outcome State Fault Refusal := startCommand .vq .start s

/-- VQ.START_DEC: the START frame (40_commands.md R405); its completion step applies `idealVqDec` (45_vq_kmeans.md R920). -/
def execVqStartDec (s : State) : Host.Outcome State Fault Refusal := startCommand .vq .startDec s

/-- VQ.CLEAR (40_commands.md R404). -/
def execVqClear (s : State) : Host.Outcome State Fault Refusal := clearCommand .vq s

end Sys2Proof.Machine
end

