-- ==== Sys2Proof/Machine/Dispatch.lean ====
section
/-! DEFINITION. The dispatch: one arm per command word of the opcode map (30_encoding.md R305). -/
namespace Sys2Proof.Machine

/-- What a legal command word does when it is written to CMD of its engine (40_commands.md R400). -/
def exec (i : Instr) (s : State) : Host.Outcome State Fault Refusal :=
  match i with
  | .rleeNop => Sys2Proof.Machine.execRleeNop s
  | .rleeStart => Sys2Proof.Machine.execRleeStart s
  | .rleeClear => Sys2Proof.Machine.execRleeClear s
  | .rledNop => Sys2Proof.Machine.execRledNop s
  | .rledStart => Sys2Proof.Machine.execRledStart s
  | .rledClear => Sys2Proof.Machine.execRledClear s
  | .greNop => Sys2Proof.Machine.execGreNop s
  | .greStart => Sys2Proof.Machine.execGreStart s
  | .greClear => Sys2Proof.Machine.execGreClear s
  | .grdNop => Sys2Proof.Machine.execGrdNop s
  | .grdStart => Sys2Proof.Machine.execGrdStart s
  | .grdClear => Sys2Proof.Machine.execGrdClear s
  | .hufeNop => Sys2Proof.Machine.execHufeNop s
  | .hufeStart => Sys2Proof.Machine.execHufeStart s
  | .hufeClear => Sys2Proof.Machine.execHufeClear s
  | .hufdNop => Sys2Proof.Machine.execHufdNop s
  | .hufdStart => Sys2Proof.Machine.execHufdStart s
  | .hufdClear => Sys2Proof.Machine.execHufdClear s
  | .lzweNop => Sys2Proof.Machine.execLzweNop s
  | .lzweStart => Sys2Proof.Machine.execLzweStart s
  | .lzweClear => Sys2Proof.Machine.execLzweClear s
  | .lzwdNop => Sys2Proof.Machine.execLzwdNop s
  | .lzwdStart => Sys2Proof.Machine.execLzwdStart s
  | .lzwdClear => Sys2Proof.Machine.execLzwdClear s
  | .vqNop => Sys2Proof.Machine.execVqNop s
  | .vqStartEnc => Sys2Proof.Machine.execVqStartEnc s
  | .vqStartDec => Sys2Proof.Machine.execVqStartDec s
  | .vqClear => Sys2Proof.Machine.execVqClear s

end Sys2Proof.Machine
end

