-- ==== Sys2Proof/Machine/Bus.lean ====
section
/-! DEFINITION. Host accesses, completion steps and the events of the agents (20_memory.md R206 to R215, 40_commands.md R400,
R408, R410). -/
namespace Sys2Proof.Machine

/-- The ideal function of a started command (00_scope.md R15; 41_rle.md to 45_vq_kmeans.md). -/
def ideal (e : Eng) (cmd : StartCmd) (s : State) : Except Err Outputs :=
  match e, cmd with
  | .rlee, _ => idealRlee s
  | .rled, _ => idealRled s
  | .gre, _ => idealGre s
  | .grd, _ => idealGrd s
  | .hufe, _ => idealHufe s
  | .hufd, _ => idealHufd s
  | .lzwe, _ => idealLzwe s
  | .lzwd, _ => idealLzwd s
  | .vq, .start => idealVqEnc s
  | .vq, .startDec => idealVqDec s

/-- The completion step of engine `e` (40_commands.md R408, R410): one atomic change. An IDLE engine has none to take and
nothing changes (log 2). -/
def completeEngine (e : Eng) (s : State) : State :=
  match (s.ctl.get e).running with
  | none => s
  | some cmd => s.finish e cmd (ideal e cmd s)

/-- Is region `r` an output region of the command engine `e` is running? (20_memory.md R215) -/
def beingWritten (s : State) (e : Eng) (r : Region) : Bool :=
  match (s.ctl.get e).running with
  | none => false
  | some cmd => decide (r ∈ outRegions e cmd)

/-- What a host read of an existing region word returns: any value while the word's region is being written, else its
contents (20_memory.md R206, R215). -/
def readWord (s : State) (e : Eng) (r : Region) (w : Nat) : Word :=
  if beingWritten s e r then s.drawnWord (wordAddr e r w) else s.wordAt (wordAddr e r w)

/-- What a host read of a 4-aligned address returns (20_memory.md R204, R206). -/
def busRead (s : State) (a : Nat) : Word :=
  match busTarget s.params a with
  | .blkId => blkId
  | .blkIrqPending => s.irqPending
  | .reg e r => s.readReg e r
  | .word e r w => readWord s e r w
  | .hole _ => 0#32
  | .unmapped => 0#32

/-- A command word written to CMD of engine `e`: a legal word runs its command, any other is illegal (40_commands.md R400). -/
def writeCmd (e : Eng) (w : Word) (s : State) : Host.Outcome State Fault Refusal :=
  match decodeFor e w with
  | .ok i => exec i s
  | .error _ => .next (illegalCommand e s)

/-- A host write to a 4-aligned address (20_memory.md R204, R206, R215; 40_commands.md R400, R401). While an engine is BUSY
every write to its window, a hole of it included, is dropped and sets DROPPED (log 8); an IDLE engine's hole ignores it. -/
def busWrite (s : State) (a : Nat) (v : Word) : Host.Outcome State Fault Refusal :=
  match busTarget s.params a with
  | .reg e .cmd => writeCmd e v s
  | .reg e r => whenIdle e s fun s => s.writeReg e r v
  | .word e r w => whenIdle e s fun s => s.setMem (s.mem.setWord (wordAddr e r w) v)
  | .hole e => whenIdle e s fun s => s
  | .blkId => .next s
  | .blkIrqPending => .next s
  | .unmapped => .next s

/-- One host access (20_memory.md R206 to R208): refused with a bus error when it is not 32 bits wide and 4-aligned
(60_exceptions.md R1018; log 7), else performed. -/
def hostAccess (acc : Access) (s : State) : Host.Outcome State Fault Refusal :=
  if acc.wellFormed = false then .next { s with port := .busError }
  else match acc with
    | .read _ a => .next ({ s with port := .data (busRead s a.toNat) }).drew
    | .write _ a v => busWrite { s with port := .accepted } a.toNat v

/-- One event of one agent (10_state.md R100). -/
def runEvent (ev : Event) (s : State) : Host.Outcome State Fault Refusal :=
  match ev with
  | .host acc => hostAccess acc s
  | .complete e => .next (completeEngine e s)
  | .reset => .next s.resetBlock

/-- The lowest-numbered BUSY engine. -/
def firstBusy (s : State) : Option Eng := Eng.all.find? s.busy

/-- The step when the host has nothing left to do: a BUSY engine completes, the lowest-numbered first; when all engines are
IDLE nothing changes (70_reset_and_hazards.md R1113, P5; log 2). -/
def idleStep (s : State) : Host.Outcome State Fault Refusal :=
  match firstBusy s with
  | some e => .next (completeEngine e s)
  | none => .next s

/-- The engine whose window a command word names; a word that names none goes to window 0 (log 15). -/
def windowOf (w : Word) : Eng := (engOfId (cmdEng w)).getD .rlee

/-- The host access that delivers a command word: a 32-bit write to CMD of the engine the word names (30_encoding.md R305). -/
def commandAccess (w : Word) : Access := .wr32 (BitVec.ofNat 32 (regAddr (windowOf w) .cmd)) w

end Sys2Proof.Machine
end

