-- ==== Sys2Proof/Machine/Step.lean ====
section
/-! DEFINITION. One step of the block with its host, and how a command word becomes the next thing that runs. -/
namespace Sys2Proof.Machine

/-- One step: the next event of the schedule happens; with none left, a BUSY engine completes (log 1, 2). -/
def step (s : State) : Host.Outcome State Fault Refusal :=
  match s.inbox with
  | ev :: rest => runEvent ev { s with inbox := rest }
  | [] => idleStep s

/-- `s` with the command word placed where the next command comes from: the host's next access is a 32-bit write of the word
to CMD of the engine it names (log 3). Nothing else changes. -/
def State.withFetchWord (s : State) (nbits w : Nat) : State :=
  { s with inbox := .host (commandAccess (tableWord nbits w)) :: s.inbox }

end Sys2Proof.Machine
end

