-- ==== Sys2Proof/Safety.lean ====
section
/-! DEFINITION. What a good state is, in the terms the claims use: the invariants the spec says every rule keeps. -/
namespace Sys2Proof.Machine

/-- The STATUS and ERR_LOC invariants of one engine (10_state.md R110, R112): BUSY excludes DONE and ERROR, DONE excludes
ERROR, without ERROR the error record is zero, with ERROR the code is not NONE. -/
abbrev StatusOk (c : Ctl) : Prop :=
  (c.busy = true → c.done = false ∧ c.error = false) ∧ ¬(c.done = true ∧ c.error = true) ∧
  (c.error = false → c.errCode = .none ∧ c.errSrc = .none ∧ c.errLoc = 0#32) ∧
  (c.error = true → c.errCode ≠ .none)

/-- Every engine's STATUS invariants hold (R110, R112). -/
def State.StatusInv (s : State) : Prop := ∀ e : Eng, StatusOk (s.ctl.get e)

/-- Every listed byte belongs to an existing region word (20_memory.md R203, R204). -/
def Memory.Mapped (p : Params) (m : Memory) : Prop :=
  ∀ c ∈ m, ∃ (e : Eng) (r : Region) (w i : Nat), w < p.words e r ∧ i < 4 ∧ c.1 = wordAddr e r w + i

/-- The memory is in its canonical form and lists only region bytes. -/
def State.MemInv (s : State) : Prop := s.mem.wf ∧ s.mem.Mapped s.params

/-- While an engine is BUSY its command's output registers are 0 and its output regions are unspecified
(40_commands.md R405, 20_memory.md R214); START_DEC runs on engine 8 only (30_encoding.md R302). -/
def State.BusyInv (s : State) : Prop :=
  ∀ (e : Eng) (cmd : StartCmd), (s.ctl.get e).running = some cmd →
    (cmd = .startDec → e = .vq) ∧
    (∀ r ∈ outRegs e cmd, s.getReg e r = 0#32) ∧
    (∀ r ∈ outRegions e cmd, ∀ w i : Nat, w < s.params.words e r → i < 4 → s.mem.get? (wordAddr e r w + i) = none)

/-- Published lengths fit their capacities: OUT_LEN ≤ OUT_CAP on engines 0 to 7, AUX_LEN ≤ AUX_CAP on engine 4,
LZW_NEXT_CODE ≤ LZW_DICT_CAP (41_rle.md R505, R527; 42_golomb_rice.md R605, R627; 43_huffman.md R713, R726;
44_lzw.md R802, R813, R826). -/
def State.LengthInv (s : State) : Prop :=
  (∀ e : Eng, e ≠ .vq → (s.getReg e .outLen).toNat ≤ capacity s.params e .r2) ∧
  s.hufe.auxLen.toNat ≤ capacity s.params .hufe .r3 ∧
  s.lzwe.nextCode.toNat ≤ s.params.lzwDictCap ∧ s.lzwd.nextCode.toNat ≤ s.params.lzwDictCap

/-- Every word of a region up to a stream of `n` elements is specified. -/
def State.Specified (s : State) (e : Eng) (r : Region) (n : Nat) : Prop :=
  match elemKind e r with
  | some k => ∀ w : Nat, w < wordsFor k n → (s.word? (wordAddr e r w)).isSome
  | none => n = 0

/-- The words of a published artifact are specified: a read of them draws nothing (20_memory.md R214;
70_reset_and_hazards.md R1102). -/
def State.PublishedInv (s : State) : Prop :=
  (∀ e : Eng, e ≠ .vq → s.Specified e .r2 (s.getReg e .outLen).toNat) ∧
  s.Specified .hufe .r3 s.hufe.auxLen.toNat

/-- The invariant of the whole block. -/
structure State.Inv (s : State) : Prop where
  legal : s.params.legal = true
  status : s.StatusInv
  mem : s.MemInv
  busy : s.BusyInv
  lengths : s.LengthInv
  published : s.PublishedInv

/-! ## The terms of the claims -/

/-- OPS(e): the OP values that are legal on engine `e` (30_encoding.md R304). -/
def legalOps : Eng → List (BitVec 8)
  | .vq => [0x00#8, 0x01#8, 0x02#8, 0x0F#8]
  | _ => [0x00#8, 0x01#8, 0x0F#8]

/-- A word that is legal for the window of engine `e` (R304): w[31:16] = 0, w[15:8] = e, w[7:0] in OPS(e). -/
def LegalWord (e : Eng) (w : Word) : Prop :=
  w.extractLsb' 16 16 = 0#16 ∧ w.extractLsb' 8 8 = BitVec.ofNat 8 e.id ∧ w.extractLsb' 0 8 ∈ legalOps e

/-- The registers a host may write and that keep what is written (access RW in 10_state.md R107, R113, R114, R116, R118). -/
def rwRegs : Eng → List Reg
  | .rlee | .rled | .hufe | .lzwe | .lzwd => [.ctrl, .inLen]
  | .gre | .grd => [.ctrl, .inLen, .grM]
  | .hufd => [.ctrl, .inLen, .auxLen]
  | .vq => [.ctrl, .vqLevels, .vqBs, .vqMaxIter, .vqH, .vqW, .vqC, .vqInitSrc, .vqTh, .vqTw, .vqK]

/-- A byte address inside region `r` of engine `e`. -/
def InRegion (p : Params) (e : Eng) (r : Region) (a : Nat) : Prop :=
  regionBase e r ≤ a ∧ a < regionBase e r + 4 * p.words e r

/-- A byte address inside the window of engine `e` (20_memory.md R201). -/
def InWindow (e : Eng) (a : Nat) : Prop := windowBase e ≤ a ∧ a < windowBase e + 0x02000000

/-- A 4-aligned address that is RAZ/WI (20_memory.md R202, R204; 10_state.md R103, R107): outside the block registers and
every window, an offset of a window that names no register and no region, or a region word past REGION_WORDS. -/
def RazWi (p : Params) (a : Nat) : Prop :=
  (8 ≤ a ∧ a < 0x02000000) ∨ 0x14000000 ≤ a ∨
  ∃ e : Eng,
    (∃ off : Nat, a = windowBase e + off ∧
      ((off < 0x1000 ∧ ∀ r ∈ engRegs e, off ≠ regOffset r) ∨ (0x1000 ≤ off ∧ off < 0x00400000) ∨
        (0x01400000 ≤ off ∧ off < 0x02000000))) ∨
    ∃ (r : Region) (w : Nat), p.words e r ≤ w ∧ w < 2 ^ 20 ∧ a = wordAddr e r w

/-- What stays: the parameters, the host's queue and response, every other engine's control registers, every stored
register but `regs` of engine `e`, and every byte of memory outside `regions` of engine `e`. -/
structure Frame (s t : State) (e : Eng) (regs : List Reg) (regions : List Region) : Prop where
  params : t.params = s.params
  inbox : t.inbox = s.inbox
  port : t.port = s.port
  ctl : ∀ e' : Eng, e' ≠ e → t.ctl.get e' = s.ctl.get e'
  regs : ∀ (e' : Eng) (r : Reg), ¬(e' = e ∧ r ∈ regs) → t.getReg e' r = s.getReg e' r
  mem : ∀ a : Nat, (∀ r ∈ regions, ¬InRegion s.params e r a) → t.mem.get? a = s.mem.get? a

/-- `t` is `s` after a START frame with the given output registers and regions (40_commands.md R405): STATUS and ERR_LOC
cleared but for DROPPED, BUSY set, the output registers 0, the output regions unspecified, all else as before. -/
structure Started (s t : State) (e : Eng) (cmd : StartCmd) (regs : List Reg) (regions : List Region) : Prop where
  ctl : t.ctl.get e =
    { running := some cmd, done := false, error := false, dropped := (s.ctl.get e).dropped, errCode := .none,
      errSrc := .none, errLoc := 0#32, irqEn := (s.ctl.get e).irqEn }
  outputs : ∀ r ∈ regs, t.getReg e r = 0#32
  unspecified : ∀ r ∈ regions, ∀ a : Nat, InRegion s.params e r a → t.mem.get? a = none
  draws : t.draws = s.draws
  frame : Frame s t e regs regions

/-- `t` is `s` after a completion with success (40_commands.md R408): BUSY 0, DONE 1, the output registers and streams
published, the words of their regions past the streams unspecified, all else as before. -/
structure Succeeded (s t : State) (e : Eng) (regs : List (Reg × Word)) (streams : List (Region × List Word)) : Prop where
  ctl : t.ctl.get e = { s.ctl.get e with running := none, done := true }
  outputs : ∀ x ∈ regs, t.getReg e x.1 = x.2
  words : ∀ x ∈ streams, ∀ (j : Nat) (h : j < x.2.length), t.word? (wordAddr e x.1 j) = some x.2[j]
  beyond : ∀ x ∈ streams, ∀ w i : Nat, x.2.length ≤ w → w < s.params.words e x.1 → i < 4 →
    t.mem.get? (wordAddr e x.1 w + i) = none
  frame : Frame s t e (regs.map Prod.fst) (streams.map Prod.fst)

/-- `t` is `s` after a completion with failure `x` (40_commands.md R410, 60_exceptions.md R1001): BUSY 0, ERROR 1, the error
record, the output registers 0, the output regions unspecified, all else as before. -/
structure FailedWith (s t : State) (e : Eng) (x : Err) (regs : List Reg) (regions : List Region) : Prop where
  ctl : t.ctl.get e =
    { s.ctl.get e with running := none, error := true, errCode := x.code, errSrc := x.src, errLoc := BitVec.ofNat 32 x.loc }
  outputs : ∀ r ∈ regs, t.getReg e r = 0#32
  unspecified : ∀ r ∈ regions, ∀ a : Nat, InRegion s.params e r a → t.mem.get? a = none
  frame : Frame s t e regs regions

/-- The first words of region `r` of engine `e` are specified and are `ws`. -/
def State.Holds (s : State) (e : Eng) (r : Region) (ws : List Word) : Prop :=
  ∀ (j : Nat) (h : j < ws.length), s.word? (wordAddr e r j) = some ws[j]

/-- What engine `e` can read or write: its parameters, control registers, stored registers and window's bytes, and the
draw that is due. -/
structure AgreeOn (e : Eng) (s t : State) : Prop where
  params : t.params = s.params
  draws : t.draws = s.draws
  ctl : t.ctl.get e = s.ctl.get e
  regs : ∀ r : Reg, t.getReg e r = s.getReg e r
  mem : ∀ a : Nat, InWindow e a → t.mem.get? a = s.mem.get? a

/-- A code point of the RLE alphabet (41_rle.md R500). -/
def RleSymbol (c : Word) : Prop := c.toNat ≤ 0x10FFFF ∧ ¬(0x30 ≤ c.toNat ∧ c.toNat ≤ 0x39)

/-- A decimal digit code point (41_rle.md R500). -/
def RleDigit (c : Word) : Prop := 0x30 ≤ c.toNat ∧ c.toNat ≤ 0x39

/-- The number a sequence of digits denotes, most significant first (41_rle.md R504, R521). -/
def numeralValue (ds : List Word) : Nat := ds.foldl (fun v d => 10 * v + (d.toNat - 0x30)) 0

/-- Index `i` of an RLE artifact offends by itself (41_rle.md R523, R525): a word above 0x10FFFF, or a symbol with no digit
before it. -/
def RleOffends (a : List Word) (i : Nat) : Prop :=
  0x10FFFF < (a.getD i 0#32).toNat ∨
  (¬RleDigit (a.getD i 0#32) ∧ (i = 0 ∨ ¬RleDigit (a.getD (i - 1) 0#32)))

/-- A decimal numeral (41_rle.md R504): one or more digits 0x30 to 0x39, no leading zero, of value `n`, most significant
first. -/
def IsNumeral (n : Nat) (ds : List Word) : Prop :=
  ds ≠ [] ∧ (∀ d ∈ ds, RleDigit d) ∧ ds.head? ≠ some 0x30#32 ∧ numeralValue ds = n

/-- The Golomb-Rice codeword of quotient `q` and remainder `r` under `m` (30_encoding.md R313): `q` ones, a zero, and the
clog2(m) bits of `r`, most significant first (log 16). -/
def grWord (m q r : Nat) : List Bool :=
  List.replicate q true ++ false :: (List.range (clog2 m)).map fun t => r.testBit (clog2 m - 1 - t)

/-- The leaves of a table as nodes of Q, leaf i with seq i (43_huffman.md R701). -/
def hufLeaves (t : List (Word × Nat)) : List HufNode := t.zipIdx.map fun x => ⟨x.1.2, x.2, .leaf x.1.1⟩

/-- Key `a` is less than key `b`: weight first, then seq (43_huffman.md R701, R702). -/
def HufKeyLt (a b : HufNode) : Prop := a.weight < b.weight ∨ (a.weight = b.weight ∧ a.seq < b.seq)

/-- The construction of 43_huffman.md R701 over an unordered Q, `next` the seq of the next merged node: while Q has two nodes or
more, the least `a` and then the least `b` leave it, and a node with `a` as left and `b` as right child enters (R703). -/
inductive HufBuilds : Nat → List HufNode → HufTree → Prop
  /-- One node is left: the root. -/
  | done (next : Nat) (x : HufNode) : HufBuilds next [x] x.tree
  /-- One merge. -/
  | merge (next : Nat) (q rest : List HufNode) (a b : HufNode) (root : HufTree) (split : q.Perm (a :: b :: rest))
      (first : ∀ x ∈ b :: rest, HufKeyLt a x) (second : ∀ x ∈ rest, HufKeyLt b x)
      (more : HufBuilds (next + 1) (⟨a.weight + b.weight, next, .node a.tree b.tree⟩ :: rest) root) : HufBuilds next q root

/-- The path of bits leads from a tree's root to the leaf of a symbol, 0 to the left and 1 to the right child
(43_huffman.md R703). -/
inductive HufPath : HufTree → List Bool → Word → Prop
  /-- At the leaf. -/
  | leaf (sym : Word) : HufPath (.leaf sym) [] sym
  /-- A 0 goes left. -/
  | left (l r : HufTree) (bs : List Bool) (sym : Word) (more : HufPath l bs sym) : HufPath (.node l r) (false :: bs) sym
  /-- A 1 goes right. -/
  | right (l r : HufTree) (bs : List Bool) (sym : Word) (more : HufPath r bs sym) : HufPath (.node l r) (true :: bs) sym

/-- The squared difference between a raster's bytes and another's over the trimmed region (45_vq_kmeans.md R910). -/
def trimmedError (g : VqGeom) (x y : List Byte) : Nat :=
  ((List.range g.th).map fun r => ((List.range g.tw).map fun q => ((List.range g.c).map fun c =>
    sqDiff (x.getD ((r * g.w + q) * g.c + c) 0#8).toNat (y.getD ((r * g.w + q) * g.c + c) 0#8).toNat).sum).sum).sum

end Sys2Proof.Machine
end

