-- ==== Sys2Proof/Certificates/Slice0/Obligations.lean ====
section
/-! DEFINITION. The statements for the provers. Each docstring names the rule of spec/ it formalises, or the sections it rests
on. A statement that rests on one of the model's choices names its log entry. -/

section

open Sys2Proof Sys2Proof.Machine

/-! ## Encoding -/

/-- 30_encoding.md R305: each of the 28 words, written to the CMD address of its row, is that row's command, and every bit is
significant: no other word is that command. -/
def Obligations.OpcodeMapWordsDecode : Prop :=
  ∀ p : Params, ∀ row ∈ ([
      (0x02000004, 0x00000000#32, .rleeNop), (0x02000004, 0x00000001#32, .rleeStart), (0x02000004, 0x0000000F#32, .rleeClear),
      (0x04000004, 0x00000100#32, .rledNop), (0x04000004, 0x00000101#32, .rledStart), (0x04000004, 0x0000010F#32, .rledClear),
      (0x06000004, 0x00000200#32, .greNop), (0x06000004, 0x00000201#32, .greStart), (0x06000004, 0x0000020F#32, .greClear),
      (0x08000004, 0x00000300#32, .grdNop), (0x08000004, 0x00000301#32, .grdStart), (0x08000004, 0x0000030F#32, .grdClear),
      (0x0A000004, 0x00000400#32, .hufeNop), (0x0A000004, 0x00000401#32, .hufeStart), (0x0A000004, 0x0000040F#32, .hufeClear),
      (0x0C000004, 0x00000500#32, .hufdNop), (0x0C000004, 0x00000501#32, .hufdStart), (0x0C000004, 0x0000050F#32, .hufdClear),
      (0x0E000004, 0x00000600#32, .lzweNop), (0x0E000004, 0x00000601#32, .lzweStart), (0x0E000004, 0x0000060F#32, .lzweClear),
      (0x10000004, 0x00000700#32, .lzwdNop), (0x10000004, 0x00000701#32, .lzwdStart), (0x10000004, 0x0000070F#32, .lzwdClear),
      (0x12000004, 0x00000800#32, .vqNop), (0x12000004, 0x00000801#32, .vqStartEnc), (0x12000004, 0x00000802#32, .vqStartDec),
      (0x12000004, 0x0000080F#32, .vqClear)] : List (Nat × Word × Instr)),
    busTarget p row.1 = .reg row.2.2.engine .cmd ∧ decodeFor row.2.2.engine row.2.1 = .ok row.2.2 ∧
    ∀ w : Word, decodeFor row.2.2.engine w = .ok row.2.2 → w = row.2.1

/-- 30_encoding.md R304: the words an engine accepts are exactly the legal ones; an illegal word written while IDLE is handled
by R402, any word written while BUSY is dropped. -/
def Obligations.LegalCommandWords : Prop :=
  ∀ (e : Eng) (w : Word),
    ((∃ i, decodeFor e w = .ok i) ↔ LegalWord e w) ∧
    ∀ s : State,
      (s.busy e = false → ¬LegalWord e w →
        writeCmd e w s = .next (s.setCtl e
          { s.ctl.get e with done := false, error := true, errCode := .illegalCmd, errSrc := .cmd, errLoc := 0#32 })) ∧
      (s.busy e = true → writeCmd e w s = .next (s.setCtl e { s.ctl.get e with dropped := true }))

/-- Decoding and encoding agree on every command, in both directions (30_encoding.md, Command word): no bit of a command word
is dropped and each word has one meaning. -/
def Obligations.DecodeInvertsEncode : Prop :=
  ∀ i : Instr, i.wellFormed = true →
    decodeFor i.engine (encode i) = .ok i ∧ decodeTableWord 32 (encode i).toNat = some i ∧
    ∀ w : Word, decode w = .ok i → w = encode i

/-! ## Steps -/

/-- A step runs the decoded command: when the host's next access is a 32-bit write of a word to CMD of engine `e` and the word
decodes for `e` to `i`, the step is `exec i` on the state with that access taken off the queue and the response "accepted"
(30_encoding.md R300, 40_commands.md R400; the queue and the response are the model's, logs 1, 3 and 7). The second clause:
`withFetchWord` makes the next step run exactly the encoded command. -/
def Obligations.StepRunsDecodedInstruction : Prop :=
  (∀ (s : State) (e : Eng) (w : Word) (i : Instr) (rest : List Event),
    s.inbox = .host (.wr32 (BitVec.ofNat 32 (regAddr e .cmd)) w) :: rest → decodeFor e w = .ok i →
    step s = exec i { s with inbox := rest, port := .accepted }) ∧
  ∀ (s : State) (i : Instr), step (s.withFetchWord 32 (encode i).toNat) = exec i { s with port := .accepted }

/-- 40_commands.md R400: the five cases of a CMD write, in their order. -/
def Obligations.CmdWriteDispatch : Prop :=
  ∀ (s : State) (e : Eng) (w : Word) (rest : List Event),
    s.inbox = .host (.wr32 (BitVec.ofNat 32 (regAddr e .cmd)) w) :: rest →
    (s.busy e = true → step s = .next (({ s with inbox := rest, port := .accepted } : State).setCtl e
      { s.ctl.get e with dropped := true })) ∧
    (s.busy e = false → ¬LegalWord e w → step s = .next (({ s with inbox := rest, port := .accepted } : State).setCtl e
      { s.ctl.get e with done := false, error := true, errCode := .illegalCmd, errSrc := .cmd, errLoc := 0#32 })) ∧
    (s.busy e = false → LegalWord e w → w.extractLsb' 0 8 = 0x00#8 →
      step s = .next { s with inbox := rest, port := .accepted }) ∧
    (s.busy e = false → LegalWord e w → w.extractLsb' 0 8 = 0x0F#8 →
      step s = .next (({ s with inbox := rest, port := .accepted } : State).setCtl e
        { s.ctl.get e with done := false, error := false, dropped := false, errCode := .none, errSrc := .none,
                           errLoc := 0#32 })) ∧
    (s.busy e = false → LegalWord e w → w.extractLsb' 0 8 = 0x01#8 → ∃ t, step s = .next t ∧
      Started { s with inbox := rest, port := .accepted } t e .start (outRegs e .start) (outRegions e .start)) ∧
    (s.busy e = false → LegalWord e w → w.extractLsb' 0 8 = 0x02#8 → e = .vq ∧ ∃ t, step s = .next t ∧
      Started { s with inbox := rest, port := .accepted } t e .startDec (outRegs e .startDec) (outRegions e .startDec))

/-- When completions happen (logs 1 and 2, the model's choices): a completion event completes its engine; with no event left
the lowest-numbered BUSY engine completes; with no event left and every engine IDLE nothing changes. -/
def Obligations.CompletionEventsRun : Prop :=
  (∀ (s : State) (e : Eng) (rest : List Event), s.inbox = .complete e :: rest →
    step s = .next (completeEngine e { s with inbox := rest })) ∧
  (∀ (s : State) (e : Eng), s.inbox = [] → s.busy e = true → (∀ e' : Eng, e'.id < e.id → s.busy e' = false) →
    step s = .next (completeEngine e s)) ∧
  ∀ s : State, s.inbox = [] → (∀ e : Eng, s.busy e = false) → step s = .next s

/-! ## Commands -/

/-- 40_commands.md R403: each of the nine NOPs changes nothing on an IDLE engine; on a BUSY one only DROPPED. -/
def Obligations.NopChangesNothing : Prop :=
  ∀ i ∈ [Instr.rleeNop, .rledNop, .greNop, .grdNop, .hufeNop, .hufdNop, .lzweNop, .lzwdNop, .vqNop], ∀ s : State,
    (s.busy i.engine = false → exec i s = .next s) ∧
    (s.busy i.engine = true → exec i s = .next (s.setCtl i.engine { s.ctl.get i.engine with dropped := true }))

/-- 40_commands.md R404: each of the nine CLEARs on an IDLE engine makes STATUS (of an IDLE engine: the whole word) and
ERR_LOC 0 and drops the interrupt request, and nothing else changes; on a BUSY engine it is dropped. -/
def Obligations.ClearResetsStatus : Prop :=
  ∀ i ∈ [Instr.rleeClear, .rledClear, .greClear, .grdClear, .hufeClear, .hufdClear, .lzweClear, .lzwdClear, .vqClear],
    ∀ s : State,
    (s.busy i.engine = false → ∃ t, exec i s = .next t ∧
      t = s.setCtl i.engine { s.ctl.get i.engine with
        done := false, error := false, dropped := false, errCode := .none, errSrc := .none, errLoc := 0#32 } ∧
      t.readReg i.engine .status = 0#32 ∧ t.readReg i.engine .errLoc = 0#32 ∧ (t.ctl.get i.engine).irq = false ∧
      ∀ (e : Eng) (r : Reg), t.getReg e r = s.getReg e r) ∧
    (s.busy i.engine = true → exec i s = .next (s.setCtl i.engine { s.ctl.get i.engine with dropped := true }))

/-- 40_commands.md R402: an illegal word on an IDLE engine records ILLEGAL_CMD from CMD at location 0 over any earlier record,
keeps DROPPED, starts no operation and changes nothing else; STATUS then reads 0x1104 (0x110C with DROPPED). -/
def Obligations.IllegalCommandRecorded : Prop :=
  ∀ (s : State) (e : Eng) (w : Word), s.busy e = false → ¬LegalWord e w → ∃ t, writeCmd e w s = .next t ∧
    t = s.setCtl e
      { s.ctl.get e with done := false, error := true, errCode := .illegalCmd, errSrc := .cmd, errLoc := 0#32 } ∧
    t.readReg e .status = (if (s.ctl.get e).dropped then 0x0000110C#32 else 0x00001104#32) ∧
    t.readReg e .errLoc = 0#32 ∧ t.busy e = false

/-- Writes to a BUSY engine (40_commands.md, Dispatch; 20_memory.md, Engine accesses): every command, and every host write to
any address of the engine's window (registers, CMD, region words and every other offset), stores nothing and only sets
DROPPED. (For an offset that names nothing the files differ: log 8.) -/
def Obligations.BusyEngineDropsWrites : Prop :=
  (∀ (i : Instr) (s : State), s.busy i.engine = true →
    exec i s = .next (s.setCtl i.engine { s.ctl.get i.engine with dropped := true })) ∧
  (∀ (s : State) (e : Eng) (a : Nat) (v : Word), s.busy e = true → InWindow e a →
    busWrite s a v = .next (s.setCtl e { s.ctl.get e with dropped := true })) ∧
  (∀ (s : State) (e : Eng) (a : BitVec 32) (v : Word) (rest : List Event), s.inbox = .host (.wr32 a v) :: rest →
    a.toNat % 4 = 0 → InWindow e a.toNat → s.busy e = true →
    step s = .next (({ s with inbox := rest, port := .accepted } : State).setCtl e
      { s.ctl.get e with dropped := true })) ∧
  (∀ (e : Eng) (r : Reg), r ∈ engRegs e → InWindow e (regAddr e r)) ∧
  ∀ (e : Eng) (r : Region) (w : Nat), w < 2 ^ 20 → InWindow e (wordAddr e r w)

/-- The START frame of the five engines whose only output register is OUT_LEN and only output region R2 (40_commands.md,
START; 10_state.md, Regions): RLEE, RLED, GRE, GRD and HUFD.START complete on an IDLE engine. No snapshot is stored (log 10). -/
def Obligations.StartOfSingleLengthEngines : Prop :=
  (∀ s : State, s.busy .rlee = false → ∃ t, exec .rleeStart s = .next t ∧ Started s t .rlee .start [.outLen] [.r2]) ∧
  (∀ s : State, s.busy .rled = false → ∃ t, exec .rledStart s = .next t ∧ Started s t .rled .start [.outLen] [.r2]) ∧
  (∀ s : State, s.busy .gre = false → ∃ t, exec .greStart s = .next t ∧ Started s t .gre .start [.outLen] [.r2]) ∧
  (∀ s : State, s.busy .grd = false → ∃ t, exec .grdStart s = .next t ∧ Started s t .grd .start [.outLen] [.r2]) ∧
  ∀ s : State, s.busy .hufd = false → ∃ t, exec .hufdStart s = .next t ∧ Started s t .hufd .start [.outLen] [.r2]

/-- The START frame of the Huffman encoder: OUT_LEN and AUX_LEN, R2 and R3 (40_commands.md, START; 10_state.md, Regions). -/
def Obligations.StartOfHuffmanEncoder : Prop :=
  ∀ s : State, s.busy .hufe = false →
    ∃ t, exec .hufeStart s = .next t ∧ Started s t .hufe .start [.outLen, .auxLen] [.r2, .r3]

/-- The START frame of the LZW engines: OUT_LEN and LZW_NEXT_CODE, R2 (40_commands.md, START; 10_state.md, Regions). -/
def Obligations.StartOfLzwEngines : Prop :=
  (∀ s : State, s.busy .lzwe = false →
    ∃ t, exec .lzweStart s = .next t ∧ Started s t .lzwe .start [.outLen, .lzwNextCode] [.r2]) ∧
  ∀ s : State, s.busy .lzwd = false →
    ∃ t, exec .lzwdStart s = .next t ∧ Started s t .lzwd .start [.outLen, .lzwNextCode] [.r2]

/-- The START_ENC frame (eight VQ output registers, R2 and R3) and the START_DEC frame (VQ_NBLK, and R1 as output region)
(40_commands.md, START; 10_state.md, Regions). -/
def Obligations.StartOfVqEngine : Prop :=
  (∀ s : State, s.busy .vq = false → ∃ t, exec .vqStartEnc s = .next t ∧
    Started s t .vq .start [.vqTh, .vqTw, .vqK, .vqIters, .vqNblk, .vqSseLo, .vqSseHi, .vqNsamp] [.r2, .r3]) ∧
  ∀ s : State, s.busy .vq = false → ∃ t, exec .vqStartDec s = .next t ∧ Started s t .vq .startDec [.vqNblk] [.r1]

/-! ## Completion -/

/-- Completion with success (40_commands.md, START; 20_memory.md, Engine accesses): what the ideal function answers is
published, BUSY falls and DONE rises, and nothing else changes. -/
def Obligations.SuccessPublishes : Prop :=
  ∀ (s : State) (e : Eng) (cmd : StartCmd) (o : Outputs), s.params.legal = true → (s.ctl.get e).running = some cmd →
    ideal e cmd s = .ok o → Succeeded s (completeEngine e s) e o.regs o.words

/-- 60_exceptions.md R1001: a failing operation ends with BUSY 0, ERROR 1, the error record, every output register 0 and every
output-region word unspecified; nothing else changes. -/
def Obligations.FailureRecorded : Prop :=
  ∀ (s : State) (e : Eng) (cmd : StartCmd) (x : Err), (s.ctl.get e).running = some cmd → ideal e cmd s = .error x →
    FailedWith s (completeEngine e s) e x (outRegs e cmd) (outRegions e cmd)

/-- Packed streams (20_memory.md, Elements inside regions): a region that holds a packed byte stream, bitstream or table reads
back as the same elements, and the bits of the last word past the stream are 0. -/
def Obligations.PackedStreamsReadBack : Prop :=
  (∀ (s : State) (e : Eng) (r : Region) (bs : List Byte), s.Holds e r (packBytes bs) → s.inBytes e r bs.length = bs) ∧
  (∀ (s : State) (e : Eng) (r : Region) (bs : List Bool), s.Holds e r (packBits bs) → s.inBits e r bs.length = bs) ∧
  (∀ (s : State) (e : Eng) (r : Region) (t : List (Word × Nat)), (∀ x ∈ t, x.2 < 2 ^ 32) → s.Holds e r (packEntries t) →
    s.inEntries e r t.length = t) ∧
  (∀ bs : List Byte, bs.length % 4 ≠ 0 → (packBytes bs).getD (bs.length / 4) 0#32 >>> (8 * (bs.length % 4)) = 0#32) ∧
  ∀ bs : List Bool, bs.length % 32 ≠ 0 → (packBits bs).getD (bs.length / 32) 0#32 >>> (bs.length % 32) = 0#32

/-! ## The bus -/

/-- 20_memory.md R207 and 60_exceptions.md R1018: an access that is not 32 bits wide and 4-aligned, at any address, is answered
with a bus error and changes no state of the block. -/
def Obligations.BusErrorChangesNothing : Prop :=
  ∀ (s : State) (acc : Access) (rest : List Event), s.inbox = .host acc :: rest →
    (acc.size ≠ 32 ∨ acc.addr.toNat % 4 ≠ 0) → step s = .next { s with inbox := rest, port := .busError }

/-- RAZ/WI addresses (20_memory.md, Address space and map, and Engine accesses): a read returns 0; a write changes nothing and
does not set DROPPED, but in the window of a BUSY engine it sets DROPPED like every write there (log 8: the files differ on an
offset of a BUSY window that names nothing). The draw counter is the model's (log 5), as are the queue and response (logs 1, 7). -/
def Obligations.UnmappedIsRazWi : Prop :=
  ∀ (s : State) (a : BitVec 32) (v : Word) (rest : List Event), a.toNat % 4 = 0 → RazWi s.params a.toNat →
    (s.inbox = .host (.rd32 a) :: rest →
      step s = .next { s with inbox := rest, port := .data 0#32, draws := s.draws + 1 }) ∧
    (s.inbox = .host (.wr32 a v) :: rest →
      ((∀ e : Eng, InWindow e a.toNat → s.busy e = false) → step s = .next { s with inbox := rest, port := .accepted }) ∧
      ∀ e : Eng, InWindow e a.toNat → s.busy e = true →
        step s = .next (({ s with inbox := rest, port := .accepted } : State).setCtl e
          { s.ctl.get e with dropped := true }))

/-- Accepted reads (20_memory.md, Host accesses and Engine accesses; 10_state.md): the response is the register's value or the
region word's contents, on a BUSY engine too; a word of a region that a BUSY engine is writing is a draw. A read has no side
effect: nothing but the response changes (and the model's own queue and draw counter, logs 1 and 5). -/
def Obligations.ReadsHaveNoSideEffects : Prop :=
  ∀ s : State,
    (∀ (a : BitVec 32) (rest : List Event), s.inbox = .host (.rd32 a) :: rest → a.toNat % 4 = 0 →
      step s = .next { s with inbox := rest, port := .data (busRead s a.toNat), draws := s.draws + 1 }) ∧
    busRead s 0 = 0x41500109#32 ∧ busRead s 4 = s.irqPending ∧
    (∀ (e : Eng) (r : Reg), r ∈ engRegs e → busRead s (regAddr e r) = s.readReg e r) ∧
    (∀ (e : Eng) (r : Region) (w : Nat) (v : Word), w < s.params.words e r → w < 2 ^ 20 →
      (∀ cmd : StartCmd, (s.ctl.get e).running = some cmd → r ∉ outRegions e cmd) →
      s.word? (wordAddr e r w) = some v → busRead s (wordAddr e r w) = v) ∧
    ∀ (e : Eng) (r : Region) (w : Nat) (cmd : StartCmd), w < s.params.words e r → w < 2 ^ 20 →
      (s.ctl.get e).running = some cmd → r ∈ outRegions e cmd →
      busRead s (wordAddr e r w) = s.drawnWord (wordAddr e r w)

/-- A region word of an IDLE engine (20_memory.md, Host accesses): a write stores the word, a read returns it, and no other
byte and no register changes. -/
def Obligations.RegionWordWriteThenRead : Prop :=
  ∀ (s : State) (e : Eng) (r : Region) (w : Nat) (v : Word), s.busy e = false → w < s.params.words e r → w < 2 ^ 20 →
    ∃ t, busWrite s (wordAddr e r w) v = .next t ∧ t = s.setMem t.mem ∧ busRead t (wordAddr e r w) = v ∧
      ∀ a : Nat, ¬(wordAddr e r w ≤ a ∧ a < wordAddr e r w + 4) → t.mem.get? a = s.mem.get? a

/-- Host writes of the registers of an IDLE engine under the field rules (20_memory.md, Host accesses; 10_state.md): a
read-write register reads back what was written, CTRL and VQ_INIT_SRC keep bit [0], a read-only register ignores the write;
nothing else changes. -/
def Obligations.HostRegisterWrites : Prop :=
  ∀ (s : State) (e : Eng) (r : Reg) (v : Word), s.busy e = false → r ∈ engRegs e → r ≠ .cmd →
    ∃ t, busWrite s (regAddr e r) v = .next t ∧
      (r ∈ rwRegs e → t.readReg e r = if r = .ctrl ∨ r = .vqInitSrc then v &&& 1#32 else v) ∧
      (r ∉ rwRegs e → t = s) ∧
      (r = .ctrl → t = s.setCtl e { s.ctl.get e with irqEn := v.getLsbD 0 }) ∧
      (r ≠ .ctrl → t.ctl = s.ctl ∧ Frame s t e [r] []) ∧ t.draws = s.draws

/-- 10_state.md R105: bit e of BLK_IRQ_PENDING is engine e's request, the other bits read 0, it is read-only and depends on the
engines' STATUS and CTRL only; the interrupt output is the OR of the requests. -/
def Obligations.InterruptRequests : Prop :=
  ∀ s : State,
    busRead s 4 = s.irqPending ∧
    (∀ e : Eng, s.irqPending.getLsbD e.id =
      (((s.ctl.get e).done || (s.ctl.get e).error) && (s.ctl.get e).irqEn)) ∧
    (∀ i : Nat, 9 ≤ i → s.irqPending.getLsbD i = false) ∧
    (∀ v : Word, busWrite s 4 v = .next s) ∧
    (∀ t : State, t.ctl = s.ctl → t.irqPending = s.irqPending) ∧
    (s.irqLine = true ↔ ∃ e : Eng, s.irqPending.getLsbD e.id = true)

/-- The fields of the STATUS word (10_state.md, Engine registers; 60_exceptions.md, Error kinds and codes). -/
def Obligations.StatusWordFields : Prop :=
  ∀ (s : State) (e : Eng),
    (s.readReg e .status).getLsbD 0 = s.busy e ∧ (s.readReg e .status).getLsbD 1 = (s.ctl.get e).done ∧
    (s.readReg e .status).getLsbD 2 = (s.ctl.get e).error ∧ (s.readReg e .status).getLsbD 3 = (s.ctl.get e).dropped ∧
    (s.readReg e .status).extractLsb' 4 4 = 0#4 ∧ (s.readReg e .status).extractLsb' 16 16 = 0#16 ∧
    (∀ row ∈ [(ErrCode.none, 0#4), (.illegalCmd, 1#4), (.config, 2#4), (.malformed, 3#4), (.resource, 4#4),
        (.unsupportedInput, 5#4)],
      (s.ctl.get e).errCode = row.1 → (s.readReg e .status).extractLsb' 8 4 = row.2) ∧
    ∀ row ∈ [(ErrSrc.none, 0#4), (.cmd, 1#4), (.reg, 2#4), (.r1, 3#4), (.r2, 4#4), (.r3, 5#4), (.r4, 6#4), (.dict, 7#4),
        (.internal, 8#4)],
      (s.ctl.get e).errSrc = row.1 → (s.readReg e .status).extractLsb' 12 4 = row.2

/-! ## Reset -/

/-- 70_reset_and_hazards.md R1101: what every register reads after reset, for every value of the parameters. -/
def Obligations.ResetRegisterValues : Prop :=
  ∀ p : Params,
    busRead (State.resetWith p) 0 = 0x41500109#32 ∧ busRead (State.resetWith p) 4 = 0#32 ∧
    (∀ e : Eng, ∀ row ∈ [(Reg.id, 0x41500100 + e.id), (.cmd, 0), (.status, 0), (.ctrl, 0), (.errLoc, 0)],
      (State.resetWith p).readReg e row.1 = BitVec.ofNat 32 row.2) ∧
    (∀ e : Eng, e ≠ .vq → ∀ r ∈ [Reg.inLen, .outLen], (State.resetWith p).readReg e r = 0#32) ∧
    ∀ row ∈ ([
        (.rlee, .inCap, p.words .rlee .r1), (.rlee, .outCap, p.words .rlee .r2), (.rlee, .auxCap, 0),
        (.rled, .inCap, p.words .rled .r1), (.rled, .outCap, p.words .rled .r2), (.rled, .auxCap, 0),
        (.gre, .inCap, p.words .gre .r1), (.gre, .outCap, 32 * p.words .gre .r2), (.gre, .auxCap, 0),
        (.grd, .inCap, 32 * p.words .grd .r1), (.grd, .outCap, p.words .grd .r2), (.grd, .auxCap, 0),
        (.hufe, .inCap, p.words .hufe .r1), (.hufe, .outCap, 32 * p.words .hufe .r2),
        (.hufe, .auxCap, p.words .hufe .r3 / 2),
        (.hufd, .inCap, 32 * p.words .hufd .r1), (.hufd, .outCap, p.words .hufd .r2),
        (.hufd, .auxCap, p.words .hufd .r3 / 2),
        (.lzwe, .inCap, 4 * p.words .lzwe .r1), (.lzwe, .outCap, p.words .lzwe .r2), (.lzwe, .auxCap, 0),
        (.lzwd, .inCap, p.words .lzwd .r1), (.lzwd, .outCap, 4 * p.words .lzwd .r2), (.lzwd, .auxCap, 0),
        (.hufe, .auxLen, 0), (.hufd, .auxLen, 0), (.gre, .grM, 5), (.grd, .grM, 5),
        (.lzwe, .lzwDictCap, p.lzwDictCap), (.lzwd, .lzwDictCap, p.lzwDictCap), (.lzwe, .lzwNextCode, 0),
        (.lzwd, .lzwNextCode, 0),
        (.vq, .vqLevels, 16), (.vq, .vqBs, 4), (.vq, .vqMaxIter, 20), (.vq, .vqH, 0), (.vq, .vqW, 0), (.vq, .vqC, 1),
        (.vq, .vqInitSrc, 0), (.vq, .vqTh, 0), (.vq, .vqTw, 0), (.vq, .vqK, 0), (.vq, .vqIters, 0), (.vq, .vqNblk, 0),
        (.vq, .vqSseLo, 0), (.vq, .vqSseHi, 0), (.vq, .vqNsamp, 0),
        (.vq, .pixCap, 4 * p.words .vq .r1), (.vq, .cbCap, 4 * p.words .vq .r2), (.vq, .asgCap, p.words .vq .r3),
        (.vq, .initCap, p.words .vq .r4), (.vq, .vqMaxBs, p.vqMaxBs), (.vq, .vqMaxBlocks, p.vqMaxBlocks)] :
        List (Eng × Reg × Nat)),
      (State.resetWith p).readReg row.1 row.2.1 = BitVec.ofNat 32 row.2.2

/-- Reset (70_reset_and_hazards.md, Reset): a reset event gives every register of every engine its reset value, CTRL, STATUS
and ERR_LOC 0 among them, makes every region byte unspecified and abandons every operation. Nothing else stops a running
operation but its own completion, by its event or, with no event left, as the lowest-numbered BUSY engine (that order is the
model's, logs 1 and 2; the fields a reset leaves alone are the model's own, log 14). -/
def Obligations.ResetAbandonsOperations : Prop :=
  (∀ (s : State) (rest : List Event), s.inbox = .reset :: rest → ∃ t, step s = .next t ∧
    t = { State.resetWith s.params with inbox := rest, port := s.port, draws := s.draws } ∧
    (∀ e : Eng, t.ctl.get e = { running := none, done := false, error := false, dropped := false, errCode := .none,
                                errSrc := .none, errLoc := 0#32, irqEn := false }) ∧
    t.irqLine = false ∧ (∀ e : Eng, t.busy e = false ∧ completeEngine e t = t) ∧
    (∀ (e : Eng) (r : Reg), r ∈ engRegs e → t.readReg e r = (State.resetWith s.params).readReg e r) ∧
    (∀ (e : Eng) (r : Reg), r ∈ rwRegs e → t.readReg e r =
      if r = .grM then 5#32 else if r = .vqLevels then 16#32 else if r = .vqBs then 4#32
      else if r = .vqMaxIter then 20#32 else if r = .vqC then 1#32 else 0#32) ∧
    (∀ (e : Eng) (cmd : StartCmd), ∀ r ∈ outRegs e cmd, t.getReg e r = 0#32) ∧ ∀ a : Nat, t.mem.get? a = none) ∧
  ∀ (s t : State) (e : Eng), s.busy e = true → step s = .next t → t.busy e = false →
    (∃ rest, s.inbox = .reset :: rest) ∨
    (∃ rest, s.inbox = .complete e :: rest ∧ t = completeEngine e { s with inbox := rest }) ∨
    (s.inbox = [] ∧ (∀ e' : Eng, e'.id < e.id → s.busy e' = false) ∧ t = completeEngine e s)

/-! ## Invariants and whole-machine rules -/

/-- The invariant holds right after reset, for every legal parameter value and at the model's `State.reset` (log 4). -/
def Obligations.ResetSatisfiesInv : Prop :=
  (∀ p : Params, p.legal = true → (State.resetWith p).Inv) ∧ State.reset.Inv

/-- The STATUS and ERR_LOC invariants (10_state.md, STATUS; the spec's own inference) are kept by every step, from every state
that has them. -/
def Obligations.StatusInvariantKept : Prop :=
  ∀ s t : State, s.StatusInv → step s = .next t → t.StatusInv

/-- The invariant of the whole block is kept by every step, from every state that has it: legal parameters, STATUS invariants,
canonical memory of region bytes only, outputs 0 and unspecified while BUSY, published lengths within capacity and published
words specified. -/
def Obligations.BlockInvariantKept : Prop :=
  ∀ s t : State, s.Inv → step s = .next t → t.Inv

/-- No step stops and no step changes the parameters. The spec records errors and traps nothing (60_exceptions.md); that a
refused access is a response and not a stop, that an empty queue still answers a state, and that the parameters stand in the
state are the model's choices (logs 7, 2 and 4). -/
def Obligations.EveryStepAnswersNext : Prop :=
  ∀ s : State, ∃ t, step s = .next t ∧ t.params = s.params

/-- The snapshot of a BUSY engine (40_commands.md, START): until its own completion or a reset, no step changes the engine's
registers, its window's region bytes or its control registers, but for DROPPED. -/
def Obligations.BusyEngineKeepsSnapshot : Prop :=
  ∀ (s t : State) (e : Eng), s.params.legal = true → s.busy e = true → step s = .next t →
    s.inbox.head? ≠ some .reset → s.inbox.head? ≠ some (.complete e) →
    (s.inbox = [] → ∃ e' : Eng, e'.id < e.id ∧ s.busy e' = true) →
    (t.ctl.get e = s.ctl.get e ∨ t.ctl.get e = { s.ctl.get e with dropped := true }) ∧
    (∀ r : Reg, t.getReg e r = s.getReg e r) ∧ ∀ a : Nat, InWindow e a → t.mem.get? a = s.mem.get? a

/-- Isolation of the engines (20_memory.md, Engine accesses; 00_scope.md): a completion reads and writes its own engine's part only. Two states that agree on engine `e` (and on
the draw that is due) agree on it after `e` completes; and the completion leaves every other engine as it was. -/
def Obligations.EngineIsolation : Prop :=
  (∀ (s t : State) (e : Eng), s.params.legal = true → AgreeOn e s t →
    AgreeOn e (completeEngine e s) (completeEngine e t)) ∧
  ∀ (s : State) (e e' : Eng), s.params.legal = true → e' ≠ e →
    (completeEngine e s).ctl.get e' = s.ctl.get e' ∧ (∀ r : Reg, (completeEngine e s).getReg e' r = s.getReg e' r) ∧
    ∀ a : Nat, InWindow e' a → (completeEngine e s).mem.get? a = s.mem.get? a

/-- Every operation completes (40_commands.md, START: the spec's own inference; the schedule is the model's, logs 1 and 2):
once the host's queue is used up, at most nine more steps bring every engine to IDLE. -/
def Obligations.EveryOperationCompletes : Prop :=
  ∀ s : State, ∃ t : State, Host.Core.run Sys2Proof.core (s.inbox.length + 9) s = .next t ∧ t.inbox = [] ∧
    ∀ e : Eng, t.busy e = false

/-! ## Lengths and empty input -/

/-- 40_commands.md R406: a length register above its capacity fails with Err(CONFIG, REG, offset) on engines 0 to 7, before any
other check. 41_rle.md R527, 42_golomb_rice.md R627, 43_huffman.md R726: a decoder whose artifact is valid and whose result is
longer than OUT_CAP fails with Err(RESOURCE, R2, OUT_CAP); a malformed artifact keeps its own error; a result that fits is
published. -/
def Obligations.LengthAndDecoderCapacityErrors : Prop :=
  (∀ (s : State) (e : Eng), e ≠ .vq → capacity s.params e .r1 < (s.getReg e .inLen).toNat →
    ideal e .start s = .error ⟨.config, .reg, 0x014⟩) ∧
  (∀ s : State, s.hufd.inLen.toNat ≤ capacity s.params .hufd .r1 → capacity s.params .hufd .r3 < s.hufd.auxLen.toNat →
    ideal .hufd .start s = .error ⟨.config, .reg, 0x01C⟩) ∧
  (∀ s : State, s.rled.inLen.toNat ≤ capacity s.params .rled .r1 →
    (∀ x, rleDecode (s.inWords .rled .r1 s.rled.inLen.toNat) = .error x → ideal .rled .start s = .error x) ∧
    ∀ rs, rleDecode (s.inWords .rled .r1 s.rled.inLen.toNat) = .ok rs →
      (expandRuns rs).length = (rs.map Prod.fst).sum ∧
      (capacity s.params .rled .r2 < (rs.map Prod.fst).sum →
        ideal .rled .start s = .error ⟨.resource, .r2, capacity s.params .rled .r2⟩) ∧
      ((rs.map Prod.fst).sum ≤ capacity s.params .rled .r2 →
        ideal .rled .start s = .ok ⟨[(.r2, expandRuns rs)], [(.outLen, toWord (rs.map Prod.fst).sum)]⟩)) ∧
  (∀ s : State, s.grd.inLen.toNat ≤ capacity s.params .grd .r1 → 0 < sint32 s.grd.m →
    (∀ x, grDecode s.grd.m.toNat (s.inBits .grd .r1 s.grd.inLen.toNat) = .error x → ideal .grd .start s = .error x) ∧
    ∀ out, grDecode s.grd.m.toNat (s.inBits .grd .r1 s.grd.inLen.toNat) = .ok out →
      (capacity s.params .grd .r2 < out.length →
        ideal .grd .start s = .error ⟨.resource, .r2, capacity s.params .grd .r2⟩) ∧
      (out.length ≤ capacity s.params .grd .r2 →
        ideal .grd .start s = .ok ⟨[(.r2, out)], [(.outLen, toWord out.length)]⟩)) ∧
  ∀ s : State, s.hufd.inLen.toNat ≤ capacity s.params .hufd .r1 → s.hufd.auxLen.toNat ≤ capacity s.params .hufd .r3 →
    (∀ x, hufDecode (s.inEntries .hufd .r3 s.hufd.auxLen.toNat) (s.inBits .hufd .r1 s.hufd.inLen.toNat) = .error x →
      ideal .hufd .start s = .error x) ∧
    ∀ out, hufDecode (s.inEntries .hufd .r3 s.hufd.auxLen.toNat) (s.inBits .hufd .r1 s.hufd.inLen.toNat) = .ok out →
      (capacity s.params .hufd .r2 < out.length →
        ideal .hufd .start s = .error ⟨.resource, .r2, capacity s.params .hufd .r2⟩) ∧
      (out.length ≤ capacity s.params .hufd .r2 →
        ideal .hufd .start s = .ok ⟨[(.r2, out)], [(.outLen, toWord out.length)]⟩)

/-- Degenerate input (60_exceptions.md, Priority): an empty input is not an error on any engine. A VQ raster with no whole block gives an empty
codebook and no assignments. -/
def Obligations.EmptyInputSucceeds : Prop :=
  (∀ s : State, s.rlee.inLen = 0#32 → ideal .rlee .start s = .ok ⟨[(.r2, [])], [(.outLen, 0#32)]⟩) ∧
  (∀ s : State, s.rled.inLen = 0#32 → ideal .rled .start s = .ok ⟨[(.r2, [])], [(.outLen, 0#32)]⟩) ∧
  (∀ s : State, s.gre.inLen = 0#32 → 0 < sint32 s.gre.m →
    ideal .gre .start s = .ok ⟨[(.r2, [])], [(.outLen, 0#32)]⟩) ∧
  (∀ s : State, s.grd.inLen = 0#32 → 0 < sint32 s.grd.m →
    ideal .grd .start s = .ok ⟨[(.r2, [])], [(.outLen, 0#32)]⟩) ∧
  (∀ s : State, s.hufe.inLen = 0#32 →
    ideal .hufe .start s = .ok ⟨[(.r2, []), (.r3, [])], [(.outLen, 0#32), (.auxLen, 0#32)]⟩) ∧
  (∀ s : State, s.hufd.inLen = 0#32 → s.hufd.auxLen = 0#32 →
    ideal .hufd .start s = .ok ⟨[(.r2, [])], [(.outLen, 0#32)]⟩) ∧
  (∀ s : State, s.lzwe.inLen = 0#32 → 256 ≤ s.params.lzwDictCap →
    ideal .lzwe .start s = .ok ⟨[(.r2, [])], [(.outLen, 0#32), (.lzwNextCode, 256#32)]⟩) ∧
  (∀ s : State, s.lzwd.inLen = 0#32 → 256 ≤ s.params.lzwDictCap →
    ideal .lzwd .start s = .ok ⟨[(.r2, [])], [(.outLen, 0#32), (.lzwNextCode, 256#32)]⟩) ∧
  ∀ s : State, vqConfigError s true = none →
    (s.vq.h.toNat < (sint32 s.vq.bs).toNat ∨ s.vq.w.toNat < (sint32 s.vq.bs).toNat) →
    ideal .vq .start s = .ok ⟨[(.r2, []), (.r3, [])],
      [(.vqTh, toWord (vqEncGeom s).th), (.vqTw, toWord (vqEncGeom s).tw), (.vqK, 0#32), (.vqIters, 0#32),
       (.vqNblk, 0#32), (.vqSseLo, 0#32), (.vqSseHi, 0#32), (.vqNsamp, 0#32)]⟩

/-! ## Run-length coding -/

/-- The artifact of an RLE encode (41_rle.md; the digit order is the spec's from general knowledge): the input cut into
non-empty maximal runs, each written as the decimal numeral of its length and its symbol. -/
def Obligations.RleArtifactIsMaximalRuns : Prop :=
  ∀ s : List Word, (∀ c ∈ s, RleSymbol c) → ∃ (out : List Word) (rs : List (Nat × Word × List Word)),
    rleEncode s = .ok out ∧ (∀ x ∈ rs, 1 ≤ x.1 ∧ IsNumeral x.1 x.2.2) ∧ rs.IsChain (fun x y => x.2.1 ≠ y.2.1) ∧
    s = rs.flatMap (fun x => List.replicate x.1 x.2.1) ∧ out = rs.flatMap fun x => x.2.2 ++ [x.2.1]

/-- 41_rle.md R502, 42_golomb_rice.md R606, 43_huffman.md R711: the RLE encoder rejects exactly the inputs with a digit or a
word above 0x10FFFF, the Golomb-Rice and Huffman encoders exactly those with a word above 0x10FFFF, at the lowest such
index, before any output or capacity check. -/
def Obligations.UnsupportedInputLowestIndex : Prop :=
  (∀ (s : List Word) (x : Err), rleEncode s = .error x ↔
    ∃ i, i < s.length ∧ ¬RleSymbol (s.getD i 0#32) ∧ (∀ j, j < i → RleSymbol (s.getD j 0#32)) ∧
      x = ⟨.unsupportedInput, .r1, i⟩) ∧
  (∀ (s : State) (i : Nat), s.rlee.inLen.toNat ≤ capacity s.params .rlee .r1 →
    (ideal .rlee .start s = .error ⟨.unsupportedInput, .r1, i⟩ ↔
      i < s.rlee.inLen.toNat ∧ ¬RleSymbol (s.elemWord .rlee .r1 i) ∧ ∀ j, j < i → RleSymbol (s.elemWord .rlee .r1 j))) ∧
  (∀ (s : State) (i : Nat), s.gre.inLen.toNat ≤ capacity s.params .gre .r1 → 0 < sint32 s.gre.m →
    (ideal .gre .start s = .error ⟨.unsupportedInput, .r1, i⟩ ↔
      i < s.gre.inLen.toNat ∧ 0x10FFFF < (s.elemWord .gre .r1 i).toNat ∧
      ∀ j, j < i → (s.elemWord .gre .r1 j).toNat ≤ 0x10FFFF)) ∧
  ∀ (s : State) (i : Nat), s.hufe.inLen.toNat ≤ capacity s.params .hufe .r1 →
    (ideal .hufe .start s = .error ⟨.unsupportedInput, .r1, i⟩ ↔
      i < s.hufe.inLen.toNat ∧ 0x10FFFF < (s.elemWord .hufe .r1 i).toNat ∧
      ∀ j, j < i → (s.elemWord .hufe .r1 j).toNat ≤ 0x10FFFF)

/-- 41_rle.md R523, R524, R525: where the RLE decoder reports a malformed artifact, and that it reports no other. -/
def Obligations.RleDecoderMalformed : Prop :=
  (∀ (a : List Word) (i : Nat), i < a.length → RleOffends a i → (∀ j, j < i → ¬RleOffends a j) →
    rleDecode a = .error ⟨.malformed, .r1, i⟩) ∧
  (∀ (a : List Word) (start : Nat), (∀ j, j < a.length → ¬RleOffends a j) → start < a.length →
    (∀ j, start ≤ j → j < a.length → RleDigit (a.getD j 0#32)) → (start = 0 ∨ ¬RleDigit (a.getD (start - 1) 0#32)) →
    rleDecode a = .error ⟨.malformed, .r1, start⟩) ∧
  ∀ a : List Word, (∀ j, j < a.length → ¬RleOffends a j) →
    (a = [] ∨ ¬RleDigit (a.getD (a.length - 1) 0#32)) → ∃ rs, rleDecode a = .ok rs

/-- 41_rle.md R521, R522: each group of one or more digits (leading zeros and the value 0 included) and its symbol decodes to
the symbol repeated the counted number of times. -/
def Obligations.RleDecodedRuns : Prop :=
  ∀ rs : List (List Word × Word), (∀ x ∈ rs, x.1 ≠ [] ∧ (∀ d ∈ x.1, RleDigit d) ∧ RleSymbol x.2) →
    ∃ out, rleDecode (rs.flatMap fun x => x.1 ++ [x.2]) = .ok out ∧
      expandRuns out = rs.flatMap (fun x => List.replicate (numeralValue x.1) x.2) ∧
      runsLength out = (rs.map fun x => numeralValue x.1).sum

/-- RLE round trip (41_rle.md, the spec's own inference): a published artifact, moved to the decoder, decodes to the encoder's
input. -/
def Obligations.RleRoundTrip : Prop :=
  ∀ (s t : State) (ws : List Word) (n : Word), s.params.legal = true →
    idealRlee s = .ok ⟨[(.r2, ws)], [(.outLen, n)]⟩ → t.Holds .rled .r1 ws → t.rled.inLen = n →
    ws.length ≤ capacity t.params .rled .r1 → s.rlee.inLen.toNat ≤ capacity t.params .rled .r2 →
    idealRled t = .ok ⟨[(.r2, s.inWords .rlee .r1 s.rlee.inLen.toNat)], [(.outLen, s.rlee.inLen)]⟩

/-! ## Golomb-Rice coding -/

/-- 42_golomb_rice.md R602: clog2(m) is the least k with 2^k ≥ m. -/
def Obligations.GolombRemainderWidth : Prop :=
  (∀ m : Nat, 1 ≤ m → m ≤ 2 ^ clog2 m ∧ ∀ k, m ≤ 2 ^ k → clog2 m ≤ k) ∧
  ∀ row ∈ [(1, 0), (2, 1), (3, 2), (4, 2), (5, 3), (8, 3), (9, 4), (2 ^ 31 - 1, 31)], clog2 row.1 = row.2

/-- 42_golomb_rice.md R600: m ≤ 0 is the first engine-specific error of both engines, a positive m is not that error, and m is
5 after reset. -/
def Obligations.GolombBadParameter : Prop :=
  (∀ s : State, s.gre.inLen.toNat ≤ capacity s.params .gre .r1 →
    (sint32 s.gre.m ≤ 0 ↔ idealGre s = .error ⟨.config, .reg, 0x040⟩)) ∧
  (∀ s : State, s.grd.inLen.toNat ≤ capacity s.params .grd .r1 →
    (sint32 s.grd.m ≤ 0 ↔ idealGrd s = .error ⟨.config, .reg, 0x040⟩)) ∧
  ∀ p : Params, (State.resetWith p).gre.m = 5#32 ∧ (State.resetWith p).grd.m = 5#32

/-- What a valid input's result must fit, engine by engine, in the order its rule lists (42_golomb_rice.md R605, 41_rle.md
R505, 43_huffman.md R713, 44_lzw.md R802, R813, R826, 45_vq_kmeans.md R911): the result's length, the RESOURCE error of a
result that exceeds a capacity or limit, and the publication of one that fits. The bit order inside a Golomb-Rice codeword and
the digit order of an RLE count are stated elsewhere. -/
def Obligations.EncodedLengthsAndLimits : Prop :=
  (∀ (s : State) (xs : List Word), s.gre.inLen.toNat = xs.length → xs.length ≤ capacity s.params .gre .r1 →
    s.inWords .gre .r1 xs.length = xs → (∀ c ∈ xs, c.toNat ≤ 0x10FFFF) → 0 < sint32 s.gre.m →
    (grEncode s.gre.m.toNat xs).length = (xs.map fun c => c.toNat / s.gre.m.toNat + 1 + clog2 s.gre.m.toNat).sum ∧
    (capacity s.params .gre .r2 < (xs.map fun c => c.toNat / s.gre.m.toNat + 1 + clog2 s.gre.m.toNat).sum →
      ideal .gre .start s = .error ⟨.resource, .r2, capacity s.params .gre .r2⟩) ∧
    ((xs.map fun c => c.toNat / s.gre.m.toNat + 1 + clog2 s.gre.m.toNat).sum ≤ capacity s.params .gre .r2 →
      ideal .gre .start s = .ok ⟨[(.r2, packBits (grEncode s.gre.m.toNat xs))],
        [(.outLen, toWord (grEncode s.gre.m.toNat xs).length)]⟩)) ∧
  (∀ (s : State) (xs : List Word), s.rlee.inLen.toNat = xs.length → xs.length ≤ capacity s.params .rlee .r1 →
    s.inWords .rlee .r1 xs.length = xs → (∀ c ∈ xs, RleSymbol c) → ∃ out, rleEncode xs = .ok out ∧
    out.length = ((runs xs).map fun x => (Nat.digits 10 x.1).length + 1).sum ∧
    (capacity s.params .rlee .r2 < out.length →
      ideal .rlee .start s = .error ⟨.resource, .r2, capacity s.params .rlee .r2⟩) ∧
    (out.length ≤ capacity s.params .rlee .r2 →
      ideal .rlee .start s = .ok ⟨[(.r2, out)], [(.outLen, toWord out.length)]⟩)) ∧
  (∀ (s : State) (xs : List Word) (t : List (Word × Nat)) (out : List Bool), s.hufe.inLen.toNat = xs.length →
    xs.length ≤ capacity s.params .hufe .r1 → s.inWords .hufe .r1 xs.length = xs → (∀ c ∈ xs, c.toNat ≤ 0x10FFFF) →
    t = freqTable xs → out = hufEncode t xs →
    (∀ root, buildTree t = some root → out.length = (t.map fun x => x.2 * (codeOf (codeTable root) x.1).length).sum) ∧
    (capacity s.params .hufe .r3 < t.length →
      ideal .hufe .start s = .error ⟨.resource, .r3, capacity s.params .hufe .r3⟩) ∧
    (t.length ≤ capacity s.params .hufe .r3 → capacity s.params .hufe .r2 < out.length →
      ideal .hufe .start s = .error ⟨.resource, .r2, capacity s.params .hufe .r2⟩) ∧
    (t.length ≤ capacity s.params .hufe .r3 → out.length ≤ capacity s.params .hufe .r2 →
      ideal .hufe .start s = .ok ⟨[(.r2, packBits out), (.r3, packEntries t)],
        [(.outLen, toWord out.length), (.auxLen, toWord t.length)]⟩)) ∧
  (∀ (s : State) (xs : List Byte) (codes : List Nat) (dict : List (List Byte)), s.lzwe.inLen.toNat = xs.length →
    xs.length ≤ capacity s.params .lzwe .r1 → s.inBytes .lzwe .r1 xs.length = xs → lzwEncode xs = (codes, dict) →
    codes.length ≤ xs.length ∧
    (s.params.lzwDictCap < 256 + dict.length →
      ideal .lzwe .start s = .error ⟨.resource, .dict, s.params.lzwDictCap⟩) ∧
    (256 + dict.length ≤ s.params.lzwDictCap → (∀ c ∈ codes, c < s.params.lzwDictCap) ∧
      (capacity s.params .lzwe .r2 < codes.length →
        ideal .lzwe .start s = .error ⟨.resource, .r2, capacity s.params .lzwe .r2⟩) ∧
      (codes.length ≤ capacity s.params .lzwe .r2 →
        ideal .lzwe .start s = .ok ⟨[(.r2, codes.map toWord)],
          [(.outLen, toWord codes.length), (.lzwNextCode, toWord (256 + dict.length))]⟩))) ∧
  (∀ (s : State) (codes : List Nat), s.lzwd.inLen.toNat ≤ capacity s.params .lzwd .r1 →
    codes = (s.inWords .lzwd .r1 s.lzwd.inLen.toNat).map BitVec.toNat →
    (∀ x, lzwDecode codes = .error x → ideal .lzwd .start s = .error x) ∧
    ∀ (out : List Byte) (dict : List (List Byte)), lzwDecode codes = .ok (out, dict) →
      (s.params.lzwDictCap < 256 + dict.length →
        ideal .lzwd .start s = .error ⟨.resource, .dict, s.params.lzwDictCap⟩) ∧
      (256 + dict.length ≤ s.params.lzwDictCap → (∀ c ∈ codes, c < s.params.lzwDictCap) ∧
        (capacity s.params .lzwd .r2 < out.length →
          ideal .lzwd .start s = .error ⟨.resource, .r2, capacity s.params .lzwd .r2⟩) ∧
        (out.length ≤ capacity s.params .lzwd .r2 →
          ideal .lzwd .start s = .ok ⟨[(.r2, packBytes out)],
            [(.outLen, toWord out.length), (.lzwNextCode, toWord (256 + dict.length))]⟩))) ∧
  (∀ p : Params, p.legal = true → p.lzwDictCap ≤ 2 ^ 31) ∧
  ∀ (s : State) (n k d : Nat), vqConfigError s true = none → n = (vqEncGeom s).n → k = vqK s (vqEncGeom s) →
    d = (vqEncGeom s).d →
    (∀ x, vqInitial s n k = .error x → ideal .vq .start s = .error x) ∧
    ∀ idx, vqInitial s n k = .ok idx →
      (s.params.vqMaxBlocks < n → ideal .vq .start s = .error ⟨.resource, .internal, s.params.vqMaxBlocks⟩) ∧
      (n ≤ s.params.vqMaxBlocks →
        (capacity s.params .vq .r2 < k * d →
          ideal .vq .start s = .error ⟨.resource, .r2, capacity s.params .vq .r2⟩) ∧
        (k * d ≤ capacity s.params .vq .r2 →
          (capacity s.params .vq .r3 < n →
            ideal .vq .start s = .error ⟨.resource, .r3, capacity s.params .vq .r3⟩) ∧
          (n ≤ capacity s.params .vq .r3 → ∃ o, ideal .vq .start s = .ok o)))

/-- Golomb-Rice codewords (42_golomb_rice.md, golomb_rice_encoder and golomb_rice_decoder; 30_encoding.md, Artifact and stream
formats). A codeword is q ones, a zero and the remainder, most significant bit first: bit t of the k-bit field is bit k − 1 − t
of r (that order is the spec's from general knowledge, log 16). The encoder writes v div m and v mod m so. The decoder reads
any codewords (a remainder field may hold a value of m or more) as q · m + r; an unterminated unary run, a cut remainder field
and a value above 0x10FFFF after them are malformed at the codeword's first bit. -/
def Obligations.GolombStreamDecoding : Prop :=
  (∀ m q r : Nat, (grWord m q r).length = q + 1 + clog2 m ∧ (∀ i, i < q → (grWord m q r)[i]? = some true) ∧
    (grWord m q r)[q]? = some false ∧
    ∀ t, t < clog2 m → (grWord m q r)[q + 1 + t]? = some (r.testBit (clog2 m - 1 - t))) ∧
  (∀ (m : Nat) (s : List Word), grEncode m s = s.flatMap fun c => grWord m (c.toNat / m) (c.toNat % m)) ∧
  ∀ (m : Nat) (vs : List (Nat × Nat)), 1 ≤ m → (∀ x ∈ vs, x.2 < 2 ^ clog2 m ∧ x.1 * m + x.2 ≤ 0x10FFFF) →
    grDecode m (vs.flatMap fun x => grWord m x.1 x.2) = .ok (vs.map fun x => toWord (x.1 * m + x.2)) ∧
    (∀ q, 1 ≤ q → grDecode m ((vs.flatMap fun x => grWord m x.1 x.2) ++ List.replicate q true) =
      .error ⟨.malformed, .r1, (vs.flatMap fun x => grWord m x.1 x.2).length⟩) ∧
    (∀ (q : Nat) (l : List Bool), l.length < clog2 m →
      grDecode m ((vs.flatMap fun x => grWord m x.1 x.2) ++ (List.replicate q true ++ [false] ++ l)) =
        .error ⟨.malformed, .r1, (vs.flatMap fun x => grWord m x.1 x.2).length⟩) ∧
    ∀ (q r : Nat) (l : List Bool), r < 2 ^ clog2 m → 0x10FFFF < q * m + r →
      grDecode m ((vs.flatMap fun x => grWord m x.1 x.2) ++ (grWord m q r ++ l)) =
        .error ⟨.malformed, .r1, (vs.flatMap fun x => grWord m x.1 x.2).length⟩

/-- Golomb-Rice round trip (42_golomb_rice.md, the spec's own inference): a published bitstream, moved to the decoder with the
same m, decodes to the encoder's input. -/
def Obligations.GolombRoundTrip : Prop :=
  ∀ (s t : State) (ws : List Word) (n : Word), s.params.legal = true →
    idealGre s = .ok ⟨[(.r2, ws)], [(.outLen, n)]⟩ → t.Holds .grd .r1 ws → t.grd.inLen = n → t.grd.m = s.gre.m →
    n.toNat ≤ capacity t.params .grd .r1 → s.gre.inLen.toNat ≤ capacity t.params .grd .r2 →
    idealGrd t = .ok ⟨[(.r2, s.inWords .gre .r1 s.gre.inLen.toNat)], [(.outLen, s.gre.inLen)]⟩

/-! ## Huffman coding -/

/-- 43_huffman.md R700: the frequency table lists each distinct symbol once, in order of first occurrence, with its number of
occurrences. -/
def Obligations.HuffmanFrequencyTable : Prop :=
  ∀ s : List Word, ((freqTable s).map Prod.fst).Nodup ∧ (∀ c : Word, c ∈ (freqTable s).map Prod.fst ↔ c ∈ s) ∧
    (∀ x ∈ freqTable s, x.2 = s.count x.1) ∧ (freqTable s).Pairwise fun x y => s.idxOf x.1 < s.idxOf y.1

/-- 43_huffman.md R721: the first table entry with a symbol above 0x10FFFF or equal to an earlier one is a malformed artifact,
whatever the bitstream; a table without one is never reported. -/
def Obligations.HuffmanTableChecked : Prop :=
  ∀ (t : List (Word × Nat)) (b : List Bool) (j : Nat),
    (hufDecode t b = .error ⟨.malformed, .r3, j⟩ ↔
      j < t.length ∧
      (0x10FFFF < (t.getD j (0#32, 0)).1.toNat ∨ ∃ i, i < j ∧ (t.getD i (0#32, 0)).1 = (t.getD j (0#32, 0)).1) ∧
      ∀ k, k < j → (t.getD k (0#32, 0)).1.toNat ≤ 0x10FFFF ∧
        ∀ i, i < k → (t.getD i (0#32, 0)).1 ≠ (t.getD k (0#32, 0)).1)

/-- 43_huffman.md R722, R723, R725: the empty table decodes only the empty bitstream; a one-entry table decodes each 0 bit to
its symbol and reports the first 1 bit; under two or more entries every bitstream is codewords and then nothing, which decodes
to their symbols, or a proper part of one more codeword, which is malformed at that part's first bit. -/
def Obligations.HuffmanDecoderBitstreams : Prop :=
  hufDecode [] [] = .ok [] ∧ (∀ b : List Bool, b ≠ [] → hufDecode [] b = .error ⟨.malformed, .r1, 0⟩) ∧
  (∀ (sym : Word) (cnt n : Nat), sym.toNat ≤ 0x10FFFF →
    hufDecode [(sym, cnt)] (List.replicate n false) = .ok (List.replicate n sym)) ∧
  (∀ (sym : Word) (cnt n : Nat) (b : List Bool), sym.toNat ≤ 0x10FFFF →
    hufDecode [(sym, cnt)] (List.replicate n false ++ (true :: b)) = .error ⟨.malformed, .r1, n⟩) ∧
  ∀ (t : List (Word × Nat)) (root : HufTree), 2 ≤ t.length → (t.map Prod.fst).Nodup →
    (∀ c ∈ t.map Prod.fst, c.toNat ≤ 0x10FFFF) → buildTree t = some root →
    (∀ syms : List Word, (∀ c ∈ syms, c ∈ t.map Prod.fst) →
      hufDecode t (syms.flatMap (codeOf (codeTable root))) = .ok syms ∧
      ∀ c ∈ t.map Prod.fst, ∀ p : List Bool, p ≠ [] → p <+: codeOf (codeTable root) c → p ≠ codeOf (codeTable root) c →
        hufDecode t (syms.flatMap (codeOf (codeTable root)) ++ p) =
          .error ⟨.malformed, .r1, (syms.flatMap (codeOf (codeTable root))).length⟩) ∧
    ∀ b : List Bool, ∃ (syms : List Word) (p : List Bool), (∀ c ∈ syms, c ∈ t.map Prod.fst) ∧
      b = syms.flatMap (codeOf (codeTable root)) ++ p ∧
      ∃ c ∈ t.map Prod.fst, p <+: codeOf (codeTable root) c ∧ p ≠ codeOf (codeTable root) c

/-- 43_huffman.md R701, R703, R704: the tree of a table is the one that merging the two nodes of least key (weight, seq) gives,
the least as left and the next as right child, until one node is left; a symbol's code is its path from the root, 0 for left
and 1 for right (the single bit 0 in a one-leaf tree), of at least one bit, and no symbol's code is a prefix of another's. -/
def Obligations.HuffmanTreeAndCodes : Prop :=
  buildTree [] = none ∧
  ∀ t : List (Word × Nat), t ≠ [] → ∃ root, buildTree t = some root ∧
    (∀ r : HufTree, HufBuilds t.length (hufLeaves t) r ↔ r = root) ∧
    ((t.map Prod.fst).Nodup →
      (∀ sym, root = .leaf sym → codeOf (codeTable root) sym = [false]) ∧
      (∀ l r, root = .node l r → ∀ c ∈ t.map Prod.fst, HufPath root (codeOf (codeTable root) c) c) ∧
      (∀ c ∈ t.map Prod.fst, codeOf (codeTable root) c ≠ []) ∧
      ∀ c ∈ t.map Prod.fst, ∀ d ∈ t.map Prod.fst, codeOf (codeTable root) c <+: codeOf (codeTable root) d → c = d)

/-- Huffman round trip (43_huffman.md, Properties, the spec's own inference): a published bitstream and table, moved to the
decoder unchanged, decode to the encoder's input; one distinct symbol and the empty input included. -/
def Obligations.HuffmanRoundTrip : Prop :=
  ∀ (s t : State) (bits table : List Word) (n l : Word), s.params.legal = true →
    idealHufe s = .ok ⟨[(.r2, bits), (.r3, table)], [(.outLen, n), (.auxLen, l)]⟩ → t.Holds .hufd .r1 bits →
    t.Holds .hufd .r3 table → t.hufd.inLen = n → t.hufd.auxLen = l → n.toNat ≤ capacity t.params .hufd .r1 →
    l.toNat ≤ capacity t.params .hufd .r3 → s.hufe.inLen.toNat ≤ capacity t.params .hufd .r2 →
    idealHufd t = .ok ⟨[(.r2, s.inWords .hufe .r1 s.hufe.inLen.toNat)], [(.outLen, s.hufe.inLen)]⟩

/-! ## LZW coding -/

/-- The LZW decoder's only malformed artifact (44_lzw.md, lzw_decoder; partly the spec's own inference): the first code i above
255 + i; the first code must be a seed. -/
def Obligations.LzwFirstUnknownCode : Prop :=
  (∀ (c : List Nat) (i : Nat), lzwDecode c = .error ⟨.malformed, .r1, i⟩ ↔
    i < c.length ∧ 255 + i < c.getD i 0 ∧ ∀ j, j < i → c.getD j 0 ≤ 255 + j) ∧
  ∀ c : List Nat, (∀ j, j < c.length → c.getD j 0 ≤ 255 + j) → ∃ res, lzwDecode c = .ok res

/-- The codes of an LZW encode (44_lzw.md, lzw_encoder; the counts are the spec's own inference). The input is cut into E
non-empty phrases, one code each. Phrase i is in the dictionary the phrases before it made, under the code emitted for it;
phrase i extended by the next input byte is not, and is the entry created then, with code 256 + i. So E codes make E − 1
entries, E ≤ n, and E < n exactly when some code is 256 or more; the empty input makes none. -/
def Obligations.LzwGreedyCodes : Prop :=
  lzwEncode [] = ([], []) ∧
  ∀ (x : List Byte) (codes : List Nat) (dict : List (List Byte)), x ≠ [] → lzwEncode x = (codes, dict) →
    (∃ ps : List (List Byte), ps.flatten = x ∧ (∀ p ∈ ps, p ≠ []) ∧ ps.length = codes.length ∧
      dict.length + 1 = ps.length ∧
      (∀ i, i < ps.length → lzwEntry (dict.take i) (codes.getD i 0) = some (ps.getD i [])) ∧
      ∀ i, i + 1 < ps.length →
        dict[i]? = some (ps.getD i [] ++ (ps.getD (i + 1) []).take 1) ∧
        ∀ c, lzwEntry (dict.take i) c ≠ some (ps.getD i [] ++ (ps.getD (i + 1) []).take 1)) ∧
    256 + dict.length = 255 + codes.length ∧ codes.length ≤ x.length ∧
    (codes.length < x.length ↔ ∃ c ∈ codes, 256 ≤ c)

/-- LZW round trip (44_lzw.md, Properties, the spec's own inference): published codes, moved to the decoder, decode to the
encoder's bytes, and both engines publish the same LZW_NEXT_CODE. -/
def Obligations.LzwRoundTrip : Prop :=
  ∀ (s t : State) (ws : List Word) (n next : Word), s.params.legal = true →
    idealLzwe s = .ok ⟨[(.r2, ws)], [(.outLen, n), (.lzwNextCode, next)]⟩ → t.Holds .lzwd .r1 ws → t.lzwd.inLen = n →
    n.toNat ≤ capacity t.params .lzwd .r1 → next.toNat ≤ t.params.lzwDictCap →
    s.lzwe.inLen.toNat ≤ capacity t.params .lzwd .r2 →
    idealLzwd t = .ok ⟨[(.r2, packBytes (s.inBytes .lzwe .r1 s.lzwe.inLen.toNat))],
      [(.outLen, s.lzwe.inLen), (.lzwNextCode, next)]⟩

/-! ## Vector quantization -/

/-- The nearest centroid (45_vq_kmeans.md, Shared definitions; the tie rule is the spec's from general knowledge): no centroid
is nearer, and every centroid before it is strictly farther. -/
def Obligations.VqNearestCentroid : Prop :=
  ∀ (v : List Nat) (mus : List (List ℚ)), mus ≠ [] → nearest v mus < mus.length ∧
    (∀ j, j < mus.length → dist2 v (mus.getD (nearest v mus) []) ≤ dist2 v (mus.getD j [])) ∧
    ∀ j, j < nearest v mus → dist2 v (mus.getD (nearest v mus) []) < dist2 v (mus.getD j [])

/-- 45_vq_kmeans.md R907: the update gives a centroid without members its old value, and one with members their exact mean. -/
def Obligations.VqCentroidUpdate : Prop :=
  ∀ (d : Nat) (vs : List (List Nat)) (a : List Nat) (mus : List (List ℚ)) (j : Nat), a.length = vs.length →
    j < mus.length →
    ((∀ i, i < a.length → a.getD i 0 ≠ j) → (updateAll d vs a mus).getD j [] = mus.getD j []) ∧
    ((∃ i, i < a.length ∧ a.getD i 0 = j) → ((updateAll d vs a mus).getD j []).length = d ∧ ∀ e, e < d →
      ((updateAll d vs a mus).getD j []).getD e 0 *
          ((((List.range a.length).filter fun i => a.getD i 0 = j).length : Nat) : ℚ) =
        (((((List.range a.length).filter fun i => a.getD i 0 = j).map fun i => (vs.getD i []).getD e 0).sum : Nat) : ℚ))

/-- 45_vq_kmeans.md R908: the number of iterations is at most the cap, the result is that many assign-and-update iterations of
the start, every iteration before the last changed some centroid (the loop stops at the first that changes none), and fewer
than the cap ran only if the last one changed nothing. -/
def Obligations.VqIterations : Prop :=
  ∀ (d : Nat) (vs : List (List Nat)) (cap : Nat) (mus : List (List ℚ)),
    (kmeansLoop d vs cap mus).2 ≤ cap ∧
    (kmeansLoop d vs cap mus).1 = (fun m => updateAll d vs (assignAll vs m) m)^[(kmeansLoop d vs cap mus).2] mus ∧
    (∀ i, i + 1 < (kmeansLoop d vs cap mus).2 →
      (fun m => updateAll d vs (assignAll vs m) m)^[i + 1] mus ≠ (fun m => updateAll d vs (assignAll vs m) m)^[i] mus) ∧
    ((kmeansLoop d vs cap mus).2 < cap → 1 ≤ (kmeansLoop d vs cap mus).2 ∧
      (fun m => updateAll d vs (assignAll vs m) m)^[(kmeansLoop d vs cap mus).2 - 1] mus = (kmeansLoop d vs cap mus).1)

/-- 45_vq_kmeans.md R904, R909: k = min(L, N) and k ≤ N; rounding is floor((2S + n) / (2n)); the assignments of an encode are one
more assignment pass against the final centroids, the codebook is those centroids rounded, every element of it is a byte, and
these and k are what START_ENC publishes. -/
def Obligations.VqCodebookAndAssignments : Prop :=
  (∀ S n : Nat, 1 ≤ n → roundHalfUp ((S : ℚ) / (n : ℚ)) = (2 * S + n) / (2 * n)) ∧
  (∀ (g : VqGeom) (cap : Nat) (vs : List (List Nat)) (idx : List Nat), idx ≠ [] →
    ∀ fin, fin = kmeansLoop g.d vs cap (idx.map fun j => (vs.getD j []).map fun x => (x : ℚ)) →
    (vqEncode g cap vs idx).codebook = fin.1.map (fun mu => mu.map roundHalfUp) ∧
    (vqEncode g cap vs idx).assignments = vs.map (fun v => nearest v fin.1) ∧ (vqEncode g cap vs idx).iters = fin.2) ∧
  (∀ (g : VqGeom) (cap : Nat) (raster : List Byte) (idx : List Nat), (∀ i ∈ idx, i < g.n) →
    ∀ cb ∈ (vqEncode g cap (blockVectors g raster) idx).codebook, cb.length = g.d ∧ ∀ x ∈ cb, x ≤ 255) ∧
  ∀ (s : State) (o : Outputs) (b k n : Nat), idealVqEnc s = .ok o → b = s.vq.bs.toNat →
    n = s.vq.h.toNat / b * (s.vq.w.toNat / b) → k = min s.vq.levels.toNat n →
    k ≤ n ∧ ∃ (idx : List Nat) (res : VqResult), vqInitial s n k = .ok idx ∧ idx.length = k ∧ (∀ i ∈ idx, i < n) ∧
      res = vqEncode (vqEncGeom s) s.vq.maxIter.toNat
        (blockVectors (vqEncGeom s) (s.inBytes .vq .r1 (s.vq.h.toNat * s.vq.w.toNat * s.vq.c.toNat))) idx ∧
      res.codebook.length = k ∧ res.assignments.length = n ∧
      o.words = [(.r2, packBytes (res.codebook.flatten.map (BitVec.ofNat 8))), (.r3, res.assignments.map toWord)] ∧
      (Reg.vqK, toWord k) ∈ o.regs ∧ (Reg.vqNblk, toWord n) ∈ o.regs ∧ (Reg.vqIters, toWord res.iters) ∈ o.regs

/-- Initial centroids (45_vq_kmeans.md, START_ENC): host-supplied indices are checked in order and used as they are; the engine's own draw is injective
and below N for every choice, and every injective sequence is the draw of some choice (log 6). -/
def Obligations.VqInitialIndices : Prop :=
  (∀ (s : State) (n k : Nat), s.vq.initSrc = false → capacity s.params .vq .r4 < k →
    vqInitial s n k = .error ⟨.config, .r4, capacity s.params .vq .r4⟩) ∧
  (∀ (s : State) (n k : Nat) (idx : List Nat), s.vq.initSrc = false → k ≤ capacity s.params .vq .r4 →
    (s.inWords .vq .r4 k).map BitVec.toNat = idx →
    (∀ j, j < k → (n ≤ idx.getD j 0 ∨ ∃ i, i < j ∧ idx.getD i 0 = idx.getD j 0) →
      (∀ i, i < j → idx.getD i 0 < n ∧ ∀ h, h < i → idx.getD h 0 ≠ idx.getD i 0) →
      vqInitial s n k = .error ⟨.config, .r4, j⟩) ∧
    (idx.Nodup → (∀ i ∈ idx, i < n) → vqInitial s n k = .ok idx)) ∧
  (∀ (s : State) (n k : Nat), s.vq.initSrc = true → k ≤ n → ∃ idx, vqInitial s n k = .ok idx ∧ idx.length = k ∧
    idx.Nodup ∧ ∀ i ∈ idx, i < n) ∧
  ∀ (n : Nat) (idx : List Nat), idx.Nodup → (∀ i ∈ idx, i < n) →
    ∃ choice : Nat → Nat, drawIndices choice idx.length (List.range n) = idx

/-- 45_vq_kmeans.md R901, R921: the configuration and shape checks of START_ENC and START_DEC, in their order. -/
def Obligations.VqConfigurationChecks : Prop :=
  ∀ s : State,
    (¬(s.vq.c = 1#32 ∨ s.vq.c = 3#32) →
      idealVqEnc s = .error ⟨.config, .reg, 0x054⟩ ∧ idealVqDec s = .error ⟨.config, .reg, 0x054⟩) ∧
    ((s.vq.c = 1#32 ∨ s.vq.c = 3#32) →
      (sint32 s.vq.levels ≤ 0 → idealVqEnc s = .error ⟨.config, .reg, 0x040⟩) ∧
      ((sint32 s.vq.bs < 1 ∨ (s.params.vqMaxBs : Int) < sint32 s.vq.bs) →
        (0 < sint32 s.vq.levels → idealVqEnc s = .error ⟨.config, .reg, 0x044⟩) ∧
        idealVqDec s = .error ⟨.config, .reg, 0x044⟩) ∧
      (¬(sint32 s.vq.bs < 1 ∨ (s.params.vqMaxBs : Int) < sint32 s.vq.bs) →
        capacity s.params .vq .r1 < s.vq.h.toNat * s.vq.w.toNat * s.vq.c.toNat →
        (0 < sint32 s.vq.levels → idealVqEnc s = .error ⟨.config, .reg, 0x04C⟩) ∧
        idealVqDec s = .error ⟨.config, .reg, 0x04C⟩) ∧
      (¬(sint32 s.vq.bs < 1 ∨ (s.params.vqMaxBs : Int) < sint32 s.vq.bs) →
        s.vq.h.toNat * s.vq.w.toNat * s.vq.c.toNat ≤ capacity s.params .vq .r1 →
        ((s.vq.h.toNat < s.vq.th.toNat ∨ s.vq.th.toNat % s.vq.bs.toNat ≠ 0) →
          idealVqDec s = .error ⟨.malformed, .reg, 0x05C⟩) ∧
        (s.vq.th.toNat ≤ s.vq.h.toNat → s.vq.th.toNat % s.vq.bs.toNat = 0 →
          ((s.vq.w.toNat < s.vq.tw.toNat ∨ s.vq.tw.toNat % s.vq.bs.toNat ≠ 0) →
            idealVqDec s = .error ⟨.malformed, .reg, 0x060⟩) ∧
          (s.vq.tw.toNat ≤ s.vq.w.toNat → s.vq.tw.toNat % s.vq.bs.toNat = 0 → ∀ n,
            n = s.vq.th.toNat / s.vq.bs.toNat * (s.vq.tw.toNat / s.vq.bs.toNat) →
            (capacity s.params .vq .r3 < n → idealVqDec s = .error ⟨.config, .r3, capacity s.params .vq .r3⟩) ∧
            (n ≤ capacity s.params .vq .r3 → ∀ d, d = s.vq.bs.toNat * s.vq.bs.toNat * s.vq.c.toNat →
              (capacity s.params .vq .r2 < s.vq.k.toNat * d → idealVqDec s = .error ⟨.config, .reg, 0x064⟩) ∧
              (s.vq.k.toNat * d ≤ capacity s.params .vq .r2 →
                (∀ i, i < n → s.vq.k.toNat ≤ (s.elemWord .vq .r3 i).toNat →
                  (∀ j, j < i → (s.elemWord .vq .r3 j).toNat < s.vq.k.toNat) →
                  idealVqDec s = .error ⟨.malformed, .r3, i⟩) ∧
                ((∀ i, i < n → (s.elemWord .vq .r3 i).toNat < s.vq.k.toNat) → ∃ o, idealVqDec s = .ok o)))))))

/-- Encode, then decode (45_vq_kmeans.md, Properties, the spec's own inference): START_ENC publishes VQ_NBLK assignments, each
below VQ_K; START_DEC on the registers and regions it leaves passes every check and writes a raster of the original size, zero
outside the trimmed region, whose squared difference from the original over the trimmed region is VQ_SSE. -/
def Obligations.VqEncodeThenDecode : Prop :=
  ∀ (s t : State) (o : Outputs), s.params.legal = true → idealVqEnc s = .ok o → t.params = s.params →
    (∀ r ∈ [Reg.vqH, .vqW, .vqC, .vqBs], t.getReg .vq r = s.getReg .vq r) → (∀ x ∈ o.regs, t.getReg .vq x.1 = x.2) →
    (∀ x ∈ o.words, t.Holds .vq x.1 x.2) →
    (∀ ws : List Word, (Region.r3, ws) ∈ o.words → ws.length = t.vq.nblk.toNat ∧ ∀ w ∈ ws, w.toNat < t.vq.k.toNat) ∧
    ∃ raster : List Byte, idealVqDec t = .ok ⟨[(.r1, packBytes raster)], [(.vqNblk, t.vq.nblk)]⟩ ∧
      raster.length = s.vq.h.toNat * s.vq.w.toNat * s.vq.c.toNat ∧
      (∀ y x c, y < s.vq.h.toNat → x < s.vq.w.toNat → c < s.vq.c.toNat → (t.vq.th.toNat ≤ y ∨ t.vq.tw.toNat ≤ x) →
        raster.getD ((y * s.vq.w.toNat + x) * s.vq.c.toNat + c) 0#8 = 0#8) ∧
      trimmedError (vqEncGeom s) (s.inBytes .vq .r1 raster.length) raster =
        t.vq.sseHi.toNat * 2 ^ 32 + t.vq.sseLo.toNat

end
end

