-- ==== Sys2Proof/Laws/State.lean ====
section
/-! SUPPORT. One lemma per field per update of the state, and the laws of `PerEngine`, `getReg` and `setReg`. -/
namespace Sys2Proof

theorem Eng.mem_all (e : Eng) : e ∈ Eng.all := by cases e <;> decide

@[simp] theorem PerEngine.get_set_same {α : Type} (p : PerEngine α) (e : Eng) (x : α) : (p.set e x).get e = x := by
  cases e <;> rfl

theorem PerEngine.get_set_ne {α : Type} (p : PerEngine α) {e e' : Eng} (x : α) (h : e' ≠ e) :
    (p.set e x).get e' = p.get e' := by
  cases e <;> cases e' <;> first | rfl | exact absurd rfl h

theorem PerEngine.get_set {α : Type} (p : PerEngine α) (e e' : Eng) (x : α) :
    (p.set e x).get e' = if e' = e then x else p.get e' := by
  split
  · next h => subst h; simp
  · next h => exact p.get_set_ne x h

theorem engOfId_id (e : Eng) : engOfId e.id = some e := by cases e <;> rfl

theorem Eng.id_inj {e e' : Eng} (h : e.id = e'.id) : e = e' := by
  have := congrArg engOfId h
  rwa [engOfId_id, engOfId_id, Option.some.injEq] at this

theorem Eng.id_le (e : Eng) : e.id ≤ 8 := by cases e <;> decide

end Sys2Proof

namespace Sys2Proof.Machine

@[simp] theorem State.setCtl_params (s : State) (e : Eng) (c : Ctl) : (s.setCtl e c).params = s.params := rfl
@[simp] theorem State.setCtl_rlee (s : State) (e : Eng) (c : Ctl) : (s.setCtl e c).rlee = s.rlee := rfl
@[simp] theorem State.setCtl_rled (s : State) (e : Eng) (c : Ctl) : (s.setCtl e c).rled = s.rled := rfl
@[simp] theorem State.setCtl_gre (s : State) (e : Eng) (c : Ctl) : (s.setCtl e c).gre = s.gre := rfl
@[simp] theorem State.setCtl_grd (s : State) (e : Eng) (c : Ctl) : (s.setCtl e c).grd = s.grd := rfl
@[simp] theorem State.setCtl_hufe (s : State) (e : Eng) (c : Ctl) : (s.setCtl e c).hufe = s.hufe := rfl
@[simp] theorem State.setCtl_hufd (s : State) (e : Eng) (c : Ctl) : (s.setCtl e c).hufd = s.hufd := rfl
@[simp] theorem State.setCtl_lzwe (s : State) (e : Eng) (c : Ctl) : (s.setCtl e c).lzwe = s.lzwe := rfl
@[simp] theorem State.setCtl_lzwd (s : State) (e : Eng) (c : Ctl) : (s.setCtl e c).lzwd = s.lzwd := rfl
@[simp] theorem State.setCtl_vq (s : State) (e : Eng) (c : Ctl) : (s.setCtl e c).vq = s.vq := rfl
@[simp] theorem State.setCtl_mem (s : State) (e : Eng) (c : Ctl) : (s.setCtl e c).mem = s.mem := rfl
@[simp] theorem State.setCtl_inbox (s : State) (e : Eng) (c : Ctl) : (s.setCtl e c).inbox = s.inbox := rfl
@[simp] theorem State.setCtl_port (s : State) (e : Eng) (c : Ctl) : (s.setCtl e c).port = s.port := rfl
@[simp] theorem State.setCtl_draws (s : State) (e : Eng) (c : Ctl) : (s.setCtl e c).draws = s.draws := rfl

@[simp] theorem State.setCtl_ctl (s : State) (e : Eng) (c : Ctl) : (s.setCtl e c).ctl = s.ctl.set e c := rfl

@[simp] theorem State.setMem_params (s : State) (m : Memory) : (s.setMem m).params = s.params := rfl
@[simp] theorem State.setMem_ctl (s : State) (m : Memory) : (s.setMem m).ctl = s.ctl := rfl
@[simp] theorem State.setMem_rlee (s : State) (m : Memory) : (s.setMem m).rlee = s.rlee := rfl
@[simp] theorem State.setMem_rled (s : State) (m : Memory) : (s.setMem m).rled = s.rled := rfl
@[simp] theorem State.setMem_gre (s : State) (m : Memory) : (s.setMem m).gre = s.gre := rfl
@[simp] theorem State.setMem_grd (s : State) (m : Memory) : (s.setMem m).grd = s.grd := rfl
@[simp] theorem State.setMem_hufe (s : State) (m : Memory) : (s.setMem m).hufe = s.hufe := rfl
@[simp] theorem State.setMem_hufd (s : State) (m : Memory) : (s.setMem m).hufd = s.hufd := rfl
@[simp] theorem State.setMem_lzwe (s : State) (m : Memory) : (s.setMem m).lzwe = s.lzwe := rfl
@[simp] theorem State.setMem_lzwd (s : State) (m : Memory) : (s.setMem m).lzwd = s.lzwd := rfl
@[simp] theorem State.setMem_vq (s : State) (m : Memory) : (s.setMem m).vq = s.vq := rfl
@[simp] theorem State.setMem_inbox (s : State) (m : Memory) : (s.setMem m).inbox = s.inbox := rfl
@[simp] theorem State.setMem_port (s : State) (m : Memory) : (s.setMem m).port = s.port := rfl
@[simp] theorem State.setMem_draws (s : State) (m : Memory) : (s.setMem m).draws = s.draws := rfl

@[simp] theorem State.setMem_mem (s : State) (m : Memory) : (s.setMem m).mem = m := rfl

@[simp] theorem State.drew_params (s : State) : (s.drew).params = s.params := rfl
@[simp] theorem State.drew_ctl (s : State) : (s.drew).ctl = s.ctl := rfl
@[simp] theorem State.drew_rlee (s : State) : (s.drew).rlee = s.rlee := rfl
@[simp] theorem State.drew_rled (s : State) : (s.drew).rled = s.rled := rfl
@[simp] theorem State.drew_gre (s : State) : (s.drew).gre = s.gre := rfl
@[simp] theorem State.drew_grd (s : State) : (s.drew).grd = s.grd := rfl
@[simp] theorem State.drew_hufe (s : State) : (s.drew).hufe = s.hufe := rfl
@[simp] theorem State.drew_hufd (s : State) : (s.drew).hufd = s.hufd := rfl
@[simp] theorem State.drew_lzwe (s : State) : (s.drew).lzwe = s.lzwe := rfl
@[simp] theorem State.drew_lzwd (s : State) : (s.drew).lzwd = s.lzwd := rfl
@[simp] theorem State.drew_vq (s : State) : (s.drew).vq = s.vq := rfl
@[simp] theorem State.drew_mem (s : State) : (s.drew).mem = s.mem := rfl
@[simp] theorem State.drew_inbox (s : State) : (s.drew).inbox = s.inbox := rfl
@[simp] theorem State.drew_port (s : State) : (s.drew).port = s.port := rfl

@[simp] theorem State.drew_draws (s : State) : s.drew.draws = s.draws + 1 := rfl

@[simp] theorem State.setReg_params (s : State) (e : Eng) (r : Reg) (v : Word) : (s.setReg e r v).params = s.params := by cases e <;> rfl
@[simp] theorem State.setReg_ctl (s : State) (e : Eng) (r : Reg) (v : Word) : (s.setReg e r v).ctl = s.ctl := by cases e <;> rfl
@[simp] theorem State.setReg_mem (s : State) (e : Eng) (r : Reg) (v : Word) : (s.setReg e r v).mem = s.mem := by cases e <;> rfl
@[simp] theorem State.setReg_inbox (s : State) (e : Eng) (r : Reg) (v : Word) : (s.setReg e r v).inbox = s.inbox := by cases e <;> rfl
@[simp] theorem State.setReg_port (s : State) (e : Eng) (r : Reg) (v : Word) : (s.setReg e r v).port = s.port := by cases e <;> rfl
@[simp] theorem State.setReg_draws (s : State) (e : Eng) (r : Reg) (v : Word) : (s.setReg e r v).draws = s.draws := by cases e <;> rfl

@[simp] theorem State.setRegs_params (s : State) (e : Eng) (l : List (Reg × Word)) : (s.setRegs e l).params = s.params := by
  induction l generalizing s with
  | nil => rfl
  | cons p l ih => simp [State.setRegs, ih]
@[simp] theorem State.setRegs_ctl (s : State) (e : Eng) (l : List (Reg × Word)) : (s.setRegs e l).ctl = s.ctl := by
  induction l generalizing s with
  | nil => rfl
  | cons p l ih => simp [State.setRegs, ih]
@[simp] theorem State.setRegs_mem (s : State) (e : Eng) (l : List (Reg × Word)) : (s.setRegs e l).mem = s.mem := by
  induction l generalizing s with
  | nil => rfl
  | cons p l ih => simp [State.setRegs, ih]
@[simp] theorem State.setRegs_inbox (s : State) (e : Eng) (l : List (Reg × Word)) : (s.setRegs e l).inbox = s.inbox := by
  induction l generalizing s with
  | nil => rfl
  | cons p l ih => simp [State.setRegs, ih]
@[simp] theorem State.setRegs_port (s : State) (e : Eng) (l : List (Reg × Word)) : (s.setRegs e l).port = s.port := by
  induction l generalizing s with
  | nil => rfl
  | cons p l ih => simp [State.setRegs, ih]
@[simp] theorem State.setRegs_draws (s : State) (e : Eng) (l : List (Reg × Word)) : (s.setRegs e l).draws = s.draws := by
  induction l generalizing s with
  | nil => rfl
  | cons p l ih => simp [State.setRegs, ih]

@[simp] theorem State.zeroOutputs_params (s : State) (e : Eng) (cmd : StartCmd) : (s.zeroOutputs e cmd).params = s.params := by
  simp [State.zeroOutputs]
@[simp] theorem State.zeroOutputs_ctl (s : State) (e : Eng) (cmd : StartCmd) : (s.zeroOutputs e cmd).ctl = s.ctl := by
  simp [State.zeroOutputs]
@[simp] theorem State.zeroOutputs_mem (s : State) (e : Eng) (cmd : StartCmd) : (s.zeroOutputs e cmd).mem = s.mem := by
  simp [State.zeroOutputs]
@[simp] theorem State.zeroOutputs_inbox (s : State) (e : Eng) (cmd : StartCmd) : (s.zeroOutputs e cmd).inbox = s.inbox := by
  simp [State.zeroOutputs]
@[simp] theorem State.zeroOutputs_port (s : State) (e : Eng) (cmd : StartCmd) : (s.zeroOutputs e cmd).port = s.port := by
  simp [State.zeroOutputs]
@[simp] theorem State.zeroOutputs_draws (s : State) (e : Eng) (cmd : StartCmd) : (s.zeroOutputs e cmd).draws = s.draws := by
  simp [State.zeroOutputs]

@[simp] theorem State.forgetRegions_params (s : State) (e : Eng) (rs : List Region) : (s.forgetRegions e rs).params = s.params := by
  induction rs generalizing s with
  | nil => rfl
  | cons r rs ih => simp [State.forgetRegions, ih]
@[simp] theorem State.forgetRegions_ctl (s : State) (e : Eng) (rs : List Region) : (s.forgetRegions e rs).ctl = s.ctl := by
  induction rs generalizing s with
  | nil => rfl
  | cons r rs ih => simp [State.forgetRegions, ih]
@[simp] theorem State.forgetRegions_rlee (s : State) (e : Eng) (rs : List Region) : (s.forgetRegions e rs).rlee = s.rlee := by
  induction rs generalizing s with
  | nil => rfl
  | cons r rs ih => simp [State.forgetRegions, ih]
@[simp] theorem State.forgetRegions_rled (s : State) (e : Eng) (rs : List Region) : (s.forgetRegions e rs).rled = s.rled := by
  induction rs generalizing s with
  | nil => rfl
  | cons r rs ih => simp [State.forgetRegions, ih]
@[simp] theorem State.forgetRegions_gre (s : State) (e : Eng) (rs : List Region) : (s.forgetRegions e rs).gre = s.gre := by
  induction rs generalizing s with
  | nil => rfl
  | cons r rs ih => simp [State.forgetRegions, ih]
@[simp] theorem State.forgetRegions_grd (s : State) (e : Eng) (rs : List Region) : (s.forgetRegions e rs).grd = s.grd := by
  induction rs generalizing s with
  | nil => rfl
  | cons r rs ih => simp [State.forgetRegions, ih]
@[simp] theorem State.forgetRegions_hufe (s : State) (e : Eng) (rs : List Region) : (s.forgetRegions e rs).hufe = s.hufe := by
  induction rs generalizing s with
  | nil => rfl
  | cons r rs ih => simp [State.forgetRegions, ih]
@[simp] theorem State.forgetRegions_hufd (s : State) (e : Eng) (rs : List Region) : (s.forgetRegions e rs).hufd = s.hufd := by
  induction rs generalizing s with
  | nil => rfl
  | cons r rs ih => simp [State.forgetRegions, ih]
@[simp] theorem State.forgetRegions_lzwe (s : State) (e : Eng) (rs : List Region) : (s.forgetRegions e rs).lzwe = s.lzwe := by
  induction rs generalizing s with
  | nil => rfl
  | cons r rs ih => simp [State.forgetRegions, ih]
@[simp] theorem State.forgetRegions_lzwd (s : State) (e : Eng) (rs : List Region) : (s.forgetRegions e rs).lzwd = s.lzwd := by
  induction rs generalizing s with
  | nil => rfl
  | cons r rs ih => simp [State.forgetRegions, ih]
@[simp] theorem State.forgetRegions_vq (s : State) (e : Eng) (rs : List Region) : (s.forgetRegions e rs).vq = s.vq := by
  induction rs generalizing s with
  | nil => rfl
  | cons r rs ih => simp [State.forgetRegions, ih]
@[simp] theorem State.forgetRegions_inbox (s : State) (e : Eng) (rs : List Region) : (s.forgetRegions e rs).inbox = s.inbox := by
  induction rs generalizing s with
  | nil => rfl
  | cons r rs ih => simp [State.forgetRegions, ih]
@[simp] theorem State.forgetRegions_port (s : State) (e : Eng) (rs : List Region) : (s.forgetRegions e rs).port = s.port := by
  induction rs generalizing s with
  | nil => rfl
  | cons r rs ih => simp [State.forgetRegions, ih]
@[simp] theorem State.forgetRegions_draws (s : State) (e : Eng) (rs : List Region) : (s.forgetRegions e rs).draws = s.draws := by
  induction rs generalizing s with
  | nil => rfl
  | cons r rs ih => simp [State.forgetRegions, ih]

@[simp] theorem State.writeStreams_params (s : State) (e : Eng) (l : List (Region × List Word)) : (s.writeStreams e l).params = s.params := by
  induction l generalizing s with
  | nil => rfl
  | cons p l ih => simp [State.writeStreams, ih]
@[simp] theorem State.writeStreams_ctl (s : State) (e : Eng) (l : List (Region × List Word)) : (s.writeStreams e l).ctl = s.ctl := by
  induction l generalizing s with
  | nil => rfl
  | cons p l ih => simp [State.writeStreams, ih]
@[simp] theorem State.writeStreams_rlee (s : State) (e : Eng) (l : List (Region × List Word)) : (s.writeStreams e l).rlee = s.rlee := by
  induction l generalizing s with
  | nil => rfl
  | cons p l ih => simp [State.writeStreams, ih]
@[simp] theorem State.writeStreams_rled (s : State) (e : Eng) (l : List (Region × List Word)) : (s.writeStreams e l).rled = s.rled := by
  induction l generalizing s with
  | nil => rfl
  | cons p l ih => simp [State.writeStreams, ih]
@[simp] theorem State.writeStreams_gre (s : State) (e : Eng) (l : List (Region × List Word)) : (s.writeStreams e l).gre = s.gre := by
  induction l generalizing s with
  | nil => rfl
  | cons p l ih => simp [State.writeStreams, ih]
@[simp] theorem State.writeStreams_grd (s : State) (e : Eng) (l : List (Region × List Word)) : (s.writeStreams e l).grd = s.grd := by
  induction l generalizing s with
  | nil => rfl
  | cons p l ih => simp [State.writeStreams, ih]
@[simp] theorem State.writeStreams_hufe (s : State) (e : Eng) (l : List (Region × List Word)) : (s.writeStreams e l).hufe = s.hufe := by
  induction l generalizing s with
  | nil => rfl
  | cons p l ih => simp [State.writeStreams, ih]
@[simp] theorem State.writeStreams_hufd (s : State) (e : Eng) (l : List (Region × List Word)) : (s.writeStreams e l).hufd = s.hufd := by
  induction l generalizing s with
  | nil => rfl
  | cons p l ih => simp [State.writeStreams, ih]
@[simp] theorem State.writeStreams_lzwe (s : State) (e : Eng) (l : List (Region × List Word)) : (s.writeStreams e l).lzwe = s.lzwe := by
  induction l generalizing s with
  | nil => rfl
  | cons p l ih => simp [State.writeStreams, ih]
@[simp] theorem State.writeStreams_lzwd (s : State) (e : Eng) (l : List (Region × List Word)) : (s.writeStreams e l).lzwd = s.lzwd := by
  induction l generalizing s with
  | nil => rfl
  | cons p l ih => simp [State.writeStreams, ih]
@[simp] theorem State.writeStreams_vq (s : State) (e : Eng) (l : List (Region × List Word)) : (s.writeStreams e l).vq = s.vq := by
  induction l generalizing s with
  | nil => rfl
  | cons p l ih => simp [State.writeStreams, ih]
@[simp] theorem State.writeStreams_inbox (s : State) (e : Eng) (l : List (Region × List Word)) : (s.writeStreams e l).inbox = s.inbox := by
  induction l generalizing s with
  | nil => rfl
  | cons p l ih => simp [State.writeStreams, ih]
@[simp] theorem State.writeStreams_port (s : State) (e : Eng) (l : List (Region × List Word)) : (s.writeStreams e l).port = s.port := by
  induction l generalizing s with
  | nil => rfl
  | cons p l ih => simp [State.writeStreams, ih]
@[simp] theorem State.writeStreams_draws (s : State) (e : Eng) (l : List (Region × List Word)) : (s.writeStreams e l).draws = s.draws := by
  induction l generalizing s with
  | nil => rfl
  | cons p l ih => simp [State.writeStreams, ih]

/-! ## Registers -/

@[simp] theorem State.getReg_setCtl (s : State) (e e' : Eng) (c : Ctl) (r : Reg) : (s.setCtl e c).getReg e' r = s.getReg e' r := by
  cases e' <;> rfl

@[simp] theorem State.getReg_setMem (s : State) (m : Memory) (e : Eng) (r : Reg) : (s.setMem m).getReg e r = s.getReg e r := by
  cases e <;> rfl

@[simp] theorem State.getReg_drew (s : State) (e : Eng) (r : Reg) : s.drew.getReg e r = s.getReg e r := by cases e <;> rfl

@[simp] theorem State.getReg_forgetRegions (s : State) (e e' : Eng) (rs : List Region) (r : Reg) :
    (s.forgetRegions e rs).getReg e' r = s.getReg e' r := by
  induction rs generalizing s with
  | nil => rfl
  | cons x rs ih => simp [State.forgetRegions, ih]

@[simp] theorem State.getReg_writeStreams (s : State) (e e' : Eng) (l : List (Region × List Word)) (r : Reg) :
    (s.writeStreams e l).getReg e' r = s.getReg e' r := by
  induction l generalizing s with
  | nil => rfl
  | cons p l ih => simp [State.writeStreams, ih]

theorem State.getReg_setReg_ne_eng (s : State) {e e' : Eng} (r r' : Reg) (v : Word) (h : e' ≠ e) :
    (s.setReg e r v).getReg e' r' = s.getReg e' r' := by
  cases e <;> cases e' <;> first | rfl | exact absurd rfl h

theorem State.getReg_setReg_ne_reg (s : State) (e : Eng) {r r' : Reg} (v : Word) (h : r' ≠ r) :
    (s.setReg e r v).getReg e r' = s.getReg e r' := by
  cases e <;> cases r <;> first | rfl | (cases r' <;> first | rfl | exact absurd rfl h)

/-- The registers an engine stores: those `setReg` changes. -/
def storesReg (e : Eng) (r : Reg) : Bool :=
  match e, r with
  | .vq, .inLen | .vq, .outLen => false
  | _, .inLen | _, .outLen => true
  | .hufe, .auxLen | .hufd, .auxLen => true
  | .gre, .grM | .grd, .grM => true
  | .lzwe, .lzwNextCode | .lzwd, .lzwNextCode => true
  | .vq, .vqLevels | .vq, .vqBs | .vq, .vqMaxIter | .vq, .vqH | .vq, .vqW | .vq, .vqC | .vq, .vqInitSrc
  | .vq, .vqTh | .vq, .vqTw | .vq, .vqK | .vq, .vqIters | .vq, .vqNblk | .vq, .vqSseLo | .vq, .vqSseHi
  | .vq, .vqNsamp => true
  | _, _ => false

/-- The value a stored register keeps of a written word: VQ_INIT_SRC keeps bit [0], every other register all bits. -/
def keptBits (r : Reg) (v : Word) : Word :=
  match r with
  | .vqInitSrc => 0#31 ++ BitVec.ofBool (v.getLsbD 0)
  | _ => v

theorem State.getReg_setReg_same (s : State) {e : Eng} {r : Reg} (v : Word) (h : storesReg e r = true) :
    (s.setReg e r v).getReg e r = keptBits r v := by
  cases e <;> cases r <;> first | rfl | exact absurd h (by decide)

theorem State.getReg_of_not_stores (s : State) {e : Eng} {r : Reg} (h : storesReg e r = false) : s.getReg e r = 0#32 := by
  cases e <;> cases r <;> first | rfl | exact absurd h (by decide)

theorem State.setReg_of_not_stores (s : State) {e : Eng} {r : Reg} (v : Word) (h : storesReg e r = false) :
    s.setReg e r v = s := by
  cases e <;> cases r <;> first | rfl | exact absurd h (by decide)

/-- Everything a register store does to the register file. -/
theorem State.getReg_setReg (s : State) (e e' : Eng) (r r' : Reg) (v : Word) :
    (s.setReg e r v).getReg e' r' =
      if e' = e ∧ r' = r ∧ storesReg e r = true then keptBits r v else s.getReg e' r' := by
  by_cases he : e' = e
  · subst he
    by_cases hr : r' = r
    · subst hr
      by_cases hs : storesReg e' r' = true
      · simp [hs, State.getReg_setReg_same s v hs]
      · simp [hs, State.setReg_of_not_stores s v (by simpa using hs)]
    · simp [hr, State.getReg_setReg_ne_reg s e' v hr]
  · simp [he, State.getReg_setReg_ne_eng s r r' v he]

theorem State.getReg_setRegs_ne_eng (s : State) {e e' : Eng} (l : List (Reg × Word)) (r : Reg) (h : e' ≠ e) :
    (s.setRegs e l).getReg e' r = s.getReg e' r := by
  induction l generalizing s with
  | nil => rfl
  | cons p l ih => simp [State.setRegs, ih, State.getReg_setReg_ne_eng _ _ _ _ h]

theorem State.getReg_setRegs_notMem (s : State) (e : Eng) (l : List (Reg × Word)) (r : Reg) (h : r ∉ l.map Prod.fst) :
    (s.setRegs e l).getReg e r = s.getReg e r := by
  induction l generalizing s with
  | nil => rfl
  | cons p l ih =>
    simp only [List.map_cons, List.mem_cons, not_or] at h
    simp [State.setRegs, ih _ h.2, State.getReg_setReg_ne_reg _ _ _ h.1]

theorem storesReg_outRegs : ∀ (e : Eng) (cmd : StartCmd), ∀ r ∈ outRegs e cmd, storesReg e r = true ∧ r ≠ .vqInitSrc := by
  intro e cmd
  cases e <;> cases cmd <;> decide

/-- Zeroing the output registers: those of the command are 0 afterwards, every other register is as before. -/
theorem State.getReg_zeroOutputs (s : State) (e e' : Eng) (cmd : StartCmd) (r : Reg) :
    (s.zeroOutputs e cmd).getReg e' r = if e' = e ∧ r ∈ outRegs e cmd then 0#32 else s.getReg e' r := by
  by_cases he : e' = e
  · subst he
    by_cases hr : r ∈ outRegs e' cmd
    · rw [if_pos ⟨rfl, hr⟩]
      cases e' <;> cases cmd <;> revert hr <;> cases r <;> first | (intro _; rfl) | (intro h; exact absurd h (by decide))
    · rw [if_neg (fun h => hr h.2)]
      exact State.getReg_setRegs_notMem s e' _ r (by simpa using hr)
  · rw [if_neg (fun h => he h.1)]
    exact State.getReg_setRegs_ne_eng s _ r he

end Sys2Proof.Machine
end

