-- ==== Sys2Proof/Laws/Memory.lean ====
section
/-! SUPPORT. The laws of memory: read after write, the canonical form, unspecified ranges, words, and the geometry of the
region addresses. -/
namespace Sys2Proof.Machine

/-! ## Bytes -/

theorem Memory.get?_set (m : Memory) (a b : Nat) (v : Byte) :
    (m.set a v).get? b = if b = a then some v else m.get? b := by
  induction m with
  | nil => simp [Memory.set, Memory.get?]
  | cons c m ih =>
    obtain ⟨x, w⟩ := c
    simp only [Memory.set]
    split
    · simp [Memory.get?]
    · split
      · next h => subst h; simp only [Memory.get?]; split <;> simp_all
      · simp only [Memory.get?, ih]; split <;> split <;> simp_all

theorem Memory.mem_set (m : Memory) (a : Nat) (v : Byte) (c : Host.Cell) (h : c ∈ m.set a v) : c = (a, v) ∨ c ∈ m := by
  induction m with
  | nil => simpa [Memory.set] using h
  | cons d m ih =>
    obtain ⟨x, w⟩ := d
    simp only [Memory.set] at h
    split at h
    · simpa using h
    · split at h
      · simp only [List.mem_cons] at h ⊢
        exact h.elim .inl fun h => .inr (.inr h)
      · simp only [List.mem_cons] at h ⊢
        exact h.elim (fun h => .inr (.inl h)) fun h => (ih h).elim .inl fun h => .inr (.inr h)

theorem Memory.wf_set (m : Memory) (a : Nat) (v : Byte) (h : m.wf) : (m.set a v).wf := by
  induction m with
  | nil => simp [Memory.set, Memory.wf]
  | cons d m ih =>
    obtain ⟨x, w⟩ := d
    simp only [Memory.wf, List.pairwise_cons] at h
    simp only [Memory.set]
    split
    · next hx =>
      simp only [Memory.wf, List.pairwise_cons, List.mem_cons]
      refine ⟨?_, h⟩
      rintro c (rfl | hc)
      · exact hx
      · exact Nat.lt_trans hx (h.1 c hc)
    · split
      · next hx => subst hx; exact List.pairwise_cons.2 h
      · next h1 h2 =>
        refine List.pairwise_cons.2 ⟨fun c hc => ?_, ih h.2⟩
        rcases Memory.mem_set m a v c hc with rfl | hc
        · simp only; omega
        · exact h.1 c hc

theorem Memory.get?_forget (m : Memory) (lo n a : Nat) :
    (m.forget lo n).get? a = if lo ≤ a ∧ a < lo + n then none else m.get? a := by
  induction m with
  | nil => simp [Memory.forget, Memory.get?]
  | cons c m ih =>
    obtain ⟨x, w⟩ := c
    simp only [Memory.forget] at ih ⊢
    by_cases hx : lo ≤ x ∧ x < lo + n
    · rw [List.filter_cons_of_neg (by simp; omega), ih, Memory.get?]
      split
      · rfl
      · rw [if_neg]; rintro rfl; simp_all
    · rw [List.filter_cons_of_pos (by simp; omega), Memory.get?, Memory.get?, ih]
      split
      · next h => subst h; rw [if_neg hx]
      · rfl

theorem Memory.mem_forget (m : Memory) (lo n : Nat) (c : Host.Cell) (h : c ∈ m.forget lo n) : c ∈ m :=
  (List.mem_filter.1 h).1

theorem Memory.wf_forget (m : Memory) (lo n : Nat) (h : m.wf) : (m.forget lo n).wf := List.Pairwise.filter _ h

/-! ## Words -/

theorem wordOfBytes_wordByte (w : Word) : wordOfBytes (wordByte w 0) (wordByte w 1) (wordByte w 2) (wordByte w 3) = w := by
  unfold wordOfBytes wordByte
  apply BitVec.eq_of_getLsbD_eq
  intro i hi
  simp only [BitVec.getLsbD_append, BitVec.getLsbD_extractLsb']
  split
  · next h => simp [h]
  · split
    · next h => simp only [h, decide_true, Bool.true_and]; congr 1; omega
    · split
      · next h => simp only [h, decide_true, Bool.true_and]; congr 1; omega
      · have h8 : i - 8 - 8 - 8 < 8 := by omega
        simp only [h8, decide_true, Bool.true_and]; congr 1; omega

theorem Memory.get?_setWord (m : Memory) (a b : Nat) (w : Word) :
    (m.setWord a w).get? b = if a ≤ b ∧ b < a + 4 then some (wordByte w (b - a)) else m.get? b := by
  simp only [Memory.setWord, Memory.get?_set]
  by_cases h3 : b = a + 3
  · subst h3; simp
  · by_cases h2 : b = a + 2
    · subst h2; simp
    · by_cases h1 : b = a + 1
      · subst h1; simp
      · by_cases h0 : b = a
        · subst h0; simp
        · simp only [h3, h2, h1, h0, if_false]; rw [if_neg]; omega

theorem Memory.wf_setWord (m : Memory) (a : Nat) (w : Word) (h : m.wf) : (m.setWord a w).wf :=
  Memory.wf_set _ _ _ (Memory.wf_set _ _ _ (Memory.wf_set _ _ _ (Memory.wf_set _ _ _ h)))

theorem Memory.mem_setWord (m : Memory) (a : Nat) (w : Word) (c : Host.Cell) (h : c ∈ m.setWord a w) :
    (∃ i, i < 4 ∧ c.1 = a + i) ∨ c ∈ m := by
  unfold Memory.setWord at h
  rcases Memory.mem_set _ _ _ _ h with rfl | h
  · exact .inl ⟨3, by omega, rfl⟩
  rcases Memory.mem_set _ _ _ _ h with rfl | h
  · exact .inl ⟨2, by omega, rfl⟩
  rcases Memory.mem_set _ _ _ _ h with rfl | h
  · exact .inl ⟨1, by omega, rfl⟩
  rcases Memory.mem_set _ _ _ _ h with rfl | h
  · exact .inl ⟨0, by omega, rfl⟩
  exact .inr h

theorem Memory.wf_setWords (m : Memory) (a : Nat) (ws : List Word) (h : m.wf) : (m.setWords a ws).wf := by
  induction ws generalizing m a with
  | nil => exact h
  | cons w ws ih => exact ih _ _ (Memory.wf_setWord m a w h)

theorem Memory.mem_setWords (m : Memory) (a : Nat) (ws : List Word) (c : Host.Cell) (h : c ∈ m.setWords a ws) :
    (∃ j i, j < ws.length ∧ i < 4 ∧ c.1 = a + 4 * j + i) ∨ c ∈ m := by
  induction ws generalizing m a with
  | nil => exact .inr h
  | cons w ws ih =>
    rcases ih _ _ h with ⟨j, i, hj, hi, hc⟩ | h
    · exact .inl ⟨j + 1, i, by simp; omega, hi, by omega⟩
    · rcases Memory.mem_setWord m a w c h with ⟨i, hi, hc⟩ | h
      · exact .inl ⟨0, i, by simp, hi, by omega⟩
      · exact .inr h

/-- Everything a write of consecutive words does: byte b of the range is byte (b - a) mod 4 of word (b - a) / 4. -/
theorem Memory.get?_setWords (m : Memory) (a b : Nat) (ws : List Word) :
    (m.setWords a ws).get? b =
      if a ≤ b ∧ b < a + 4 * ws.length then some (wordByte (ws.getD ((b - a) / 4) 0#32) ((b - a) % 4)) else m.get? b := by
  induction ws generalizing m a with
  | nil => rw [if_neg (by simp)]; rfl
  | cons w ws ih =>
    rw [Memory.setWords, ih, Memory.get?_setWord]
    by_cases h4 : a + 4 ≤ b
    · by_cases hb : b < a + 4 * (w :: ws).length
      · rw [if_pos ⟨h4, by simp at hb; omega⟩, if_pos ⟨by omega, hb⟩]
        have h1 : (b - a) / 4 = (b - (a + 4)) / 4 + 1 := by omega
        have h2 : (b - a) % 4 = (b - (a + 4)) % 4 := by omega
        rw [h1, h2]; simp
      · rw [if_neg (by simp at hb ⊢; omega), if_neg (by omega), if_neg (by omega)]
    · rw [if_neg (by omega)]
      by_cases ha : a ≤ b
      · rw [if_pos ⟨ha, by omega⟩, if_pos ⟨ha, by simp; omega⟩]
        have h1 : (b - a) / 4 = 0 := by omega
        have h2 : (b - a) % 4 = b - a := by omega
        rw [h1, h2]; simp
      · rw [if_neg (by omega), if_neg (by omega)]

/-- A specified word reads as itself: no draw enters. -/
theorem State.wordAt_of_word? {s : State} {a : Nat} {w : Word} (h : s.word? a = some w) : s.wordAt a = w := by
  unfold State.word? at h
  split at h
  · next h0 h1 h2 h3 => simp [State.wordAt, State.byteAt, h0, h1, h2, h3] at h ⊢; exact h
  · cases h

/-- The word at an address depends only on its four bytes. -/
theorem State.word?_congr {s t : State} {a : Nat} (h : ∀ i, i < 4 → t.mem.get? (a + i) = s.mem.get? (a + i)) :
    t.word? a = s.word? a := by
  have h0 := h 0 (by omega)
  have h1 := h 1 (by omega)
  have h2 := h 2 (by omega)
  have h3 := h 3 (by omega)
  simp only [Nat.add_zero] at h0
  simp [State.word?, h0, h1, h2, h3]

/-- Word j of the words just written. -/
theorem State.word?_setWords (s : State) (m : Memory) (a : Nat) (ws : List Word) (j : Nat) (hj : j < ws.length) :
    (s.setMem (m.setWords a ws)).word? (a + 4 * j) = some ws[j] := by
  have key : ∀ i, i < 4 → (m.setWords a ws).get? (a + 4 * j + i) = some (wordByte ws[j] i) := by
    intro i hi
    rw [Memory.get?_setWords, if_pos (by omega)]
    have h1 : (a + 4 * j + i - a) / 4 = j := by omega
    have h2 : (a + 4 * j + i - a) % 4 = i := by omega
    rw [h1, h2]; simp [hj]
  have h0 := key 0 (by omega)
  have h1 := key 1 (by omega)
  have h2 := key 2 (by omega)
  have h3 := key 3 (by omega)
  simp only [Nat.add_zero] at h0
  simp [State.word?, h0, h1, h2, h3, wordOfBytes_wordByte]

/-! ## Region addresses -/

theorem regionIndex_bounds (r : Region) : 1 ≤ regionIndex r ∧ regionIndex r ≤ 4 := by cases r <;> decide

theorem regionIndex_inj {r r' : Region} (h : regionIndex r = regionIndex r') : r = r' := by
  cases r <;> cases r' <;> first | rfl | cases h

theorem legal_words {p : Params} (h : p.legal = true) (e : Eng) (r : Region) : p.words e r ≤ 2 ^ 20 := by
  simp only [Params.legal, Bool.and_eq_true, List.all_eq_true] at h
  have := h.1.1.1.1.1 e e.mem_all r (by cases r <;> simp)
  unfold Params.regionLegal at this
  split at this
  · simp only [Bool.and_eq_true, decide_eq_true_eq] at this; exact this.2
  · simp only [beq_iff_eq] at this; omega

/-- A region byte address names its engine, region, word and byte. -/
theorem wordAddr_inj {e e' : Eng} {r r' : Region} {w w' i i' : Nat} (hw : w < 2 ^ 20) (hw' : w' < 2 ^ 20) (hi : i < 4)
    (hi' : i' < 4) (h : wordAddr e r w + i = wordAddr e' r' w' + i') : e = e' ∧ r = r' ∧ w = w' ∧ i = i' := by
  have hr := regionIndex_bounds r
  have hr' := regionIndex_bounds r'
  simp only [wordAddr, regionBase, windowBase] at h
  have hid : e.id = e'.id := by omega
  have hrr : regionIndex r = regionIndex r' := by omega
  refine ⟨Eng.id_inj hid, regionIndex_inj hrr, ?_, ?_⟩ <;> omega

/-- The bytes of a region, as an address range. -/
theorem inRegion_iff {p : Params} (e : Eng) (r : Region) (a : Nat) :
    (regionBase e r ≤ a ∧ a < regionBase e r + 4 * p.words e r) ↔
      ∃ w i, w < p.words e r ∧ i < 4 ∧ a = wordAddr e r w + i := by
  constructor
  · rintro ⟨h1, h2⟩
    exact ⟨(a - regionBase e r) / 4, (a - regionBase e r) % 4, by omega, by omega, by simp only [wordAddr]; omega⟩
  · rintro ⟨w, i, hw, hi, rfl⟩
    simp only [wordAddr]; omega

theorem Memory.get?_forgetRegion (m : Memory) (p : Params) (e : Eng) (r : Region) (a : Nat) :
    (m.forgetRegion p e r).get? a =
      if regionBase e r ≤ a ∧ a < regionBase e r + 4 * p.words e r then none else m.get? a :=
  Memory.get?_forget m _ _ a

/-- Everything making regions unspecified does to memory. -/
theorem State.get?_forgetRegions (s : State) (e : Eng) (rs : List Region) (a : Nat) :
    (s.forgetRegions e rs).mem.get? a =
      if ∃ r ∈ rs, regionBase e r ≤ a ∧ a < regionBase e r + 4 * s.params.words e r then none else s.mem.get? a := by
  induction rs generalizing s with
  | nil => simp [State.forgetRegions]
  | cons r rs ih =>
    rw [State.forgetRegions, ih]
    simp only [State.setMem_params, State.setMem_mem, Memory.get?_forgetRegion, List.mem_cons, exists_eq_or_imp]
    split
    · next h => rw [if_pos (.inr h)]
    · next h =>
      split
      · next h' => rw [if_pos (.inl h')]
      · next h' => rw [if_neg (not_or.2 ⟨h', h⟩)]

theorem State.wf_forgetRegions (s : State) (e : Eng) (rs : List Region) (h : s.mem.wf) : (s.forgetRegions e rs).mem.wf := by
  induction rs generalizing s with
  | nil => exact h
  | cons r rs ih => exact ih _ (Memory.wf_forget _ _ _ h)

theorem State.mem_forgetRegions (s : State) (e : Eng) (rs : List Region) (c : Host.Cell)
    (h : c ∈ (s.forgetRegions e rs).mem) : c ∈ s.mem := by
  induction rs generalizing s with
  | nil => exact h
  | cons r rs ih => exact Memory.mem_forget _ _ _ _ (ih _ h)

theorem State.wf_writeStreams (s : State) (e : Eng) (l : List (Region × List Word)) (h : s.mem.wf) :
    (s.writeStreams e l).mem.wf := by
  induction l generalizing s with
  | nil => exact h
  | cons p l ih => exact ih _ (Memory.wf_setWords _ _ _ h)

theorem State.mem_writeStreams (s : State) (e : Eng) (l : List (Region × List Word)) (c : Host.Cell)
    (h : c ∈ (s.writeStreams e l).mem) :
    (∃ p ∈ l, ∃ j i, j < p.2.length ∧ i < 4 ∧ c.1 = regionBase e p.1 + 4 * j + i) ∨ c ∈ s.mem := by
  induction l generalizing s with
  | nil => exact .inr h
  | cons p l ih =>
    rcases ih _ h with ⟨q, hq, hc⟩ | h
    · exact .inl ⟨q, List.mem_cons_of_mem _ hq, hc⟩
    · rcases Memory.mem_setWords _ _ _ _ h with hc | h
      · exact .inl ⟨p, List.mem_cons_self, hc⟩
      · exact .inr h

/-- A stream write leaves every byte outside the written words alone. -/
theorem State.get?_writeStreams_outside (s : State) (e : Eng) (l : List (Region × List Word)) (a : Nat)
    (h : ∀ p ∈ l, ¬(regionBase e p.1 ≤ a ∧ a < regionBase e p.1 + 4 * p.2.length)) :
    (s.writeStreams e l).mem.get? a = s.mem.get? a := by
  induction l generalizing s with
  | nil => rfl
  | cons p l ih =>
    rw [State.writeStreams, ih _ fun q hq => h q (List.mem_cons_of_mem _ hq)]
    simp only [State.setMem_mem, Memory.get?_setWords]
    rw [if_neg (h p List.mem_cons_self)]

/-! ## The address map -/

theorem regAt_offset : ∀ (e : Eng), ∀ r ∈ engRegs e, regAt e (regOffset r) = some r ∧ regOffset r < 0x1000 := by
  intro e; cases e <;> decide

theorem busTarget_window (p : Params) (e : Eng) (off : Nat) (h : off < 0x02000000) :
    busTarget p (windowBase e + off) = windowTarget p e off := by
  obtain ⟨a, ha⟩ : ∃ a, a = windowBase e + off := ⟨_, rfl⟩
  have hw : windowBase e = 0x02000000 * (e.id + 1) := rfl
  have h0 : ¬a = 0 := by omega
  have h4 : ¬a = 4 := by omega
  have hl : ¬a < 0x02000000 := by omega
  have h1 : a / 0x02000000 - 1 = e.id := by omega
  have h2 : a % 0x02000000 = off := by omega
  rw [← ha, busTarget, if_neg h0, if_neg h4, if_neg hl, h1, h2, engOfId_id]

/-- Every address of a window names something of its engine: a register, a region word or a hole. -/
theorem windowTarget_engine (p : Params) (e : Eng) (off : Nat) :
    (∃ r, windowTarget p e off = .reg e r) ∨ (∃ r w, windowTarget p e off = .word e r w) ∨ windowTarget p e off = .hole e := by
  unfold windowTarget
  split
  · split
    · next r _ => exact .inl ⟨r, rfl⟩
    · exact .inr (.inr rfl)
  · split
    · next r _ =>
      dsimp only
      split
      · exact .inr (.inl ⟨r, _, rfl⟩)
      · exact .inr (.inr rfl)
    · exact .inr (.inr rfl)

/-- A register's address names it. -/
theorem busTarget_regAddr (p : Params) (e : Eng) (r : Reg) (h : r ∈ engRegs e) : busTarget p (regAddr e r) = .reg e r := by
  obtain ⟨h1, h2⟩ := regAt_offset e r h
  rw [regAddr, busTarget_window p e _ (by omega), windowTarget, if_pos h2, h1]

/-- An existing region word's address names it. -/
theorem busTarget_wordAddr (p : Params) (e : Eng) (r : Region) (w : Nat) (hw : w < p.words e r) (hw' : w < 2 ^ 20) :
    busTarget p (wordAddr e r w) = .word e r w := by
  have hr := regionIndex_bounds r
  have : wordAddr e r w = windowBase e + (regionIndex r * 0x00400000 + 4 * w) := by simp only [wordAddr, regionBase]; omega
  rw [this, busTarget_window p e _ (by omega), windowTarget, if_neg (by omega)]
  have h1 : (regionIndex r * 0x00400000 + 4 * w) / 0x00400000 = regionIndex r := by omega
  have h2 : (regionIndex r * 0x00400000 + 4 * w) % 0x00400000 / 4 = w := by omega
  rw [h1, h2]
  cases r <;> simp [regionIndex, regionOfIndex, hw]

end Sys2Proof.Machine
end

