-- ==== Sys2Proof/Laws/Commands.lean ====
section
/-! SUPPORT. One lemma per shared operation: what a command, a START frame, a completion, an error, a register write and a
reset do, field by field. -/
namespace Sys2Proof.Machine

/-! ## Commands -/

theorem whenIdle_busy {e : Eng} {s : State} (act : State → State) (h : s.busy e = true) :
    whenIdle e s act = .next (s.drop e) := by simp [whenIdle, h]

theorem whenIdle_idle {e : Eng} {s : State} (act : State → State) (h : s.busy e = false) :
    whenIdle e s act = .next (act s) := by simp [whenIdle, h]

/-- Every command of a BUSY engine is dropped. -/
theorem exec_busy (i : Instr) (s : State) (h : s.busy i.engine = true) : exec i s = .next (s.drop i.engine) := by
  cases i <;> simp only [Instr.engine] at h ⊢ <;>
    simp only [exec, execRleeNop, execRleeStart, execRleeClear, execRledNop, execRledStart, execRledClear, execGreNop,
      execGreStart, execGreClear, execGrdNop, execGrdStart, execGrdClear, execHufeNop, execHufeStart, execHufeClear,
      execHufdNop, execHufdStart, execHufdClear, execLzweNop, execLzweStart, execLzweClear, execLzwdNop, execLzwdStart,
      execLzwdClear, execVqNop, execVqStartEnc, execVqStartDec, execVqClear, nopCommand, startCommand, clearCommand,
      whenIdle_busy _ h]

theorem busy_eq (s : State) (e : Eng) : s.busy e = (s.ctl.get e).running.isSome := rfl

/-! ## The control registers -/

@[simp] theorem State.drop_ctl (s : State) (e : Eng) : (s.drop e).ctl = s.ctl.set e (s.ctl.get e).drop := rfl

@[simp] theorem State.clear_ctl (s : State) (e : Eng) : (s.clear e).ctl = s.ctl.set e (s.ctl.get e).clear := rfl

@[simp] theorem State.startFrame_ctl (s : State) (e : Eng) (cmd : StartCmd) :
    (s.startFrame e cmd).ctl = s.ctl.set e ((s.ctl.get e).started cmd) := by simp [State.startFrame]

@[simp] theorem State.publish_ctl (s : State) (e : Eng) (cmd : StartCmd) (o : Outputs) :
    (s.publish e cmd o).ctl = s.ctl.set e (s.ctl.get e).succeeded := by simp [State.publish]

@[simp] theorem State.fail_ctl (s : State) (e : Eng) (cmd : StartCmd) (x : Err) :
    (s.fail e cmd x).ctl = s.ctl.set e ((s.ctl.get e).failed x) := by simp [State.fail]

/-! ## The other fields -/

@[simp] theorem State.drop_mem (s : State) (e : Eng) : (s.drop e).mem = s.mem := rfl
@[simp] theorem State.drop_params (s : State) (e : Eng) : (s.drop e).params = s.params := rfl
@[simp] theorem State.drop_inbox (s : State) (e : Eng) : (s.drop e).inbox = s.inbox := rfl
@[simp] theorem State.drop_port (s : State) (e : Eng) : (s.drop e).port = s.port := rfl
@[simp] theorem State.drop_draws (s : State) (e : Eng) : (s.drop e).draws = s.draws := rfl
@[simp] theorem State.drop_getReg (s : State) (e e' : Eng) (r : Reg) : (s.drop e).getReg e' r = s.getReg e' r := by
  cases e' <;> rfl

@[simp] theorem State.clear_mem (s : State) (e : Eng) : (s.clear e).mem = s.mem := rfl
@[simp] theorem State.clear_params (s : State) (e : Eng) : (s.clear e).params = s.params := rfl
@[simp] theorem State.clear_inbox (s : State) (e : Eng) : (s.clear e).inbox = s.inbox := rfl
@[simp] theorem State.clear_port (s : State) (e : Eng) : (s.clear e).port = s.port := rfl
@[simp] theorem State.clear_draws (s : State) (e : Eng) : (s.clear e).draws = s.draws := rfl
@[simp] theorem State.clear_getReg (s : State) (e e' : Eng) (r : Reg) : (s.clear e).getReg e' r = s.getReg e' r := by
  cases e' <;> rfl

@[simp] theorem State.startFrame_params (s : State) (e : Eng) (cmd : StartCmd) : (s.startFrame e cmd).params = s.params := by
  simp [State.startFrame]
@[simp] theorem State.startFrame_inbox (s : State) (e : Eng) (cmd : StartCmd) : (s.startFrame e cmd).inbox = s.inbox := by
  simp [State.startFrame]
@[simp] theorem State.startFrame_port (s : State) (e : Eng) (cmd : StartCmd) : (s.startFrame e cmd).port = s.port := by
  simp [State.startFrame]
@[simp] theorem State.startFrame_draws (s : State) (e : Eng) (cmd : StartCmd) : (s.startFrame e cmd).draws = s.draws := by
  simp [State.startFrame]

theorem State.startFrame_mem (s : State) (e : Eng) (cmd : StartCmd) :
    (s.startFrame e cmd).mem = (s.forgetRegions e (outRegions e cmd)).mem := by
  have h : ∀ (rs : List Region) (x y : State), x.mem = y.mem → x.params = y.params →
      (x.forgetRegions e rs).mem = (y.forgetRegions e rs).mem := by
    intro rs
    induction rs with
    | nil => intro x y h _; exact h
    | cons r rs ih => intro x y h1 h2; exact ih _ _ (by simp [h1, h2]) (by simp [h2])
  simp only [State.startFrame, State.setCtl_mem]
  exact h _ _ _ (by simp) (by simp)

/-- The START frame's registers: the output registers are 0, every other stored register is as before (R405). -/
theorem State.startFrame_getReg (s : State) (e e' : Eng) (cmd : StartCmd) (r : Reg) :
    (s.startFrame e cmd).getReg e' r = if e' = e ∧ r ∈ outRegs e cmd then 0#32 else s.getReg e' r := by
  simp [State.startFrame, State.getReg_zeroOutputs]

/-- The START frame's memory: the output regions are unspecified, every other byte is as before (R405). -/
theorem State.startFrame_get? (s : State) (e : Eng) (cmd : StartCmd) (a : Nat) :
    (s.startFrame e cmd).mem.get? a =
      if ∃ r ∈ outRegions e cmd, regionBase e r ≤ a ∧ a < regionBase e r + 4 * s.params.words e r then none
      else s.mem.get? a := by
  rw [State.startFrame_mem, State.get?_forgetRegions]

@[simp] theorem State.fail_params (s : State) (e : Eng) (cmd : StartCmd) (x : Err) : (s.fail e cmd x).params = s.params := by
  simp [State.fail]
@[simp] theorem State.fail_inbox (s : State) (e : Eng) (cmd : StartCmd) (x : Err) : (s.fail e cmd x).inbox = s.inbox := by
  simp [State.fail]
@[simp] theorem State.fail_port (s : State) (e : Eng) (cmd : StartCmd) (x : Err) : (s.fail e cmd x).port = s.port := by
  simp [State.fail]
@[simp] theorem State.fail_draws (s : State) (e : Eng) (cmd : StartCmd) (x : Err) :
    (s.fail e cmd x).draws = s.draws + 1 := by simp [State.fail]

/-- A failure's registers (R410). -/
theorem State.fail_getReg (s : State) (e e' : Eng) (cmd : StartCmd) (x : Err) (r : Reg) :
    (s.fail e cmd x).getReg e' r = if e' = e ∧ r ∈ outRegs e cmd then 0#32 else s.getReg e' r := by
  simp [State.fail, State.getReg_zeroOutputs]

/-- A failure's memory is that of a START frame: the output regions are unspecified (R410). -/
theorem State.fail_mem (s : State) (e : Eng) (cmd : StartCmd) (x : Err) :
    (s.fail e cmd x).mem = (s.forgetRegions e (outRegions e cmd)).mem := by
  rw [← State.startFrame_mem]; simp [State.fail, State.startFrame]

theorem State.fail_get? (s : State) (e : Eng) (cmd : StartCmd) (x : Err) (a : Nat) :
    (s.fail e cmd x).mem.get? a =
      if ∃ r ∈ outRegions e cmd, regionBase e r ≤ a ∧ a < regionBase e r + 4 * s.params.words e r then none
      else s.mem.get? a := by
  rw [State.fail_mem, State.get?_forgetRegions]

@[simp] theorem State.publish_params (s : State) (e : Eng) (cmd : StartCmd) (o : Outputs) :
    (s.publish e cmd o).params = s.params := by simp [State.publish]
@[simp] theorem State.publish_inbox (s : State) (e : Eng) (cmd : StartCmd) (o : Outputs) :
    (s.publish e cmd o).inbox = s.inbox := by simp [State.publish]
@[simp] theorem State.publish_port (s : State) (e : Eng) (cmd : StartCmd) (o : Outputs) :
    (s.publish e cmd o).port = s.port := by simp [State.publish]
@[simp] theorem State.publish_draws (s : State) (e : Eng) (cmd : StartCmd) (o : Outputs) :
    (s.publish e cmd o).draws = s.draws + 1 := by simp [State.publish]

theorem State.publish_mem (s : State) (e : Eng) (cmd : StartCmd) (o : Outputs) :
    (s.publish e cmd o).mem = ((s.forgetRegions e (outRegions e cmd)).writeStreams e o.words).mem := by
  simp [State.publish]

theorem State.setRegs_getReg_congr (e : Eng) (l : List (Reg × Word)) (r : Reg) (x y : State)
    (h : ∀ r', x.getReg e r' = y.getReg e r') : (x.setRegs e l).getReg e r = (y.setRegs e l).getReg e r := by
  induction l generalizing x y with
  | nil => exact h r
  | cons p l ih => exact ih _ _ fun r' => by simp only [State.getReg_setReg, h]

/-- A success's registers: the published values on the engine, every other engine's as before (R408). -/
theorem State.publish_getReg (s : State) (e e' : Eng) (cmd : StartCmd) (o : Outputs) (r : Reg) :
    (s.publish e cmd o).getReg e' r = if e' = e then (s.setRegs e o.regs).getReg e r else s.getReg e' r := by
  simp only [State.publish, State.getReg_drew, State.getReg_setCtl]
  by_cases h : e' = e
  · subst h; rw [if_pos rfl]; exact State.setRegs_getReg_congr _ _ _ _ _ fun r' => by simp
  · rw [if_neg h, State.getReg_setRegs_ne_eng _ _ _ h]; simp

/-! ## Register writes -/

theorem State.writeReg_of_readOnly (s : State) {e : Eng} {r : Reg} (v : Word) (h : hostWritable e r = false) :
    s.writeReg e r v = s := by simp [State.writeReg, h]

theorem State.writeReg_ctrl (s : State) (e : Eng) (v : Word) :
    s.writeReg e .ctrl v = s.setCtl e { s.ctl.get e with irqEn := v.getLsbD 0 } := rfl

theorem State.writeReg_stored (s : State) {e : Eng} {r : Reg} (v : Word) (h : hostWritable e r = true) (hr : r ≠ .ctrl) :
    s.writeReg e r v = s.setReg e r v := by
  cases r <;> first | exact absurd rfl hr | simp [State.writeReg, h]

/-! ## Completion -/

theorem completeEngine_idle (e : Eng) (s : State) (h : s.busy e = false) : completeEngine e s = s := by
  unfold completeEngine
  rw [busy_eq, Option.isSome_eq_false_iff, Option.isNone_iff_eq_none] at h
  rw [h]

theorem completeEngine_ok {e : Eng} {s : State} {cmd : StartCmd} {o : Outputs} (h : (s.ctl.get e).running = some cmd)
    (ho : ideal e cmd s = .ok o) : completeEngine e s = s.publish e cmd o := by
  simp only [completeEngine, h, ho, State.finish]

theorem completeEngine_error {e : Eng} {s : State} {cmd : StartCmd} {x : Err} (h : (s.ctl.get e).running = some cmd)
    (hx : ideal e cmd s = .error x) : completeEngine e s = s.fail e cmd x := by
  simp only [completeEngine, h, hx, State.finish]

/-! ## Everything a step can do -/

/-- The changes a step can make to the block, apart from the host's queue and response. -/
inductive Change (s : State) : State → Prop
  | same : Change s s
  | read : Change s s.drew
  | drop (e : Eng) : s.busy e = true → Change s (s.drop e)
  | illegal (e : Eng) : s.busy e = false → Change s (s.setCtl e (s.ctl.get e).illegal)
  | clear (e : Eng) : s.busy e = false → Change s (s.clear e)
  | start (e : Eng) (cmd : StartCmd) : s.busy e = false → (cmd = .startDec → e = .vq) → Change s (s.startFrame e cmd)
  | writeReg (e : Eng) (r : Reg) (v : Word) : s.busy e = false → Change s (s.writeReg e r v)
  | writeWord (e : Eng) (r : Region) (w : Nat) (v : Word) : s.busy e = false → w < s.params.words e r →
      Change s (s.setMem (s.mem.setWord (wordAddr e r w) v))
  | complete (e : Eng) (cmd : StartCmd) : (s.ctl.get e).running = some cmd → Change s (s.finish e cmd (ideal e cmd s))
  | reset : Change s s.resetBlock

theorem exec_change (i : Instr) (s t : State) (h : exec i s = .next t) : Change s t := by
  cases hb : s.busy i.engine with
  | true => rw [exec_busy i s hb] at h; cases h; exact .drop _ hb
  | false =>
    cases i <;> simp only [Instr.engine] at hb <;>
      simp only [exec, execRleeNop, execRleeStart, execRleeClear, execRledNop, execRledStart, execRledClear, execGreNop,
        execGreStart, execGreClear, execGrdNop, execGrdStart, execGrdClear, execHufeNop, execHufeStart, execHufeClear,
        execHufdNop, execHufdStart, execHufdClear, execLzweNop, execLzweStart, execLzweClear, execLzwdNop, execLzwdStart,
        execLzwdClear, execVqNop, execVqStartEnc, execVqStartDec, execVqClear, nopCommand, startCommand, clearCommand,
        whenIdle_idle _ hb] at h <;>
      cases h <;>
      first
      | with_reducible exact .same
      | with_reducible exact .clear _ hb
      | with_reducible exact .start _ _ hb (by simp)

/-- What is done when IDLE and dropped when BUSY is one change. -/
theorem whenIdle_change {e : Eng} {s t : State} {act : State → State} (h : whenIdle e s act = .next t)
    (ha : s.busy e = false → Change s (act s)) : Change s t := by
  unfold whenIdle at h
  split at h
  · next hb => cases h; exact .drop e hb
  · next hb => cases h; exact ha (by simpa using hb)

theorem illegalCommand_change (e : Eng) (s : State) : Change s (illegalCommand e s) := by
  unfold illegalCommand
  split
  · next h => exact .drop e h
  · next h => exact .illegal e (by simpa using h)

theorem windowTarget_word {p : Params} {e e' : Eng} {off : Nat} {r : Region} {w : Nat}
    (h : windowTarget p e off = .word e' r w) : w < p.words e' r := by
  unfold windowTarget at h
  split at h
  · split at h <;> cases h
  · split at h
    · simp only at h
      split at h
      · cases h; assumption
      · cases h
    · cases h

theorem busTarget_word {p : Params} {a : Nat} {e : Eng} {r : Region} {w : Nat} (h : busTarget p a = .word e r w) :
    w < p.words e r := by
  unfold busTarget at h
  repeat' split at h
  all_goals first | cases h | exact windowTarget_word h

theorem busWrite_change (s t : State) (a : Nat) (v : Word) (h : busWrite s a v = .next t) : Change s t := by
  unfold busWrite at h
  split at h
  · next e _ =>
    unfold writeCmd at h
    split at h
    · exact exec_change _ _ _ h
    · cases h; exact illegalCommand_change _ _
  · next e r _ _ => exact whenIdle_change h fun hb => .writeReg e r v hb
  · next e r w ht => exact whenIdle_change h fun hb => .writeWord e r w v hb (busTarget_word ht)
  · exact whenIdle_change h fun _ => .same
  · cases h; exact .same
  · cases h; exact .same
  · cases h; exact .same

theorem completeEngine_change (e : Eng) (s : State) : Change s (completeEngine e s) := by
  unfold completeEngine
  split
  · exact .same
  · next cmd h => exact .complete e cmd h

/-- Everything one event can do, apart from the host's response. -/
theorem runEvent_change (ev : Event) (s t : State) (h : runEvent ev s = .next t) :
    ∃ p, Change { s with port := p } t := by
  cases ev with
  | host acc =>
    simp only [runEvent, hostAccess] at h
    split at h
    · cases h; exact ⟨_, .same⟩
    · cases acc with
      | read n a => cases h; exact ⟨_, .read⟩
      | write n a v => exact ⟨_, busWrite_change _ _ _ _ h⟩
  | complete e => cases h; exact ⟨s.port, completeEngine_change e s⟩
  | reset => cases h; exact ⟨s.port, .reset⟩

/-- Everything one step can do: the host's queue and response change, and one `Change` happens. -/
theorem step_change (s t : State) (h : step s = .next t) : ∃ q p, Change { s with inbox := q, port := p } t := by
  unfold step at h
  split at h
  · next ev rest _ =>
    obtain ⟨p, hc⟩ := runEvent_change _ _ _ h
    exact ⟨rest, p, hc⟩
  · unfold idleStep at h
    split at h
    · next e _ => cases h; exact ⟨s.inbox, s.port, completeEngine_change e s⟩
    · cases h; exact ⟨s.inbox, s.port, .same⟩

theorem step_inbox_cons (s : State) (ev : Event) (rest : List Event) (h : s.inbox = ev :: rest) :
    step s = runEvent ev { s with inbox := rest } := by simp [step, h]

theorem step_inbox_nil (s : State) (h : s.inbox = []) : step s = idleStep s := by simp [step, h]

end Sys2Proof.Machine
end

