-- ==== Sys2Proof/Laws/Ideal.lean ====
section
/-! SUPPORT. What an ideal function can answer: the shape of a success (which regions, how many words, which registers) and
the code of a failure. The completion step's laws rest on these. -/
namespace Sys2Proof.Machine

/-! ## Sequences packed into words -/

@[simp] theorem packBytes_length (bs : List Byte) : (packBytes bs).length = wordsFor .byte bs.length := by simp [packBytes]

@[simp] theorem packBits_length (bs : List Bool) : (packBits bs).length = wordsFor .bit bs.length := by simp [packBits]

@[simp] theorem packEntries_length (t : List (Word × Nat)) : (packEntries t).length = wordsFor .entry t.length := by
  induction t with
  | nil => rfl
  | cons p t ih => simp only [packEntries, List.length_cons, ih, wordsFor]; omega

@[simp] theorem State.inWords_length (s : State) (e : Eng) (r : Region) (n : Nat) : (s.inWords e r n).length = n := by
  simp [State.inWords]

@[simp] theorem State.inBytes_length (s : State) (e : Eng) (r : Region) (n : Nat) : (s.inBytes e r n).length = n := by
  simp [State.inBytes]

@[simp] theorem State.inBits_length (s : State) (e : Eng) (r : Region) (n : Nat) : (s.inBits e r n).length = n := by
  simp [State.inBits]

@[simp] theorem State.inEntries_length (s : State) (e : Eng) (r : Region) (n : Nat) : (s.inEntries e r n).length = n := by
  simp [State.inEntries]

/-- A stream within a region's capacity takes no more words than the region has. -/
theorem wordsFor_le_of_capacity {p : Params} {e : Eng} {r : Region} {k : ElemKind} {n : Nat} (hk : elemKind e r = some k)
    (h : n ≤ capacity p e r) : wordsFor k n ≤ p.words e r := by
  unfold capacity at h
  rw [hk] at h
  cases k <;> simp only [wordsFor] at h ⊢ <;> omega

/-! ## Lengths of the codecs' results -/

/-- The stated artifact length of a Golomb-Rice encode is the artifact's. -/
theorem grEncode_length (m : Nat) (s : List Word) : (grEncode m s).length = grLength m s := by
  induction s with
  | nil => rfl
  | cons c s ih =>
    simp only [grEncode, grLength, List.flatMap_cons, List.length_append, List.map_cons, List.sum_cons] at ih ⊢
    rw [ih]; simp only [grCodeword, msbBits, List.length_append, List.length_replicate, List.length_singleton, List.length_map,
      List.length_range]

/-- The stated decoded length of an RLE artifact is that of its expansion. -/
theorem expandRuns_length (rs : List (Nat × Word)) : (expandRuns rs).length = runsLength rs := by
  induction rs with
  | nil => rfl
  | cons p rs ih =>
    simp only [expandRuns, runsLength, List.flatMap_cons, List.length_append, List.map_cons, List.sum_cons] at ih ⊢
    rw [ih]; simp

@[simp] theorem assignAll_length (vs : List (List Nat)) (mus : List (List ℚ)) : (assignAll vs mus).length = vs.length := by
  simp [assignAll]

@[simp] theorem blockVectors_length (g : VqGeom) (raster : List Byte) : (blockVectors g raster).length = g.n := by
  simp [blockVectors]

@[simp] theorem blockVector_length (g : VqGeom) (raster : List Byte) (i : Nat) : (blockVector g raster i).length = g.d := by
  simp [blockVector]

@[simp] theorem vqDecode_length (g : VqGeom) (cb : List Byte) (a : List Nat) : (vqDecode g cb a).length = g.bytes := by
  simp [vqDecode]

@[simp] theorem meanVector_length (d : Nat) (ms : List (List Nat)) : (meanVector d ms).length = d := by simp [meanVector]

@[simp] theorem updateFrom_length (d : Nat) (vs : List (List Nat)) (a : List Nat) (j : Nat) (mus : List (List ℚ)) :
    (updateFrom d vs a j mus).length = mus.length := by
  induction mus generalizing j with
  | nil => rfl
  | cons mu mus ih => simp [updateFrom, ih]

/-- An update keeps the dimension of every centroid. -/
theorem updateFrom_dim (d : Nat) (vs : List (List Nat)) (a : List Nat) (j : Nat) (mus : List (List ℚ))
    (h : ∀ mu ∈ mus, mu.length = d) : ∀ mu ∈ updateFrom d vs a j mus, mu.length = d := by
  induction mus generalizing j with
  | nil => intro mu hm; cases hm
  | cons x mus ih =>
    intro mu hm
    simp only [updateFrom, List.mem_cons] at hm
    rcases hm with rfl | hm
    · split
      · exact h x List.mem_cons_self
      · simp
    · exact ih _ (fun y hy => h y (List.mem_cons_of_mem _ hy)) mu hm

/-- Everything the iterations keep: the number of centroids and their dimension. -/
theorem kmeansLoop_shape (d : Nat) (vs : List (List Nat)) (fuel : Nat) (mus : List (List ℚ))
    (h : ∀ mu ∈ mus, mu.length = d) :
    (kmeansLoop d vs fuel mus).1.length = mus.length ∧ ∀ mu ∈ (kmeansLoop d vs fuel mus).1, mu.length = d := by
  induction fuel generalizing mus with
  | zero => exact ⟨rfl, h⟩
  | succ fuel ih =>
    have hd : ∀ mu ∈ updateAll d vs (assignAll vs mus) mus, mu.length = d := updateFrom_dim d vs _ 0 mus h
    have hl : (updateAll d vs (assignAll vs mus) mus).length = mus.length := updateFrom_length d vs _ 0 mus
    simp only [kmeansLoop]
    split
    · exact ⟨hl, hd⟩
    · exact ⟨(ih _ hd).1.trans hl, (ih _ hd).2⟩

theorem sum_length_eq_mul {α : Type} (d : Nat) (l : List (List α)) (h : ∀ x ∈ l, x.length = d) :
    l.flatten.length = l.length * d := by
  induction l with
  | nil => simp
  | cons x l ih =>
    rw [List.flatten_cons, List.length_append, ih fun y hy => h y (List.mem_cons_of_mem _ hy), h x List.mem_cons_self,
      List.length_cons, Nat.succ_mul, Nat.add_comm]

/-- The codebook of an encode from valid initial indices has one entry of D bytes per index. -/
theorem vqEncode_codebook_length (g : VqGeom) (maxIter : Nat) (raster : List Byte) (idx : List Nat)
    (h : ∀ i ∈ idx, i < g.n) :
    (vqEncode g maxIter (blockVectors g raster) idx).codebook.flatten.length = idx.length * g.d := by
  have h0 : ∀ mu ∈ idx.map (fun j => ((blockVectors g raster).getD j []).map fun x => ((x : Nat) : ℚ)), mu.length = g.d := by
    intro mu hm
    obtain ⟨j, hj, rfl⟩ := List.mem_map.1 hm
    simp [List.getD, blockVectors]
    rw [List.getElem?_range (h j hj)]; simp
  obtain ⟨hl, hd⟩ := kmeansLoop_shape g.d (blockVectors g raster) maxIter _ h0
  have hcb : ∀ (mus : List (List ℚ)), (∀ mu ∈ mus, mu.length = g.d) →
      (codebookOf mus).flatten.length = mus.length * g.d := by
    intro mus hm
    rw [sum_length_eq_mul g.d _ ?_]
    · simp [codebookOf]
    · intro x hx
      obtain ⟨mu, hmu, rfl⟩ := List.mem_map.1 hx
      simpa using hm mu hmu
  simp only [vqEncode]
  split
  · next h => subst h; simp [codebookOf]
  · rw [hcb _ hd, hl]; simp

@[simp] theorem vqEncode_assignments_length (g : VqGeom) (maxIter : Nat) (raster : List Byte) (idx : List Nat) :
    (vqEncode g maxIter (blockVectors g raster) idx).assignments.length = g.n := by simp [vqEncode]

/-! ## Initial indices -/

/-- A list without a bad or repeated element: every element is good, none repeats. -/
theorem firstBadOrRepeated_none {α : Type} [DecidableEq α] (ok : α → Bool) (seen : List α) (i : Nat) (l : List α)
    (h : firstBadOrRepeated ok seen i l = none) : (∀ x ∈ l, ok x = true ∧ x ∉ seen) ∧ l.Nodup := by
  induction l generalizing seen i with
  | nil => exact ⟨fun x hx => by simp at hx, List.nodup_nil⟩
  | cons y l ih =>
    simp only [firstBadOrRepeated] at h
    split at h
    · cases h
    · next hy =>
      simp only [Bool.or_eq_true, Bool.not_eq_true', decide_eq_true_eq, not_or, Bool.not_eq_false] at hy
      obtain ⟨h1, h2⟩ := ih _ _ h
      refine ⟨fun x hx => ?_, List.nodup_cons.2 ⟨fun hm => (h1 y hm).2 List.mem_cons_self, h2⟩⟩
      rcases List.mem_cons.1 hx with rfl | hx
      · exact hy
      · exact ⟨(h1 x hx).1, fun hs => (h1 x hx).2 (List.mem_cons_of_mem _ hs)⟩

@[simp] theorem drawIndices_length (choice : Nat → Nat) (k : Nat) (pool : List Nat) :
    (drawIndices choice k pool).length = k := by
  induction k generalizing pool with
  | zero => rfl
  | succ k ih => simp [drawIndices, ih]

/-- Drawn indices come from the pool. -/
theorem drawIndices_subset (choice : Nat → Nat) (k : Nat) (pool : List Nat) (h : k ≤ pool.length) :
    ∀ i ∈ drawIndices choice k pool, i ∈ pool := by
  induction k generalizing pool with
  | zero => intro i hi; cases hi
  | succ k ih =>
    intro i hi
    have hp : choice k % pool.length < pool.length := Nat.mod_lt _ (by omega)
    simp only [drawIndices, List.mem_cons] at hi
    rcases hi with rfl | hi
    · rw [List.getD_eq_getElem _ _ hp]; exact List.getElem_mem hp
    · refine List.mem_of_mem_eraseIdx (ih _ ?_ i hi)
      rw [List.length_eraseIdx_of_lt hp]; omega

/-- The initial indices of a START_ENC that passes its checks: k of them, all below N. -/
theorem vqInitial_ok {s : State} {n k : Nat} {idx : List Nat} (hk : k ≤ n) (h : vqInitial s n k = .ok idx) :
    idx.length = k ∧ ∀ i ∈ idx, i < n := by
  unfold vqInitial at h
  split at h
  · split at h
    · cases h
    · dsimp only at h
      split at h
      · cases h
      · next hn =>
        cases h
        exact ⟨by simp, fun i hi => by simpa using ((firstBadOrRepeated_none _ _ _ _ hn).1 i hi).1⟩
  · cases h
    exact ⟨by simp, fun i hi => List.mem_range.1 (drawIndices_subset _ _ _ (by simpa using hk) i hi)⟩

/-! ## Failures carry an error code -/

theorem rleScan_code (i : Nat) (st : Option Nat) (cnt : Nat) (l : List Word) (x : Err) (h : rleScan i st cnt l = .error x) :
    x.code = .malformed := by
  induction l generalizing i st cnt x with
  | nil => cases st <;> simp only [rleScan] at h <;> cases h; rfl
  | cons c l ih =>
    simp only [rleScan] at h
    split at h
    · cases h; rfl
    · split at h
      · exact ih _ _ _ _ h
      · split at h
        · cases h; rfl
        · split at h
          · cases h
          · next hx => cases h; exact ih _ _ _ _ hx

theorem grLoop_code (m fuel start : Nat) (l : List Bool) (x : Err) (h : grLoop m fuel start l = .error x) :
    x.code = .malformed := by
  induction fuel generalizing start l x with
  | zero => cases l <;> simp [grLoop] at h; subst h; rfl
  | succ fuel ih =>
    cases l with
    | nil => simp [grLoop] at h
    | cons b l =>
      simp only [grLoop] at h
      split at h
      · cases h; rfl
      · split at h
        · cases h; rfl
        · split at h
          · cases h; rfl
          · split at h
            · cases h
            · next hx => cases h; exact ih _ _ _ hx

theorem hufWalk_code (root : HufTree) (cur : Option HufTree) (i start : Nat) (l : List Bool) (x : Err)
    (h : hufWalk root cur i start l = .error x) : x.code = .malformed := by
  induction l generalizing cur i start x with
  | nil => cases cur <;> simp [hufWalk] at h; subst h; rfl
  | cons b l ih =>
    simp only [hufWalk] at h
    split at h
    · split at h
      · cases h
      · next hx => cases h; exact ih _ _ _ _ hx
    · exact ih _ _ _ _ h

theorem hufDecode_code (t : List (Word × Nat)) (b : List Bool) (x : Err) (h : hufDecode t b = .error x) :
    x.code = .malformed := by
  unfold hufDecode at h
  split at h
  · cases h; rfl
  · split at h
    · split at h <;> cases h; rfl
    · split at h <;> cases h; rfl
    · exact hufWalk_code _ _ _ _ _ _ h

theorem lzwDecode_code (c : List Nat) (x : Err) (h : lzwDecode c = .error x) : x.code = .malformed := by
  unfold lzwDecode at h
  split at h
  · cases h; rfl
  · split at h <;> cases h

theorem vqConfigError_code {s : State} {b : Bool} {x : Err} (h : vqConfigError s b = some x) : x.code = .config := by
  unfold vqConfigError at h
  repeat' split at h
  all_goals cases h
  all_goals rfl

theorem vqShapeError_code {s : State} {g : VqGeom} {x : Err} (h : vqShapeError s g = some x) : x.code ≠ .none := by
  unfold vqShapeError at h
  repeat' split at h
  all_goals cases h
  all_goals simp [Err.malformedReg, Err.configReg]

theorem vqInitial_code {s : State} {n k : Nat} {x : Err} (h : vqInitial s n k = .error x) : x.code = .config := by
  unfold vqInitial at h
  split at h
  · split at h
    · cases h; rfl
    · dsimp only at h
      split at h <;> cases h; rfl
  · cases h

/-! ## The shape of a success -/

/-- What a success publishes fits: the streams are exactly the command's output regions, no stream has more words than its
region, and the registers written are exactly the command's output registers. -/
structure Outputs.Fits (p : Params) (e : Eng) (cmd : StartCmd) (o : Outputs) : Prop where
  regions : o.words.map Prod.fst = outRegions e cmd
  lengths : ∀ x ∈ o.words, x.2.length ≤ p.words e x.1
  regs : o.regs.map Prod.fst = outRegs e cmd

theorem idealRlee_fits {s : State} {o : Outputs} (h : idealRlee s = .ok o) : o.Fits s.params .rlee .start := by
  unfold idealRlee at h
  dsimp only at h
  repeat' split at h
  all_goals cases h
  next hc =>
    refine ⟨rfl, fun x hx => ?_, rfl⟩
    cases List.mem_singleton.1 hx
    exact wordsFor_le_of_capacity (k := .word) rfl (by dsimp only; omega)

theorem idealRled_fits {s : State} {o : Outputs} (h : idealRled s = .ok o) : o.Fits s.params .rled .start := by
  unfold idealRled at h
  dsimp only at h
  repeat' split at h
  all_goals cases h
  next hc =>
    refine ⟨rfl, fun x hx => ?_, rfl⟩
    cases List.mem_singleton.1 hx
    exact wordsFor_le_of_capacity (k := .word) rfl (by dsimp only; rw [expandRuns_length]; omega)

theorem idealGre_fits {s : State} {o : Outputs} (h : idealGre s = .ok o) : o.Fits s.params .gre .start := by
  unfold idealGre at h
  dsimp only at h
  repeat' split at h
  all_goals cases h
  next hc =>
    refine ⟨rfl, fun x hx => ?_, rfl⟩
    cases List.mem_singleton.1 hx
    simp only [packBits_length, grEncode_length]
    exact wordsFor_le_of_capacity (k := .bit) rfl (by omega)

theorem idealGrd_fits {s : State} {o : Outputs} (h : idealGrd s = .ok o) : o.Fits s.params .grd .start := by
  unfold idealGrd at h
  dsimp only at h
  repeat' split at h
  all_goals cases h
  next hc =>
    refine ⟨rfl, fun x hx => ?_, rfl⟩
    cases List.mem_singleton.1 hx
    exact wordsFor_le_of_capacity (k := .word) rfl (by dsimp only; omega)

theorem idealHufe_fits {s : State} {o : Outputs} (h : idealHufe s = .ok o) : o.Fits s.params .hufe .start := by
  unfold idealHufe at h
  dsimp only at h
  repeat' split at h
  all_goals cases h
  next h3 h2 =>
    refine ⟨rfl, fun x hx => ?_, rfl⟩
    simp only [List.mem_cons, List.not_mem_nil, or_false] at hx
    rcases hx with rfl | rfl
    · simp only [packBits_length]
      exact wordsFor_le_of_capacity (k := .bit) rfl (by omega)
    · simp only [packEntries_length]
      exact wordsFor_le_of_capacity (k := .entry) rfl (by omega)

theorem idealHufd_fits {s : State} {o : Outputs} (h : idealHufd s = .ok o) : o.Fits s.params .hufd .start := by
  unfold idealHufd at h
  dsimp only at h
  repeat' split at h
  all_goals cases h
  next hc =>
    refine ⟨rfl, fun x hx => ?_, rfl⟩
    cases List.mem_singleton.1 hx
    exact wordsFor_le_of_capacity (k := .word) rfl (by dsimp only; omega)

theorem idealLzwe_fits {s : State} {o : Outputs} (h : idealLzwe s = .ok o) : o.Fits s.params .lzwe .start := by
  unfold idealLzwe at h
  dsimp only at h
  repeat' split at h
  all_goals cases h
  next hc =>
    refine ⟨rfl, fun x hx => ?_, rfl⟩
    cases List.mem_singleton.1 hx
    exact wordsFor_le_of_capacity (k := .word) rfl (by simp; omega)

theorem idealLzwd_fits {s : State} {o : Outputs} (h : idealLzwd s = .ok o) : o.Fits s.params .lzwd .start := by
  unfold idealLzwd at h
  dsimp only at h
  repeat' split at h
  all_goals cases h
  next hc =>
    refine ⟨rfl, fun x hx => ?_, rfl⟩
    cases List.mem_singleton.1 hx
    simp only [packBytes_length]
    exact wordsFor_le_of_capacity (k := .byte) rfl (by omega)

theorem idealVqEnc_fits {s : State} {o : Outputs} (h : idealVqEnc s = .ok o) : o.Fits s.params .vq .start := by
  unfold idealVqEnc at h
  split at h
  · cases h
  · dsimp only at h
    split at h
    · cases h
    · next idx hidx =>
      obtain ⟨hl, hlt⟩ := vqInitial_ok (Nat.min_le_right _ _) hidx
      repeat' split at h
      all_goals cases h
      next h2 h3 =>
        refine ⟨rfl, fun x hx => ?_, rfl⟩
        simp only [List.mem_cons, List.not_mem_nil, or_false] at hx
        rcases hx with rfl | rfl
        · simp only [packBytes_length, List.length_map, vqEncode_codebook_length _ _ _ _ hlt, hl]
          exact wordsFor_le_of_capacity (k := .byte) rfl (Nat.le_of_not_lt h2)
        · simp only [List.length_map, vqEncode_assignments_length]
          exact wordsFor_le_of_capacity (k := .word) rfl (Nat.le_of_not_lt h3)

theorem idealVqDec_fits {s : State} {o : Outputs} (h : idealVqDec s = .ok o) : o.Fits s.params .vq .startDec := by
  unfold idealVqDec at h
  split at h
  · cases h
  · next hcfg =>
    dsimp only at h
    repeat' split at h
    all_goals cases h
    refine ⟨rfl, fun x hx => ?_, rfl⟩
    cases List.mem_singleton.1 hx
    simp only [packBytes_length, vqDecode_length]
    refine wordsFor_le_of_capacity (k := .byte) rfl ?_
    unfold vqConfigError at hcfg
    repeat' split at hcfg
    all_goals cases hcfg
    exact Nat.le_of_not_lt ‹_›

/-- Every success fits, whichever command is running. -/
theorem ideal_fits {e : Eng} {cmd : StartCmd} {s : State} {o : Outputs} (h : ideal e cmd s = .ok o) :
    o.Fits s.params e cmd := by
  cases e
  case rlee => cases cmd <;> exact ⟨(idealRlee_fits h).regions, (idealRlee_fits h).lengths, (idealRlee_fits h).regs⟩
  case rled => cases cmd <;> exact ⟨(idealRled_fits h).regions, (idealRled_fits h).lengths, (idealRled_fits h).regs⟩
  case gre => cases cmd <;> exact ⟨(idealGre_fits h).regions, (idealGre_fits h).lengths, (idealGre_fits h).regs⟩
  case grd => cases cmd <;> exact ⟨(idealGrd_fits h).regions, (idealGrd_fits h).lengths, (idealGrd_fits h).regs⟩
  case hufe => cases cmd <;> exact ⟨(idealHufe_fits h).regions, (idealHufe_fits h).lengths, (idealHufe_fits h).regs⟩
  case hufd => cases cmd <;> exact ⟨(idealHufd_fits h).regions, (idealHufd_fits h).lengths, (idealHufd_fits h).regs⟩
  case lzwe => cases cmd <;> exact ⟨(idealLzwe_fits h).regions, (idealLzwe_fits h).lengths, (idealLzwe_fits h).regs⟩
  case lzwd => cases cmd <;> exact ⟨(idealLzwd_fits h).regions, (idealLzwd_fits h).lengths, (idealLzwd_fits h).regs⟩
  case vq =>
    cases cmd
    · exact idealVqEnc_fits h
    · exact idealVqDec_fits h

/-! ## The code of a failure -/

theorem idealRlee_code {s : State} {x : Err} (h : idealRlee s = .error x) : x.code ≠ .none := by
  unfold idealRlee rleEncode at h
  dsimp only at h
  split at h
  · cases h; simp [Err.configReg]
  · split at h
    · next hx => cases h; split at hx <;> cases hx; simp [Err.unsupported]
    · split at h <;> cases h; simp [Err.resource]

theorem idealRled_code {s : State} {x : Err} (h : idealRled s = .error x) : x.code ≠ .none := by
  unfold idealRled at h
  dsimp only at h
  split at h
  · cases h; simp [Err.configReg]
  · split at h
    · next hx => cases h; simp [rleScan_code _ _ _ _ _ hx]
    · split at h <;> cases h; simp [Err.resource]

theorem idealGre_code {s : State} {x : Err} (h : idealGre s = .error x) : x.code ≠ .none := by
  unfold idealGre at h
  dsimp only at h
  repeat' split at h
  all_goals cases h
  all_goals simp [Err.configReg, Err.resource, Err.unsupported]

theorem idealGrd_code {s : State} {x : Err} (h : idealGrd s = .error x) : x.code ≠ .none := by
  unfold idealGrd at h
  dsimp only at h
  split at h
  · cases h; simp [Err.configReg]
  · split at h
    · cases h; simp [Err.configReg]
    · split at h
      · next hx => cases h; simp [grLoop_code _ _ _ _ _ hx]
      · split at h <;> cases h; simp [Err.resource]

theorem idealHufe_code {s : State} {x : Err} (h : idealHufe s = .error x) : x.code ≠ .none := by
  unfold idealHufe at h
  dsimp only at h
  repeat' split at h
  all_goals cases h
  all_goals simp [Err.configReg, Err.resource, Err.unsupported]

theorem idealHufd_code {s : State} {x : Err} (h : idealHufd s = .error x) : x.code ≠ .none := by
  unfold idealHufd at h
  dsimp only at h
  split at h
  · cases h; simp [Err.configReg]
  · split at h
    · cases h; simp [Err.configReg]
    · split at h
      · next hx => cases h; simp [hufDecode_code _ _ _ hx]
      · split at h <;> cases h; simp [Err.resource]

theorem idealLzwe_code {s : State} {x : Err} (h : idealLzwe s = .error x) : x.code ≠ .none := by
  unfold idealLzwe at h
  dsimp only at h
  repeat' split at h
  all_goals cases h
  all_goals simp [Err.configReg, Err.resource]

theorem idealLzwd_code {s : State} {x : Err} (h : idealLzwd s = .error x) : x.code ≠ .none := by
  unfold idealLzwd at h
  dsimp only at h
  split at h
  · cases h; simp [Err.configReg]
  · split at h
    · next hx => cases h; simp [lzwDecode_code _ _ hx]
    · repeat' split at h
      all_goals cases h
      all_goals simp [Err.resource]

theorem idealVqEnc_code {s : State} {x : Err} (h : idealVqEnc s = .error x) : x.code ≠ .none := by
  unfold idealVqEnc at h
  split at h
  · next hx => cases h; simp [vqConfigError_code hx]
  · dsimp only at h
    split at h
    · next hx => cases h; simp [vqInitial_code hx]
    · repeat' split at h
      all_goals cases h
      all_goals simp [Err.resource]

theorem idealVqDec_code {s : State} {x : Err} (h : idealVqDec s = .error x) : x.code ≠ .none := by
  unfold idealVqDec at h
  split at h
  · next hx => cases h; simp [vqConfigError_code hx]
  · dsimp only at h
    split at h
    · next hx => cases h; exact vqShapeError_code hx
    · split at h <;> cases h; simp [Err.malformed]

/-- No failure has the code NONE (R1002). -/
theorem ideal_code {e : Eng} {cmd : StartCmd} {s : State} {x : Err} (h : ideal e cmd s = .error x) : x.code ≠ .none := by
  cases e
  case rlee => exact idealRlee_code h
  case rled => exact idealRled_code h
  case gre => exact idealGre_code h
  case grd => exact idealGrd_code h
  case hufe => exact idealHufe_code h
  case hufd => exact idealHufd_code h
  case lzwe => exact idealLzwe_code h
  case lzwd => exact idealLzwd_code h
  case vq =>
    cases cmd
    · exact idealVqEnc_code h
    · exact idealVqDec_code h

end Sys2Proof.Machine
end

