-- ==== Sys2Proof/Laws/PerInstr.lean ====
section
/-! SUPPORT. Per-instruction lemmas: the fields of every command's word. -/
namespace Sys2Proof.Laws.EncodedWord

/-- The command is well formed and its word has RSV = 0, ENG = the engine's id and OP = the command's operation
(30_encoding.md R300). -/
def Statement (i : Instr) : Prop :=
  i.wellFormed = true ∧ cmdRsv (encode i) = 0 ∧ cmdEng (encode i) = i.engine.id ∧ cmdOp (encode i) = i.op.toNat

theorem rleeNop : Statement .rleeNop := by unfold Statement; decide
theorem rleeStart : Statement .rleeStart := by unfold Statement; decide
theorem rleeClear : Statement .rleeClear := by unfold Statement; decide
theorem rledNop : Statement .rledNop := by unfold Statement; decide
theorem rledStart : Statement .rledStart := by unfold Statement; decide
theorem rledClear : Statement .rledClear := by unfold Statement; decide
theorem greNop : Statement .greNop := by unfold Statement; decide
theorem greStart : Statement .greStart := by unfold Statement; decide
theorem greClear : Statement .greClear := by unfold Statement; decide
theorem grdNop : Statement .grdNop := by unfold Statement; decide
theorem grdStart : Statement .grdStart := by unfold Statement; decide
theorem grdClear : Statement .grdClear := by unfold Statement; decide
theorem hufeNop : Statement .hufeNop := by unfold Statement; decide
theorem hufeStart : Statement .hufeStart := by unfold Statement; decide
theorem hufeClear : Statement .hufeClear := by unfold Statement; decide
theorem hufdNop : Statement .hufdNop := by unfold Statement; decide
theorem hufdStart : Statement .hufdStart := by unfold Statement; decide
theorem hufdClear : Statement .hufdClear := by unfold Statement; decide
theorem lzweNop : Statement .lzweNop := by unfold Statement; decide
theorem lzweStart : Statement .lzweStart := by unfold Statement; decide
theorem lzweClear : Statement .lzweClear := by unfold Statement; decide
theorem lzwdNop : Statement .lzwdNop := by unfold Statement; decide
theorem lzwdStart : Statement .lzwdStart := by unfold Statement; decide
theorem lzwdClear : Statement .lzwdClear := by unfold Statement; decide
theorem vqNop : Statement .vqNop := by unfold Statement; decide
theorem vqStartEnc : Statement .vqStartEnc := by unfold Statement; decide
theorem vqStartDec : Statement .vqStartDec := by unfold Statement; decide
theorem vqClear : Statement .vqClear := by unfold Statement; decide

end Sys2Proof.Laws.EncodedWord
end

