-- ==== Sys2Proof/Tests/Slice0.lean ====
section
/-! SUPPORT. The model's own tests: well-formedness, decoding of words written out from the spec's encodings, single steps
with the results of spec/95_test_vectors.md, and a witness for the hypotheses of every statement. -/
namespace Sys2Proof.Tests

set_option Elab.async false

open Sys2Proof Sys2Proof.Machine

/-! ## Small states -/

/-- Small legal parameters: 32 words a used region. -/
def p0 : Params :=
  { regionWords :=
      { rlee := ⟨32, 32, 0, 0⟩
        rled := ⟨32, 32, 0, 0⟩
        gre := ⟨32, 32, 0, 0⟩
        grd := ⟨32, 32, 0, 0⟩
        hufe := ⟨32, 32, 32, 0⟩
        hufd := ⟨32, 32, 32, 0⟩
        lzwe := ⟨32, 32, 0, 0⟩
        lzwd := ⟨32, 32, 0, 0⟩
        vq := ⟨32, 32, 32, 32⟩ }
    lzwDictCap := 512
    vqMaxBs := 16
    vqMaxBlocks := 64 }

/-- The block right after reset with those parameters. -/
def s0 : State := .resetWith p0

/-- Words loaded at the start of a region. -/
def load (s : State) (e : Eng) (r : Region) (ws : List Word) : State := s.setMem (s.mem.setWords (regionBase e r) ws)

/-- The state after engine `e` accepted the START. -/
def busy (s : State) (e : Eng) (cmd : StartCmd) : State := s.startFrame e cmd

/-- The state after a completion with no effect but the flags: DONE, as a stale success. -/
def stale (e : Eng) : State := s0.setCtl e { Ctl.reset with done := true, dropped := true, irqEn := true }

/-- The engine's STATUS, some registers and the first words of a region. -/
def view (s : State) (e : Eng) (regs : List Reg) (r : Region) (n : Nat) : Word × List Word × List (Option Word) :=
  (s.readReg e .status, regs.map (s.readReg e), (List.range n).map fun j => s.word? (wordAddr e r j))

/-- The state a step answers, with the state itself where it does not. -/
def after (o : Host.Outcome State Fault Refusal) (s : State) : State :=
  match o with
  | .next t => t
  | .fault _ => s
  | .refused _ => s

/-- Does a step answer exactly this next state? -/
def answers (o : Host.Outcome State Fault Refusal) (t : State) : Bool :=
  match o with
  | .next u => decide (u = t)
  | .fault _ => false
  | .refused _ => false

/-! ## Well-formedness: an ill-formed term for each check -/

theorem test_wf_access : (Access.rd32 0x02000008#32).wellFormed = true := by decide
theorem test_illFormed_size : (Access.read 16 0x02000008#32).wellFormed = false := by decide
theorem test_illFormed_alignment : (Access.wr32 0x02000009#32 0#32).wellFormed = false := by decide
theorem test_illFormed_both : (Access.write 8 0x02000002#32 0#32).wellFormed = false := by decide
theorem test_wf_instr : Instr.all.all Instr.wellFormed = true := by decide
theorem test_instr_all : Instr.all.length = 28 ∧ Instr.all.Nodup := by decide
theorem test_legal : p0.legal = true := by decide
theorem test_illFormed_usedRegionEmpty :
    Params.regionLegal { p0 with regionWords := { p0.regionWords with rlee := ⟨0, 32, 0, 0⟩ } } .rlee .r1 = false := by decide
theorem test_illFormed_usedRegionTooLarge :
    Params.regionLegal { p0 with regionWords := { p0.regionWords with vq := ⟨32, 32, 32, 1048577⟩ } } .vq .r4 = false := by
  decide
theorem test_illFormed_unusedRegion :
    Params.legal { p0 with regionWords := { p0.regionWords with gre := ⟨32, 32, 1, 0⟩ } } = false := by decide
theorem test_illFormed_dictCapLow : Params.legal { p0 with lzwDictCap := 255 } = false := by decide
theorem test_illFormed_dictCapHigh : Params.legal { p0 with lzwDictCap := 2147483649 } = false := by decide
theorem test_illFormed_maxBsLow : Params.legal { p0 with vqMaxBs := 0 } = false := by decide
theorem test_illFormed_maxBsHigh : Params.legal { p0 with vqMaxBs := 256 } = false := by decide
theorem test_illFormed_maxBlocks : Params.legal { p0 with vqMaxBlocks := 1048577 } = false := by decide

/-! ## Decoding: words written out as RSV[31:16] ENG[15:8] OP[7:0] (30_encoding.md R300, R305) -/

theorem test_decode_rlee :
    decode 0b0000000000000000_00000000_00000000#32 = .ok .rleeNop ∧
    decode 0b0000000000000000_00000000_00000001#32 = .ok .rleeStart ∧
    decode 0b0000000000000000_00000000_00001111#32 = .ok .rleeClear := by decide

theorem test_decode_rled :
    decode 0b0000000000000000_00000001_00000000#32 = .ok .rledNop ∧
    decode 0b0000000000000000_00000001_00000001#32 = .ok .rledStart ∧
    decode 0b0000000000000000_00000001_00001111#32 = .ok .rledClear := by decide

theorem test_decode_gre :
    decode 0b0000000000000000_00000010_00000000#32 = .ok .greNop ∧
    decode 0b0000000000000000_00000010_00000001#32 = .ok .greStart ∧
    decode 0b0000000000000000_00000010_00001111#32 = .ok .greClear := by decide

theorem test_decode_grd :
    decode 0b0000000000000000_00000011_00000000#32 = .ok .grdNop ∧
    decode 0b0000000000000000_00000011_00000001#32 = .ok .grdStart ∧
    decode 0b0000000000000000_00000011_00001111#32 = .ok .grdClear := by decide

theorem test_decode_hufe :
    decode 0b0000000000000000_00000100_00000000#32 = .ok .hufeNop ∧
    decode 0b0000000000000000_00000100_00000001#32 = .ok .hufeStart ∧
    decode 0b0000000000000000_00000100_00001111#32 = .ok .hufeClear := by decide

theorem test_decode_hufd :
    decode 0b0000000000000000_00000101_00000000#32 = .ok .hufdNop ∧
    decode 0b0000000000000000_00000101_00000001#32 = .ok .hufdStart ∧
    decode 0b0000000000000000_00000101_00001111#32 = .ok .hufdClear := by decide

theorem test_decode_lzwe :
    decode 0b0000000000000000_00000110_00000000#32 = .ok .lzweNop ∧
    decode 0b0000000000000000_00000110_00000001#32 = .ok .lzweStart ∧
    decode 0b0000000000000000_00000110_00001111#32 = .ok .lzweClear := by decide

theorem test_decode_lzwd :
    decode 0b0000000000000000_00000111_00000000#32 = .ok .lzwdNop ∧
    decode 0b0000000000000000_00000111_00000001#32 = .ok .lzwdStart ∧
    decode 0b0000000000000000_00000111_00001111#32 = .ok .lzwdClear := by decide

theorem test_decode_vq :
    decode 0b0000000000000000_00001000_00000000#32 = .ok .vqNop ∧
    decode 0b0000000000000000_00001000_00000001#32 = .ok .vqStartEnc ∧
    decode 0b0000000000000000_00001000_00000010#32 = .ok .vqStartDec ∧
    decode 0b0000000000000000_00001000_00001111#32 = .ok .vqClear := by decide

theorem test_decode_reserved : decode 0b0000000000000001_00000000_00000001#32 = .error .reservedBits ∧
    decode 0b1000000000000000_00001000_00000010#32 = .error .reservedBits := by decide
theorem test_decode_noEngine : decode 0b0000000000000000_00001001_00000001#32 = .error .noSuchEngine ∧
    decode 0b0000000000000000_11111111_00000000#32 = .error .noSuchEngine := by decide
theorem test_decode_illegalOp : decode 0b0000000000000000_00000111_00000010#32 = .error .illegalOp ∧
    decode 0b0000000000000000_00001000_00000011#32 = .error .illegalOp ∧
    decode 0b0000000000000000_00000000_00010000#32 = .error .illegalOp ∧
    decode 0b0000000000000000_00000000_00001110#32 = .error .illegalOp := by decide
theorem test_decode_wrongEngine : decodeFor .rlee 0b0000000000000000_00000100_00000001#32 = .error .wrongEngine := by decide
theorem test_encode_vqStartDec : encode .vqStartDec = 0x00000802#32 := by decide
theorem test_decodeTableWord : decodeTableWord 32 0x0000070F = some .lzwdClear ∧ decodeTableWord 32 0x00010000 = none ∧
    decodeTableWord 16 0x00000802 = some .vqStartDec := by decide

/-! ## Addresses (20_memory.md R201 to R204; 10_state.md R107) -/

theorem test_target_regs : busTarget p0 0x0A000014 = .reg .hufe .inLen ∧ busTarget p0 0x12000078 = .reg .vq .vqNsamp ∧
    busTarget p0 0 = .blkId ∧ busTarget p0 4 = .blkIrqPending := by decide
theorem test_target_words : busTarget p0 0x0A400008 = .word .hufe .r1 2 ∧ busTarget p0 0x1300007C = .word .vq .r4 31 ∧
    busTarget p0 0x13000080 = .hole .vq ∧ busTarget p0 0x0200001C = .hole .rlee ∧ busTarget p0 0x14000000 = .unmapped := by
  decide

/-! ## Single steps: commands -/

/-- 40_commands.md R403: NOP changes nothing, a stale DONE included. -/
theorem test_rleeNop : answers (exec .rleeNop (stale .rlee)) (stale .rlee) = true := by decide +kernel
/-- 40_commands.md R404: CLEAR clears STATUS and keeps CTRL. -/
theorem test_rleeClear : view (after (exec .rleeClear (stale .rlee)) s0) .rlee [.ctrl, .errLoc] .r1 0 = (0#32, [1#32, 0#32], []) := by
  decide +kernel

/-- 40_commands.md R405: START sets BUSY, clears DONE and keeps DROPPED. -/
theorem test_rleeStart : (after (exec .rleeStart (stale .rlee)) s0).readReg .rlee .status = 0x00000009#32 := by decide +kernel
/-- 40_commands.md R401: a START of a BUSY engine is dropped. -/
theorem test_rleeStart_busy : answers (exec .rleeStart (busy s0 .rlee .start))
    ((busy s0 .rlee .start).drop .rlee) = true := by decide +kernel

/-- 40_commands.md R403: NOP changes nothing, a stale DONE included. -/
theorem test_rledNop : answers (exec .rledNop (stale .rled)) (stale .rled) = true := by decide +kernel
/-- 40_commands.md R404: CLEAR clears STATUS and keeps CTRL. -/
theorem test_rledClear : view (after (exec .rledClear (stale .rled)) s0) .rled [.ctrl, .errLoc] .r1 0 = (0#32, [1#32, 0#32], []) := by
  decide +kernel

/-- 40_commands.md R405: START sets BUSY, clears DONE and keeps DROPPED. -/
theorem test_rledStart : (after (exec .rledStart (stale .rled)) s0).readReg .rled .status = 0x00000009#32 := by decide +kernel
/-- 40_commands.md R401: a START of a BUSY engine is dropped. -/
theorem test_rledStart_busy : answers (exec .rledStart (busy s0 .rled .start))
    ((busy s0 .rled .start).drop .rled) = true := by decide +kernel

/-- 40_commands.md R403: NOP changes nothing, a stale DONE included. -/
theorem test_greNop : answers (exec .greNop (stale .gre)) (stale .gre) = true := by decide +kernel
/-- 40_commands.md R404: CLEAR clears STATUS and keeps CTRL. -/
theorem test_greClear : view (after (exec .greClear (stale .gre)) s0) .gre [.ctrl, .errLoc] .r1 0 = (0#32, [1#32, 0#32], []) := by
  decide +kernel

/-- 40_commands.md R405: START sets BUSY, clears DONE and keeps DROPPED. -/
theorem test_greStart : (after (exec .greStart (stale .gre)) s0).readReg .gre .status = 0x00000009#32 := by decide +kernel
/-- 40_commands.md R401: a START of a BUSY engine is dropped. -/
theorem test_greStart_busy : answers (exec .greStart (busy s0 .gre .start))
    ((busy s0 .gre .start).drop .gre) = true := by decide +kernel

/-- 40_commands.md R403: NOP changes nothing, a stale DONE included. -/
theorem test_grdNop : answers (exec .grdNop (stale .grd)) (stale .grd) = true := by decide +kernel
/-- 40_commands.md R404: CLEAR clears STATUS and keeps CTRL. -/
theorem test_grdClear : view (after (exec .grdClear (stale .grd)) s0) .grd [.ctrl, .errLoc] .r1 0 = (0#32, [1#32, 0#32], []) := by
  decide +kernel

/-- 40_commands.md R405: START sets BUSY, clears DONE and keeps DROPPED. -/
theorem test_grdStart : (after (exec .grdStart (stale .grd)) s0).readReg .grd .status = 0x00000009#32 := by decide +kernel
/-- 40_commands.md R401: a START of a BUSY engine is dropped. -/
theorem test_grdStart_busy : answers (exec .grdStart (busy s0 .grd .start))
    ((busy s0 .grd .start).drop .grd) = true := by decide +kernel

/-- 40_commands.md R403: NOP changes nothing, a stale DONE included. -/
theorem test_hufeNop : answers (exec .hufeNop (stale .hufe)) (stale .hufe) = true := by decide +kernel
/-- 40_commands.md R404: CLEAR clears STATUS and keeps CTRL. -/
theorem test_hufeClear : view (after (exec .hufeClear (stale .hufe)) s0) .hufe [.ctrl, .errLoc] .r1 0 = (0#32, [1#32, 0#32], []) := by
  decide +kernel

/-- 40_commands.md R405: START sets BUSY, clears DONE and keeps DROPPED. -/
theorem test_hufeStart : (after (exec .hufeStart (stale .hufe)) s0).readReg .hufe .status = 0x00000009#32 := by decide +kernel
/-- 40_commands.md R401: a START of a BUSY engine is dropped. -/
theorem test_hufeStart_busy : answers (exec .hufeStart (busy s0 .hufe .start))
    ((busy s0 .hufe .start).drop .hufe) = true := by decide +kernel

/-- 40_commands.md R403: NOP changes nothing, a stale DONE included. -/
theorem test_hufdNop : answers (exec .hufdNop (stale .hufd)) (stale .hufd) = true := by decide +kernel
/-- 40_commands.md R404: CLEAR clears STATUS and keeps CTRL. -/
theorem test_hufdClear : view (after (exec .hufdClear (stale .hufd)) s0) .hufd [.ctrl, .errLoc] .r1 0 = (0#32, [1#32, 0#32], []) := by
  decide +kernel

/-- 40_commands.md R405: START sets BUSY, clears DONE and keeps DROPPED. -/
theorem test_hufdStart : (after (exec .hufdStart (stale .hufd)) s0).readReg .hufd .status = 0x00000009#32 := by decide +kernel
/-- 40_commands.md R401: a START of a BUSY engine is dropped. -/
theorem test_hufdStart_busy : answers (exec .hufdStart (busy s0 .hufd .start))
    ((busy s0 .hufd .start).drop .hufd) = true := by decide +kernel

/-- 40_commands.md R403: NOP changes nothing, a stale DONE included. -/
theorem test_lzweNop : answers (exec .lzweNop (stale .lzwe)) (stale .lzwe) = true := by decide +kernel
/-- 40_commands.md R404: CLEAR clears STATUS and keeps CTRL. -/
theorem test_lzweClear : view (after (exec .lzweClear (stale .lzwe)) s0) .lzwe [.ctrl, .errLoc] .r1 0 = (0#32, [1#32, 0#32], []) := by
  decide +kernel

/-- 40_commands.md R405: START sets BUSY, clears DONE and keeps DROPPED. -/
theorem test_lzweStart : (after (exec .lzweStart (stale .lzwe)) s0).readReg .lzwe .status = 0x00000009#32 := by decide +kernel
/-- 40_commands.md R401: a START of a BUSY engine is dropped. -/
theorem test_lzweStart_busy : answers (exec .lzweStart (busy s0 .lzwe .start))
    ((busy s0 .lzwe .start).drop .lzwe) = true := by decide +kernel

/-- 40_commands.md R403: NOP changes nothing, a stale DONE included. -/
theorem test_lzwdNop : answers (exec .lzwdNop (stale .lzwd)) (stale .lzwd) = true := by decide +kernel
/-- 40_commands.md R404: CLEAR clears STATUS and keeps CTRL. -/
theorem test_lzwdClear : view (after (exec .lzwdClear (stale .lzwd)) s0) .lzwd [.ctrl, .errLoc] .r1 0 = (0#32, [1#32, 0#32], []) := by
  decide +kernel

/-- 40_commands.md R405: START sets BUSY, clears DONE and keeps DROPPED. -/
theorem test_lzwdStart : (after (exec .lzwdStart (stale .lzwd)) s0).readReg .lzwd .status = 0x00000009#32 := by decide +kernel
/-- 40_commands.md R401: a START of a BUSY engine is dropped. -/
theorem test_lzwdStart_busy : answers (exec .lzwdStart (busy s0 .lzwd .start))
    ((busy s0 .lzwd .start).drop .lzwd) = true := by decide +kernel

/-- 40_commands.md R403: NOP changes nothing, a stale DONE included. -/
theorem test_vqNop : answers (exec .vqNop (stale .vq)) (stale .vq) = true := by decide +kernel
/-- 40_commands.md R404: CLEAR clears STATUS and keeps CTRL. -/
theorem test_vqClear : view (after (exec .vqClear (stale .vq)) s0) .vq [.ctrl, .errLoc] .r1 0 = (0#32, [1#32, 0#32], []) := by
  decide +kernel

/-- 40_commands.md R405: START sets BUSY, clears DONE and keeps DROPPED. -/
theorem test_vqStartEnc : (after (exec .vqStartEnc (stale .vq)) s0).readReg .vq .status = 0x00000009#32 := by decide +kernel
/-- 40_commands.md R401: a START of a BUSY engine is dropped. -/
theorem test_vqStartEnc_busy : answers (exec .vqStartEnc (busy s0 .vq .start))
    ((busy s0 .vq .start).drop .vq) = true := by decide +kernel

/-- 40_commands.md R405: START sets BUSY, clears DONE and keeps DROPPED. -/
theorem test_vqStartDec : (after (exec .vqStartDec (stale .vq)) s0).readReg .vq .status = 0x00000009#32 := by decide +kernel
/-- 40_commands.md R401: a START of a BUSY engine is dropped. -/
theorem test_vqStartDec_busy : answers (exec .vqStartDec (busy s0 .vq .startDec))
    ((busy s0 .vq .startDec).drop .vq) = true := by decide +kernel

/-! ## Single steps: completions, with the results of 95_test_vectors.md -/

/-- V1: "AAAABBDAA" encodes to "4A2B1D2A". -/
def rleeBusy : State :=
  busy (load { s0 with rlee := ⟨9#32, 0#32⟩ } .rlee .r1 [0x41, 0x41, 0x41, 0x41, 0x42, 0x42, 0x44, 0x41, 0x41]) .rlee .start
theorem test_rlee_completion : view (completeEngine .rlee rleeBusy) .rlee [.outLen] .r2 9 =
    (2#32, [8#32], [some 0x34, some 0x41, some 0x32, some 0x42, some 0x31, some 0x44, some 0x32, some 0x41, none]) := by
  decide +kernel

/-- V1: "4A2B1D2A" decodes to "AAAABBDAA". -/
def rledBusy : State :=
  busy (load { s0 with rled := ⟨8#32, 0#32⟩ } .rled .r1 [0x34, 0x41, 0x32, 0x42, 0x31, 0x44, 0x32, 0x41]) .rled .start
theorem test_rled_completion : view (completeEngine .rled rledBusy) .rled [.outLen] .r2 10 =
    (2#32, [9#32], [some 0x41, some 0x41, some 0x41, some 0x41, some 0x42, some 0x42, some 0x44, some 0x41, some 0x41, none]) := by
  decide +kernel

/-- V3: m = 5, "H" encodes to 14 ones, 0, 010 (18 bits). -/
def greBusy : State := busy (load { s0 with gre := ⟨1#32, 0#32, 5#32⟩ } .gre .r1 [0x48]) .gre .start
theorem test_gre_completion : view (completeEngine .gre greBusy) .gre [.outLen] .r2 2 =
    (2#32, [18#32], [some 0b010_0_11111111111111#32, none]) := by decide +kernel

/-- V3: the same 18 bits decode to "H". -/
def grdBusy : State := busy (load { s0 with grd := ⟨18#32, 0#32, 5#32⟩ } .grd .r1 [0b010_0_11111111111111#32]) .grd .start
theorem test_grd_completion : view (completeEngine .grd grdBusy) .grd [.outLen] .r2 2 = (2#32, [1#32], [some 0x48, none]) := by
  decide +kernel

/-- V5: "AAAABBBCCDAA" encodes to the word 0x0003_FD50 (21 bits) and the table A 6, B 3, C 2, D 1. -/
def hufeBusy : State :=
  busy (load { s0 with hufe := ⟨12#32, 0#32, 0#32⟩ } .hufe .r1
    [0x41, 0x41, 0x41, 0x41, 0x42, 0x42, 0x42, 0x43, 0x43, 0x44, 0x41, 0x41]) .hufe .start
theorem test_hufe_completion : view (completeEngine .hufe hufeBusy) .hufe [.outLen, .auxLen] .r2 2 =
    (2#32, [21#32, 4#32], [some 0x0003FD50, none]) ∧ view (completeEngine .hufe hufeBusy) .hufe [] .r3 9 =
    (2#32, [], [some 0x41, some 6, some 0x42, some 3, some 0x43, some 2, some 0x44, some 1, none]) := by decide +kernel

/-- V5: the same bits and table decode to "AAAABBBCCDAA". -/
def hufdBusy : State :=
  busy (load (load { s0 with hufd := ⟨21#32, 0#32, 4#32⟩ } .hufd .r1 [0x0003FD50]) .hufd .r3
    [0x41, 6, 0x42, 3, 0x43, 2, 0x44, 1]) .hufd .start
theorem test_hufd_completion : view (completeEngine .hufd hufdBusy) .hufd [.outLen, .auxLen] .r2 13 =
    (2#32, [12#32, 4#32], [some 0x41, some 0x41, some 0x41, some 0x41, some 0x42, some 0x42, some 0x42, some 0x43, some 0x43,
      some 0x44, some 0x41, some 0x41, none]) := by decide +kernel

/-- V7: "AAAAAAA" encodes to 65, 256, 257, 65 with next code 259. -/
def lzweBusy : State :=
  busy (load { s0 with lzwe := ⟨7#32, 0#32, 0#32⟩ } .lzwe .r1 [0x41414141, 0x00414141]) .lzwe .start
theorem test_lzwe_completion : view (completeEngine .lzwe lzweBusy) .lzwe [.outLen, .lzwNextCode] .r2 5 =
    (2#32, [4#32, 259#32], [some 65, some 256, some 257, some 65, none]) := by decide +kernel

/-- V7: 65, 256, 257, 65 decodes to "AAAAAAA", the padding byte 0. -/
def lzwdBusy : State := busy (load { s0 with lzwd := ⟨4#32, 0#32, 0#32⟩ } .lzwd .r1 [65, 256, 257, 65]) .lzwd .start
theorem test_lzwd_completion : view (completeEngine .lzwd lzwdBusy) .lzwd [.outLen, .lzwNextCode] .r2 3 =
    (2#32, [7#32, 259#32], [some 0x41414141, some 0x00414141, none]) := by decide +kernel

/-- V9: the registers, raster and initial indices of the grayscale example. -/
def vqLoaded : State :=
  load (load { s0 with vq := { VqRegs.reset with levels := 2#32, bs := 2#32, h := 4#32, w := 5#32 } } .vq .r1
    [0xC8C80A0A, 0xC80C0A07, 0x0B0C07CA, 0x0A076464, 0x0765640A]) .vq .r4 [0, 1]
def vqBusy : State := busy vqLoaded .vq .start
theorem test_vqEnc_completion : view (completeEngine .vq vqBusy) .vq
      [.vqTh, .vqTw, .vqK, .vqIters, .vqNblk, .vqSseLo, .vqSseHi, .vqNsamp] .r2 3 =
    (2#32, [4#32, 4#32, 2#32, 2#32, 4#32, 21426#32, 0#32, 16#32], [some 0x29282829, some 0xCAC8C8C8, none]) ∧
    view (completeEngine .vq vqBusy) .vq [] .r3 5 = (2#32, [], [some 0, some 1, some 0, some 0, none]) := by decide +kernel

/-- V9: the same artifact decodes to the raster with a zero border column. -/
def vqDecBusy : State :=
  busy (load (load { s0 with vq := { VqRegs.reset with bs := 2#32, h := 4#32, w := 5#32, th := 4#32, tw := 4#32, k := 2#32 } }
    .vq .r2 [0x29282829, 0xCAC8C8C8]) .vq .r3 [0, 1, 0, 0]) .vq .startDec
theorem test_vqDec_completion : view (completeEngine .vq vqDecBusy) .vq [.vqNblk] .r1 6 =
    (2#32, [4#32], [some 0xC8C82829, some 0xC8292800, some 0x282900CA, some 0x28002829, some 0x00292829, none]) := by
  decide +kernel

/-- A failure: "A3" is malformed at index 0 (41_rle.md R523), STATUS 0x3304. -/
def rledBad : State := busy (load { s0 with rled := ⟨2#32, 0#32⟩ } .rled .r1 [0x41, 0x33]) .rled .start
theorem test_rled_failure : view (completeEngine .rled rledBad) .rled [.errLoc, .outLen] .r2 1 =
    (0x3304#32, [0#32, 0#32], [none]) := by decide +kernel

/-! ## Single steps: the bus -/

theorem test_busError : answers (step { s0 with inbox := [.host (.read 8 0x02000008#32)] })
    { s0 with port := .busError } = true := by
  decide +kernel
/-- 40_commands.md R401: a write to any offset of a BUSY window is dropped; of an IDLE one it is ignored (20_memory.md R204). -/
theorem test_busyHole : answers (step { rleeBusy with inbox := [.host (.wr32 0x02000FFC#32 1#32)] })
    (({ rleeBusy with port := .accepted } : State).drop .rlee) = true ∧
    answers (step { s0 with inbox := [.host (.wr32 0x02000FFC#32 1#32)] }) { s0 with port := .accepted } = true := by
  decide +kernel
theorem test_illegalCommand : (after (step { s0 with inbox := [.host (.wr32 0x02000004#32 0x401#32)] }) s0).readReg .rlee .status =
    0x00001104#32 := by decide +kernel
theorem test_fetchWord : after (step (s0.withFetchWord 32 0x801)) s0 = { busy s0 .vq .start with port := .accepted } := by
  decide +kernel
theorem test_reset_step : answers (step { rleeBusy with inbox := [.reset] }) s0 = true := by decide +kernel
theorem test_idle_completion : (after (step rleeBusy) s0).readReg .rlee .status = 2#32 := by decide +kernel

/-! ## Witnesses: concrete states and operands that meet the hypotheses of each statement, clause by clause -/

/-- `s` with a queue of events. -/
def withQueue (s : State) (q : List Event) : State := { s with inbox := q }

theorem witness_LegalCommandWords_legal : LegalWord .rlee 0x00000000#32 ∧ LegalWord .vq 0x00000802#32 ∧
    LegalWord .lzwd 0x0000070F#32 := by unfold LegalWord; decide +kernel
theorem witness_LegalCommandWords_idle : s0.busy .rlee = false ∧ ¬LegalWord .rlee 0x00000401#32 ∧
    ¬LegalWord .lzwd 0x00000702#32 ∧ ¬LegalWord .vq 0x00010800#32 := by unfold LegalWord; decide +kernel
theorem witness_LegalCommandWords_busy : rleeBusy.busy .rlee = true := by decide +kernel

theorem witness_DecodeInvertsEncode : Instr.vqStartDec.wellFormed = true ∧ decode 0x00000802#32 = .ok .vqStartDec := by decide +kernel

theorem witness_StepRunsDecodedInstruction :
    (withQueue s0 [.host (.wr32 (BitVec.ofNat 32 (regAddr .vq .cmd)) 0x00000801#32)]).inbox =
      .host (.wr32 (BitVec.ofNat 32 (regAddr .vq .cmd)) 0x00000801#32) :: [] ∧
    decodeFor .vq 0x00000801#32 = .ok .vqStartEnc := by decide +kernel

/-- The queue hypothesis of `CmdWriteDispatch`, for any state and word. -/
theorem witness_CmdWriteDispatch_queue (s : State) (e : Eng) (w : Word) :
    (withQueue s [.host (.wr32 (BitVec.ofNat 32 (regAddr e .cmd)) w)]).inbox =
      .host (.wr32 (BitVec.ofNat 32 (regAddr e .cmd)) w) :: [] := rfl
theorem witness_CmdWriteDispatch_busy : (withQueue rleeBusy []).busy .rlee = true := by decide +kernel
theorem witness_CmdWriteDispatch_idle : s0.busy .vq = false ∧ ¬LegalWord .vq 0x00000803#32 ∧
    (LegalWord .vq 0x00000800#32 ∧ (0x00000800#32 : Word).extractLsb' 0 8 = 0x00#8) ∧
    (LegalWord .vq 0x0000080F#32 ∧ (0x0000080F#32 : Word).extractLsb' 0 8 = 0x0F#8) ∧
    (LegalWord .vq 0x00000801#32 ∧ (0x00000801#32 : Word).extractLsb' 0 8 = 0x01#8) ∧
    (LegalWord .vq 0x00000802#32 ∧ (0x00000802#32 : Word).extractLsb' 0 8 = 0x02#8) := by unfold LegalWord; decide +kernel

theorem witness_CompletionEventsRun_event : (withQueue rleeBusy [.complete .rlee]).inbox = .complete .rlee :: [] := rfl
theorem witness_CompletionEventsRun_empty : rledBusy.inbox = [] ∧ rledBusy.busy .rled = true ∧
    ∀ e ∈ Eng.all, e.id < Eng.rled.id → rledBusy.busy e = false := by decide +kernel
theorem witness_CompletionEventsRun_quiet : s0.inbox = [] ∧ ∀ e ∈ Eng.all, s0.busy e = false := by decide +kernel

theorem witness_commands_idle : ∀ i ∈ Instr.all, s0.busy i.engine = false := by decide +kernel
theorem witness_commands_busy : ∀ i ∈ Instr.all, (busy s0 i.engine .start).busy i.engine = true := by decide +kernel

theorem witness_IllegalCommandRecorded : (stale .hufe).busy .hufe = false ∧ ¬LegalWord .hufe 0x00000001#32 := by
  unfold LegalWord; decide +kernel

theorem witness_BusyEngineDropsWrites : rleeBusy.busy .rlee = true ∧ Reg.cmd ∈ engRegs .rlee ∧ 1048575 < 2 ^ 20 ∧
    InWindow .rlee 0x02000000 ∧ InWindow .rlee 0x02000FFC ∧ InWindow .rlee 0x03FFFFFC ∧
    (withQueue rleeBusy [.host (.wr32 0x02000FFC#32 1#32)]).inbox = .host (.wr32 0x02000FFC#32 1#32) :: [] ∧
    (withQueue rleeBusy [.host (.wr32 0x02000FFC#32 1#32)]).busy .rlee = true ∧
    (0x02000FFC#32 : BitVec 32).toNat % 4 = 0 := by unfold InWindow; decide +kernel

theorem witness_Starts_idle : ∀ e ∈ Eng.all, s0.busy e = false := by decide +kernel

theorem witness_SuccessPublishes : rleeBusy.params.legal = true ∧ (rleeBusy.ctl.get .rlee).running = some .start ∧
    ideal .rlee .start rleeBusy =
      .ok ⟨[(.r2, [0x34, 0x41, 0x32, 0x42, 0x31, 0x44, 0x32, 0x41])], [(.outLen, 8#32)]⟩ := by decide +kernel

theorem witness_FailureRecorded : (rledBad.ctl.get .rled).running = some .start ∧
    ideal .rled .start rledBad = .error ⟨.malformed, .r1, 0⟩ := by decide +kernel

theorem witness_PackedStreamsReadBack_bytes :
    (load s0 .lzwe .r1 (packBytes [1, 2, 3, 4, 5])).Holds .lzwe .r1 (packBytes [1, 2, 3, 4, 5]) ∧
    [1#8, 2, 3, 4, 5].length % 4 ≠ 0 := by unfold State.Holds; decide +kernel
theorem witness_PackedStreamsReadBack_bits :
    (load s0 .grd .r1 (packBits [true, false, true])).Holds .grd .r1 (packBits [true, false, true]) ∧
    [true, false, true].length % 32 ≠ 0 := by unfold State.Holds; decide +kernel
theorem witness_PackedStreamsReadBack_entries :
    (load s0 .hufd .r3 (packEntries [(0x41, 4294967295), (0x42, 0)])).Holds .hufd .r3
      (packEntries [(0x41, 4294967295), (0x42, 0)]) ∧ ∀ x ∈ [((0x41 : Word), 4294967295), (0x42, 0)], x.2 < 2 ^ 32 := by
  unfold State.Holds; decide +kernel

theorem witness_BusErrorChangesNothing : (withQueue s0 [.host (.read 31 0#32)]).inbox = .host (.read 31 0#32) :: [] ∧
    (Access.read 31 0#32).size ≠ 32 ∧ (Access.wr32 0x02000007#32 1#32).addr.toNat % 4 ≠ 0 := by decide +kernel

theorem witness_UnmappedIsRazWi_gaps : RazWi p0 8 ∧ RazWi p0 0x01FFFFFC ∧ RazWi p0 0x14000000 ∧ RazWi p0 0xFFFFFFFC :=
  ⟨.inl (by decide), .inl (by decide), .inr (.inl (by decide)), .inr (.inl (by decide))⟩
theorem witness_UnmappedIsRazWi_registers : RazWi p0 0x0200001C ∧ RazWi p0 0x02000FFC :=
  ⟨.inr (.inr ⟨.rlee, .inl ⟨0x1C, by decide, .inl (by decide)⟩⟩), .inr (.inr ⟨.rlee, .inl ⟨0xFFC, by decide, .inl (by decide)⟩⟩)⟩
theorem witness_UnmappedIsRazWi_offsets : RazWi p0 0x02001000 ∧ RazWi p0 0x023FFFFC ∧ RazWi p0 0x03400000 ∧ RazWi p0 0x03FFFFFC :=
  ⟨.inr (.inr ⟨.rlee, .inl ⟨0x1000, by decide, .inr (.inl (by decide))⟩⟩),
   .inr (.inr ⟨.rlee, .inl ⟨0x3FFFFC, by decide, .inr (.inl (by decide))⟩⟩),
   .inr (.inr ⟨.rlee, .inl ⟨0x1400000, by decide, .inr (.inr (by decide))⟩⟩),
   .inr (.inr ⟨.rlee, .inl ⟨0x1FFFFFC, by decide, .inr (.inr (by decide))⟩⟩)⟩
theorem witness_UnmappedIsRazWi_words : RazWi p0 (wordAddr .rlee .r1 32) ∧ RazWi p0 (wordAddr .rlee .r4 0) ∧
    RazWi p0 (wordAddr .vq .r4 1048575) :=
  ⟨.inr (.inr ⟨.rlee, .inr ⟨.r1, 32, by decide, by decide, rfl⟩⟩), .inr (.inr ⟨.rlee, .inr ⟨.r4, 0, by decide, by decide, rfl⟩⟩),
   .inr (.inr ⟨.vq, .inr ⟨.r4, 1048575, by decide, by decide, rfl⟩⟩)⟩
theorem witness_UnmappedIsRazWi_idle : (∀ e ∈ Eng.all, s0.busy e = false) ∧
    (withQueue s0 [.host (.wr32 0x0200001C#32 1#32)]).inbox = .host (.wr32 0x0200001C#32 1#32) :: [] ∧
    (withQueue s0 [.host (.rd32 0x0200001C#32)]).inbox = .host (.rd32 0x0200001C#32) :: [] ∧
    (0x0200001C#32 : BitVec 32).toNat % 4 = 0 := by decide +kernel
theorem witness_UnmappedIsRazWi_busy : rleeBusy.busy .rlee = true ∧ InWindow .rlee 0x0200001C ∧
    InWindow .rlee (wordAddr .rlee .r1 32) := by unfold InWindow; decide +kernel

theorem witness_ReadsHaveNoSideEffects : (withQueue s0 [.host (.rd32 0x02000008#32)]).inbox =
    .host (.rd32 0x02000008#32) :: [] ∧ (0x02000008#32 : Word).toNat % 4 = 0 ∧ Reg.errLoc ∈ engRegs .rlee := by decide +kernel
theorem witness_ReadsHaveNoSideEffects_input : 8 < rleeBusy.params.words .rlee .r1 ∧ 8 < 2 ^ 20 ∧
    (rleeBusy.ctl.get .rlee).running = some .start ∧ Region.r1 ∉ outRegions .rlee .start ∧
    rleeBusy.word? (wordAddr .rlee .r1 8) = some 0x41#32 := by decide +kernel
theorem witness_ReadsHaveNoSideEffects_output : 31 < rleeBusy.params.words .rlee .r2 ∧
    Region.r2 ∈ outRegions .rlee .start := by decide +kernel

theorem witness_RegionWordWriteThenRead : s0.busy .vq = false ∧ 31 < s0.params.words .vq .r4 ∧ 31 < 2 ^ 20 := by decide +kernel

theorem witness_HostRegisterWrites : s0.busy .vq = false ∧ Reg.ctrl ∈ engRegs .vq ∧ Reg.ctrl ∈ rwRegs .vq ∧
    Reg.vqInitSrc ∈ engRegs .vq ∧ Reg.vqInitSrc ∈ rwRegs .vq ∧ Reg.vqLevels ∈ engRegs .vq ∧ Reg.vqLevels ∈ rwRegs .vq ∧
    Reg.vqIters ∈ engRegs .vq ∧ Reg.vqIters ∉ rwRegs .vq ∧ Reg.auxLen ∈ engRegs .hufe ∧ Reg.auxLen ∉ rwRegs .hufe := by decide +kernel

theorem witness_InterruptRequests : (s0.setReg .gre .grM 1#32).ctl = s0.ctl ∧ 9 ≤ 31 := by decide +kernel

theorem witness_StatusWordFields :
    (∀ c ∈ [ErrCode.none, .illegalCmd, .config, .malformed, .resource, .unsupportedInput],
      ((s0.setCtl .rlee { Ctl.reset with errCode := c }).ctl.get .rlee).errCode = c) ∧
    ∀ c ∈ [ErrSrc.none, .cmd, .reg, .r1, .r2, .r3, .r4, .dict, .internal],
      ((s0.setCtl .rlee { Ctl.reset with errSrc := c }).ctl.get .rlee).errSrc = c := by decide +kernel

theorem witness_ResetAbandonsOperations : (withQueue rleeBusy [.reset]).inbox = .reset :: [] ∧
    (withQueue rleeBusy [.complete .rlee]).busy .rlee = true ∧
    answers (step (withQueue rleeBusy [.complete .rlee])) (completeEngine .rlee rleeBusy) = true ∧
    (completeEngine .rlee rleeBusy).busy .rlee = false := by decide +kernel
theorem witness_ResetAbandonsOperations_empty : rleeBusy.inbox = [] ∧ rleeBusy.busy .rlee = true ∧
    answers (step rleeBusy) (completeEngine .rlee rleeBusy) = true := by decide +kernel
theorem witness_ResetAbandonsOperations_reset : (withQueue rleeBusy [.reset]).busy .rlee = true ∧
    answers (step (withQueue rleeBusy [.reset])) s0 = true ∧ s0.busy .rlee = false ∧ Reg.grM ∈ rwRegs .gre ∧
    Reg.grM ∈ engRegs .gre := by decide +kernel

theorem witness_ResetSatisfiesInv : p0.legal = true := by decide +kernel

theorem witness_StatusInvariantKept : rleeBusy.StatusInv ∧ answers (step rleeBusy) (completeEngine .rlee rleeBusy) = true :=
  ⟨fun e => by cases e <;> decide +kernel, by decide +kernel⟩

/-- The small reset state has the invariant of the whole block. -/
theorem s0_inv : s0.Inv where
  legal := by decide +kernel
  status := fun e => by cases e <;> decide
  mem := ⟨by decide, fun c hc => by cases hc⟩
  busy := fun e cmd h => by cases e <;> cases h
  lengths := ⟨fun e _ => by cases e <;> decide, by decide, by decide, by decide⟩
  published := ⟨fun e he => by
    cases e <;> first | exact absurd rfl he | exact fun w hw => absurd hw (Nat.not_lt_zero _),
    fun w hw => absurd hw (Nat.not_lt_zero _)⟩

theorem witness_BlockInvariantKept : s0.Inv ∧ (s0.withFetchWord 32 0x801).Inv ∧
    answers (step (s0.withFetchWord 32 0x801)) { busy s0 .vq .start with port := .accepted } = true :=
  ⟨s0_inv, ⟨s0_inv.legal, s0_inv.status, s0_inv.mem, s0_inv.busy, s0_inv.lengths, s0_inv.published⟩, by decide +kernel⟩

theorem witness_BusyEngineKeepsSnapshot_queue : rleeBusy.params.legal = true ∧
    (withQueue rleeBusy [.host (.wr32 0x02000014#32 1#32)]).busy .rlee = true ∧
    answers (step (withQueue rleeBusy [.host (.wr32 0x02000014#32 1#32)]))
      (({ rleeBusy with port := .accepted } : State).drop .rlee) = true := by decide +kernel
theorem witness_BusyEngineKeepsSnapshot_empty : (busy rleeBusy .rled .start).inbox = [] ∧
    (busy rleeBusy .rled .start).busy .rled = true ∧ Eng.rlee.id < Eng.rled.id ∧
    (busy rleeBusy .rled .start).busy .rlee = true := by decide +kernel

theorem witness_EngineIsolation : rleeBusy.params.legal = true ∧
    AgreeOn .rlee rleeBusy (rleeBusy.setReg .gre .grM 7#32) ∧ Eng.gre ≠ Eng.rlee :=
  ⟨by decide +kernel, ⟨by simp, by simp, by simp, fun r => State.getReg_setReg_ne_eng _ _ _ _ (by decide), fun _ _ => by simp⟩,
   by decide⟩

theorem witness_LengthAndDecoderCapacityErrors : capacity p0 .rlee .r1 < (State.getReg { s0 with rlee := ⟨33#32, 0#32⟩ } .rlee .inLen).toNat ∧
    capacity p0 .lzwe .r1 < (State.getReg { s0 with lzwe := ⟨129#32, 0#32, 0#32⟩ } .lzwe .inLen).toNat ∧
    s0.hufd.inLen.toNat ≤ capacity s0.params .hufd .r1 ∧
    capacity p0 .hufd .r3 < ({ s0 with hufd := ⟨0#32, 0#32, 17#32⟩ } : State).hufd.auxLen.toNat := by decide +kernel
/-- "99A": 99 symbols do not fit 32 words. -/
theorem witness_LengthAndDecoderCapacityErrors_rled :
    let s := load { s0 with rled := ⟨3#32, 0#32⟩ } .rled .r1 [0x39, 0x39, 0x41]
    rleDecode (s.inWords .rled .r1 s.rled.inLen.toNat) = .ok [(99, 0x41)] ∧ capacity s.params .rled .r2 < 99 ∧
    rleDecode (rledBad.inWords .rled .r1 rledBad.rled.inLen.toNat) = .error ⟨.malformed, .r1, 0⟩ ∧
    rledBusy.rled.inLen.toNat ≤ capacity rledBusy.params .rled .r1 := by decide +kernel
/-- 33 zero bits are 33 symbols under m = 1 and under a one-entry table. -/
theorem witness_LengthAndDecoderCapacityErrors_bits :
    let g := load { s0 with grd := ⟨33#32, 0#32, 1#32⟩ } .grd .r1 [0, 0]
    let h := load (load { s0 with hufd := ⟨33#32, 0#32, 1#32⟩ } .hufd .r1 [0, 0]) .hufd .r3 [0x41, 33]
    grDecode g.grd.m.toNat (g.inBits .grd .r1 g.grd.inLen.toNat) = .ok (List.replicate 33 0#32) ∧
    0 < sint32 g.grd.m ∧ capacity g.params .grd .r2 < 33 ∧
    hufDecode (h.inEntries .hufd .r3 h.hufd.auxLen.toNat) (h.inBits .hufd .r1 h.hufd.inLen.toNat) =
      .ok (List.replicate 33 0x41#32) ∧ capacity h.params .hufd .r2 < 33 := by decide +kernel
/-- A cut Golomb-Rice codeword and a repeated table symbol. -/
theorem witness_LengthAndDecoderCapacityErrors_malformed :
    let g := load { s0 with grd := ⟨2#32, 0#32, 5#32⟩ } .grd .r1 [3]
    let h := load { s0 with hufd := ⟨0#32, 0#32, 2#32⟩ } .hufd .r3 [0x41, 1, 0x41, 1]
    grDecode g.grd.m.toNat (g.inBits .grd .r1 g.grd.inLen.toNat) = .error ⟨.malformed, .r1, 0⟩ ∧
    hufDecode (h.inEntries .hufd .r3 h.hufd.auxLen.toNat) (h.inBits .hufd .r1 h.hufd.inLen.toNat) =
      .error ⟨.malformed, .r3, 1⟩ := by decide +kernel

theorem witness_UnsupportedInputLowestIndex :
    let s := load (load { s0 with gre := ⟨2#32, 0#32, 5#32⟩, hufe := ⟨2#32, 0#32, 0#32⟩ } .gre .r1 [0x10FFFF, 0x110000])
      .hufe .r1 [0x10FFFF, 0x110000]
    s.rlee.inLen.toNat ≤ capacity s.params .rlee .r1 ∧ s.gre.inLen.toNat ≤ capacity s.params .gre .r1 ∧
    0 < sint32 s.gre.m ∧ s.hufe.inLen.toNat ≤ capacity s.params .hufe .r1 ∧
    ideal .gre .start s = .error ⟨.unsupportedInput, .r1, 1⟩ ∧
    ideal .hufe .start s = .error ⟨.unsupportedInput, .r1, 1⟩ := by decide +kernel

theorem witness_EmptyInputSucceeds : s0.rlee.inLen = 0#32 ∧ s0.rled.inLen = 0#32 ∧ s0.gre.inLen = 0#32 ∧ 0 < sint32 s0.gre.m ∧
    s0.grd.inLen = 0#32 ∧ 0 < sint32 s0.grd.m ∧ s0.hufe.inLen = 0#32 ∧ s0.hufd.inLen = 0#32 ∧ s0.hufd.auxLen = 0#32 ∧
    s0.lzwe.inLen = 0#32 ∧ s0.lzwd.inLen = 0#32 ∧ 256 ≤ s0.params.lzwDictCap ∧ vqConfigError s0 true = none ∧
    s0.vq.h.toNat < (sint32 s0.vq.bs).toNat ∧ s0.vq.w.toNat < (sint32 s0.vq.bs).toNat := by decide +kernel

theorem witness_RleArtifactIsMaximalRuns : ∀ c ∈ [0x0#32, 0x2F#32, 0x3A#32, 0x10FFFF#32], RleSymbol c := by
  simp [RleSymbol]

theorem witness_RleDecoderMalformed_symbol : RleOffends [0x31, 0x41, 0x42] 2 ∧
    (∀ j, j < 2 → ¬RleOffends [0x31, 0x41, 0x42] j) ∧ RleOffends [0x41] 0 ∧ RleOffends [0x110000] 0 := by
  unfold RleOffends RleDigit; decide +kernel
theorem witness_RleDecoderMalformed_digits : (∀ j, j < 4 → ¬RleOffends [0x31, 0x41, 0x30, 0x39] j) ∧
    (∀ j, j < 4 → 2 ≤ j → RleDigit ([0x31#32, 0x41, 0x30, 0x39].getD j 0#32)) ∧
    ¬RleDigit ([0x31#32, 0x41, 0x30, 0x39].getD (2 - 1) 0#32) := by unfold RleOffends RleDigit; decide +kernel
theorem witness_RleDecoderMalformed_ok : (∀ j, j < 2 → ¬RleOffends [0x31, 0x41] j) ∧
    ¬RleDigit ([0x31#32, 0x41].getD (2 - 1) 0#32) := by unfold RleOffends RleDigit; decide +kernel

theorem witness_RleDecodedRuns : ∀ x ∈ [([0x30#32, 0x37], 0x41#32), ([0x30], 0x42)],
    x.1 ≠ [] ∧ (∀ d ∈ x.1, RleDigit d) ∧ RleSymbol x.2 := by simp [RleSymbol, RleDigit]

theorem witness_RleRoundTrip :
    let ws : List Word := [0x34, 0x41, 0x32, 0x42, 0x31, 0x44, 0x32, 0x41]
    let t := load { s0 with rled := ⟨8#32, 0#32⟩ } .rled .r1 ws
    rleeBusy.params.legal = true ∧ idealRlee rleeBusy = .ok ⟨[(.r2, ws)], [(.outLen, 8#32)]⟩ ∧ t.Holds .rled .r1 ws ∧
    t.rled.inLen = 8#32 ∧ ws.length ≤ capacity t.params .rled .r1 ∧
    rleeBusy.rlee.inLen.toNat ≤ capacity t.params .rled .r2 := by unfold State.Holds; decide +kernel

theorem witness_GolombRemainderWidth : 1 ≤ 1 ∧ 5 ≤ 2 ^ 3 := by decide +kernel

theorem witness_GolombBadParameter : s0.gre.inLen.toNat ≤ capacity s0.params .gre .r1 ∧
    s0.grd.inLen.toNat ≤ capacity s0.params .grd .r1 := by decide +kernel

theorem witness_EncodedLengthsAndLimits_gre : greBusy.gre.inLen.toNat = [0x48#32].length ∧
    [0x48#32].length ≤ capacity greBusy.params .gre .r1 ∧ greBusy.inWords .gre .r1 1 = [0x48#32] ∧
    (0x48#32 : Word).toNat ≤ 0x10FFFF ∧ 0 < sint32 greBusy.gre.m ∧
    ([0x48#32].map fun c => c.toNat / greBusy.gre.m.toNat + 1 + clog2 greBusy.gre.m.toNat).sum ≤
      capacity greBusy.params .gre .r2 ∧
    capacity greBusy.params .gre .r2 < ([0x10FFFF#32].map fun c => c.toNat / 1 + 1 + clog2 1).sum := by decide +kernel
/-- Input that fits, and an artifact of 34 words for 32. -/
theorem witness_EncodedLengthsAndLimits_rlee :
    let xs : List Word := (List.range 17).map fun i => toWord (0x41 + i)
    let s := load { s0 with rlee := ⟨17#32, 0#32⟩ } .rlee .r1 xs
    s.rlee.inLen.toNat = xs.length ∧ xs.length ≤ capacity s.params .rlee .r1 ∧ s.inWords .rlee .r1 xs.length = xs ∧
    capacity s.params .rlee .r2 < ((runs xs).map fun x => (Nat.digits 10 x.1).length + 1).sum := by decide +kernel
theorem witness_EncodedLengthsAndLimits_symbols : ∀ c ∈ [0x41#32, 0x51#32], RleSymbol c ∧ c.toNat ≤ 0x10FFFF := by
  simp [RleSymbol]
/-- 17 distinct symbols make a table of 17 entries for 16; with one word of R2, 17 symbols of 4 make 34 bits for 32. -/
theorem witness_EncodedLengthsAndLimits_hufe :
    let xs : List Word := (List.range 17).map fun i => toWord (0x41 + i)
    let ys : List Word := (List.range 17).map fun i => toWord (0x41 + i % 4)
    let s := load { s0 with hufe := ⟨17#32, 0#32, 0#32⟩ } .hufe .r1 xs
    s.hufe.inLen.toNat = xs.length ∧ xs.length ≤ capacity s.params .hufe .r1 ∧ s.inWords .hufe .r1 xs.length = xs ∧
    capacity s.params .hufe .r3 < (freqTable xs).length ∧ (freqTable ys).length ≤ capacity s.params .hufe .r3 ∧
    capacity { p0 with regionWords := { p0.regionWords with hufe := ⟨32, 1, 32, 0⟩ } } .hufe .r2 < (hufEncode (freqTable ys) ys).length ∧
    buildTree (freqTable [0x41]) = some (.leaf 0x41) := by decide +kernel
theorem witness_EncodedLengthsAndLimits_lzwe : lzweBusy.lzwe.inLen.toNat = [65#8, 65, 65, 65, 65, 65, 65].length ∧
    [65#8, 65, 65, 65, 65, 65, 65].length ≤ capacity lzweBusy.params .lzwe .r1 ∧
    lzweBusy.inBytes .lzwe .r1 7 = [65#8, 65, 65, 65, 65, 65, 65] ∧
    lzwEncode [65#8, 65, 65, 65, 65, 65, 65] = ([65, 256, 257, 65], [[65, 65], [65, 65, 65], [65, 65, 65, 65]]) ∧
    256 + 3 ≤ lzweBusy.params.lzwDictCap ∧ { p0 with lzwDictCap := 256 }.lzwDictCap < 256 + 3 ∧
    capacity { p0 with regionWords := { p0.regionWords with lzwe := ⟨32, 1, 0, 0⟩ } } .lzwe .r2 < 4 := by decide +kernel
theorem witness_EncodedLengthsAndLimits_lzwd : lzwdBusy.lzwd.inLen.toNat ≤ capacity lzwdBusy.params .lzwd .r1 ∧
    (lzwdBusy.inWords .lzwd .r1 lzwdBusy.lzwd.inLen.toNat).map BitVec.toNat = [65, 256, 257, 65] ∧
    lzwDecode [65, 256, 257, 65] = .ok ([65, 65, 65, 65, 65, 65, 65], [[65, 65], [65, 65, 65], [65, 65, 65, 65]]) ∧
    lzwDecode [256] = .error ⟨.malformed, .r1, 0⟩ ∧
    capacity { p0 with regionWords := { p0.regionWords with lzwd := ⟨32, 1, 0, 0⟩ } } .lzwd .r2 < 7 := by decide +kernel
theorem witness_EncodedLengthsAndLimits_vq : vqConfigError vqLoaded true = none ∧ (vqEncGeom vqLoaded).n = 4 ∧
    vqK vqLoaded (vqEncGeom vqLoaded) = 2 ∧ (vqEncGeom vqLoaded).d = 4 ∧ vqInitial vqLoaded 4 2 = .ok [0, 1] ∧
    { p0 with vqMaxBlocks := 3 }.vqMaxBlocks < 4 ∧
    capacity { p0 with regionWords := { p0.regionWords with vq := ⟨32, 1, 32, 32⟩ } } .vq .r2 < 2 * 4 ∧
    capacity { p0 with regionWords := { p0.regionWords with vq := ⟨32, 32, 3, 32⟩ } } .vq .r3 < 4 ∧
    vqInitial (load vqLoaded .vq .r4 [0, 4]) 4 2 = .error ⟨.config, .r4, 1⟩ := by decide +kernel

theorem witness_GolombStreamDecoding : 1 ≤ 5 ∧ (∀ x ∈ [(14, 2), (0, 7), (222821, 6)], x.2 < 2 ^ clog2 5 ∧ x.1 * 5 + x.2 ≤ 0x10FFFF) ∧
    [true, false].length < clog2 5 ∧ 7 < 2 ^ clog2 5 ∧ 0x10FFFF < 222821 * 5 + 7 := by decide +kernel

theorem witness_GolombRoundTrip : greBusy.params.legal = true ∧
    idealGre greBusy = .ok ⟨[(.r2, [0b010_0_11111111111111#32])], [(.outLen, 18#32)]⟩ ∧
    grdBusy.Holds .grd .r1 [0b010_0_11111111111111#32] ∧ grdBusy.grd.inLen = 18#32 ∧ grdBusy.grd.m = greBusy.gre.m ∧
    (18#32 : Word).toNat ≤ capacity grdBusy.params .grd .r1 ∧
    greBusy.gre.inLen.toNat ≤ capacity grdBusy.params .grd .r2 := by unfold State.Holds; decide +kernel

theorem witness_HuffmanDecoderBitstreams : (0x10FFFF#32 : Word).toNat ≤ 0x10FFFF ∧ [true] ≠ [] := by decide +kernel
theorem witness_HuffmanDecoderBitstreams_walk :
    let t : List (Word × Nat) := [(0x41, 1), (0x42, 1), (0x43, 1)]
    2 ≤ t.length ∧ (t.map Prod.fst).Nodup ∧ (∀ x ∈ t, x.1.toNat ≤ 0x10FFFF) ∧
    buildTree t = some (.node (.leaf 0x43) (.node (.leaf 0x41) (.leaf 0x42))) ∧
    [true] <+: codeOf (codeTable (.node (.leaf 0x43) (.node (.leaf 0x41) (.leaf 0x42)))) 0x42 ∧
    [true] ≠ codeOf (codeTable (.node (.leaf 0x43) (.node (.leaf 0x41) (.leaf 0x42)))) 0x42 := by decide +kernel

theorem witness_HuffmanTreeAndCodes : (([(0x41#32, 6), (0x42, 3), (0x43, 2), (0x44, 1)] : List (Word × Nat)).map Prod.fst).Nodup ∧
    buildTree [(0x41, 6), (0x42, 3), (0x43, 2), (0x44, 1)] =
      some (.node (.leaf 0x41) (.node (.leaf 0x42) (.node (.leaf 0x44) (.leaf 0x43)))) := by decide +kernel
theorem witness_HuffmanTreeAndCodes_leaf : ([(0x41#32, 0)] : List (Word × Nat)) ≠ [] ∧
    buildTree [(0x41, 0)] = some (.leaf 0x41) := by decide +kernel
/-- Two equal weights: the first listed is the left child. -/
theorem witness_HuffmanTreeAndCodes_builds :
    HufBuilds 2 (hufLeaves [(0x41, 1), (0x42, 1)]) (.node (.leaf 0x41) (.leaf 0x42)) :=
  .merge _ _ [] ⟨1, 0, .leaf 0x41⟩ ⟨1, 1, .leaf 0x42⟩ _ (List.Perm.refl _) (by simp [HufKeyLt]) (by simp) (.done _ _)
/-- Unequal weights: the lesser weight is the left child although it is listed second. -/
theorem witness_HuffmanTreeAndCodes_weight :
    HufBuilds 2 (hufLeaves [(0x41, 2), (0x42, 1)]) (.node (.leaf 0x42) (.leaf 0x41)) :=
  .merge _ _ [] ⟨1, 1, .leaf 0x42⟩ ⟨2, 0, .leaf 0x41⟩ _ (List.Perm.swap _ _ _) (by simp [HufKeyLt]) (by simp) (.done _ _)

theorem witness_HuffmanRoundTrip :
    let table : List Word := [0x41, 6, 0x42, 3, 0x43, 2, 0x44, 1]
    hufeBusy.params.legal = true ∧
    idealHufe hufeBusy = .ok ⟨[(.r2, [0x0003FD50]), (.r3, table)], [(.outLen, 21#32), (.auxLen, 4#32)]⟩ ∧
    hufdBusy.Holds .hufd .r1 [0x0003FD50] ∧ hufdBusy.Holds .hufd .r3 table ∧ hufdBusy.hufd.inLen = 21#32 ∧
    hufdBusy.hufd.auxLen = 4#32 ∧ (21#32 : Word).toNat ≤ capacity hufdBusy.params .hufd .r1 ∧
    (4#32 : Word).toNat ≤ capacity hufdBusy.params .hufd .r3 ∧
    hufeBusy.hufe.inLen.toNat ≤ capacity hufdBusy.params .hufd .r2 := by unfold State.Holds; decide +kernel

theorem witness_LzwFirstUnknownCode : ∀ j, j < [255, 256, 257].length → [255, 256, 257].getD j 0 ≤ 255 + j := by decide +kernel

theorem witness_LzwGreedyCodes : [65#8, 65] ≠ [] ∧ lzwEncode [65#8, 65] = ([65, 65], [[65, 65]]) := by decide +kernel
theorem witness_LzwGreedyCodes_repeat : lzwEncode [65#8, 65, 65] = ([65, 256], [[65, 65]]) ∧ 1 < [65, 256].length := by
  decide +kernel

theorem witness_LzwRoundTrip : lzweBusy.params.legal = true ∧
    idealLzwe lzweBusy = .ok ⟨[(.r2, [65, 256, 257, 65])], [(.outLen, 4#32), (.lzwNextCode, 259#32)]⟩ ∧
    lzwdBusy.Holds .lzwd .r1 [65, 256, 257, 65] ∧ lzwdBusy.lzwd.inLen = 4#32 ∧
    (4#32 : Word).toNat ≤ capacity lzwdBusy.params .lzwd .r1 ∧ (259#32 : Word).toNat ≤ lzwdBusy.params.lzwDictCap ∧
    lzweBusy.lzwe.inLen.toNat ≤ capacity lzwdBusy.params .lzwd .r2 := by unfold State.Holds; decide +kernel

theorem witness_VqNearestCentroid : [[(0 : ℚ)]] ≠ [] ∧ 0 < nearest [5] [[(0 : ℚ)], [5]] := by decide +kernel

theorem witness_VqCentroidUpdate : [0, 0].length = [[1], [2]].length ∧ 1 < [[(0 : ℚ)], [5]].length ∧
    (∀ i, i < [0, 0].length → [0, 0].getD i 0 ≠ 1) ∧ (∃ i, i < [0, 0].length ∧ [0, 0].getD i 0 = 0) :=
  ⟨rfl, by decide, by decide, 0, by decide, rfl⟩

theorem witness_VqIterations : (kmeansLoop 1 [[0], [10]] 20 [[0], [10]]).2 < 20 := by decide +kernel
theorem witness_VqIterations_early : 0 + 1 < (kmeansLoop 1 [[0], [10], [11]] 20 [[0], [10]]).2 := by decide +kernel

theorem witness_VqCodebookAndAssignments : 1 ≤ 2 ∧ ∀ i ∈ [0, 3], i < (vqEncGeom vqLoaded).n := by decide +kernel

theorem witness_VqInitialIndices_capacity : vqLoaded.vq.initSrc = false ∧ capacity vqLoaded.params .vq .r4 < 33 := by decide +kernel
theorem witness_VqInitialIndices_bad : (load vqLoaded .vq .r4 [0, 0]).vq.initSrc = false ∧
    2 ≤ capacity (load vqLoaded .vq .r4 [0, 0]).params .vq .r4 ∧
    ((load vqLoaded .vq .r4 [0, 0]).inWords .vq .r4 2).map BitVec.toNat = [0, 0] ∧
    (∃ i, i < 1 ∧ [0, 0].getD i 0 = [0, 0].getD 1 0) ∧ ∀ i, i < 1 → [0, 0].getD i 0 < 4 := by decide +kernel
theorem witness_VqInitialIndices_good : (vqLoaded.inWords .vq .r4 2).map BitVec.toNat = [0, 1] ∧ [0, 1].Nodup ∧
    ∀ i ∈ [0, 1], i < 4 := by decide +kernel
theorem witness_VqInitialIndices_draw :
    ({ s0 with vq := { VqRegs.reset with initSrc := true } } : State).vq.initSrc = true ∧ 4 ≤ 4 := by decide +kernel

/-- The block with VQ registers set for the checks of R901 and R921. -/
def vqRegs (f : VqRegs → VqRegs) : State := { s0 with vq := f VqRegs.reset }

theorem witness_VqConfigurationChecks_config :
    ¬((vqRegs fun r => { r with c := 2 }).vq.c = 1#32 ∨ (vqRegs fun r => { r with c := 2 }).vq.c = 3#32) ∧
    (s0.vq.c = 1#32 ∧ sint32 (vqRegs fun r => { r with levels := 0xFFFFFFFF }).vq.levels ≤ 0) ∧
    (sint32 (vqRegs fun r => { r with bs := 0 }).vq.bs < 1) ∧
    ((s0.params.vqMaxBs : Int) < sint32 (vqRegs fun r => { r with bs := 17 }).vq.bs) ∧
    (¬(sint32 s0.vq.bs < 1 ∨ (s0.params.vqMaxBs : Int) < sint32 s0.vq.bs) ∧
      capacity s0.params .vq .r1 < 129 * 1 * s0.vq.c.toNat) := by decide +kernel
theorem witness_VqConfigurationChecks_shape :
    let s := vqRegs fun r => { r with bs := 1, h := 11, w := 11, th := 11, tw := 11, k := 129 }
    s.vq.h.toNat * s.vq.w.toNat * s.vq.c.toNat ≤ capacity s.params .vq .r1 ∧ s.vq.th.toNat ≤ s.vq.h.toNat ∧
    s.vq.th.toNat % s.vq.bs.toNat = 0 ∧ s.vq.tw.toNat ≤ s.vq.w.toNat ∧
    capacity s.params .vq .r3 < s.vq.th.toNat / s.vq.bs.toNat * (s.vq.tw.toNat / s.vq.bs.toNat) ∧
    capacity s.params .vq .r2 < s.vq.k.toNat * 1 := by decide +kernel
theorem witness_VqConfigurationChecks_assignment :
    let s := load vqDecBusy .vq .r3 [0, 1, 5, 0]
    (∀ j, j < 2 → (s.elemWord .vq .r3 j).toNat < s.vq.k.toNat) ∧ s.vq.k.toNat ≤ (s.elemWord .vq .r3 2).toNat ∧
    2 < s.vq.th.toNat / s.vq.bs.toNat * (s.vq.tw.toNat / s.vq.bs.toNat) := by decide +kernel

/-- What START_ENC of the V9 example publishes. -/
def vqOutputs : Outputs :=
  ⟨[(.r2, [0x29282829, 0xCAC8C8C8]), (.r3, [0, 1, 0, 0])],
   [(.vqTh, 4#32), (.vqTw, 4#32), (.vqK, 2#32), (.vqIters, 2#32), (.vqNblk, 4#32), (.vqSseLo, 21426#32), (.vqSseHi, 0#32),
    (.vqNsamp, 16#32)]⟩
theorem witness_VqCodebookAndAssignments_encode : idealVqEnc vqBusy = .ok vqOutputs ∧ vqBusy.vq.bs.toNat = 2 ∧
    vqBusy.vq.h.toNat / 2 * (vqBusy.vq.w.toNat / 2) = 4 ∧ min vqBusy.vq.levels.toNat 4 = 2 ∧ [0, 1] ≠ ([] : List Nat) ∧
    (Region.r3, [0, 1, 0, 0]) ∈ vqOutputs.words := by decide +kernel
theorem witness_VqEncodeThenDecode :
    let t := completeEngine .vq vqBusy
    vqBusy.params.legal = true ∧ idealVqEnc vqBusy = .ok vqOutputs ∧ t.params = vqBusy.params ∧
    (∀ r ∈ [Reg.vqH, .vqW, .vqC, .vqBs], t.getReg .vq r = vqBusy.getReg .vq r) ∧
    (∀ x ∈ vqOutputs.regs, t.getReg .vq x.1 = x.2) ∧ (∀ x ∈ vqOutputs.words, t.Holds .vq x.1 x.2) := by
  unfold State.Holds; decide +kernel

end Sys2Proof.Tests
end

section
/-! The interrupt requests: the bits of BLK_IRQ_PENDING and the interrupt output (10_state.md R105; 60_exceptions.md R1010,
R1011). -/
namespace Sys2Proof.Machine

@[simp] theorem busTarget_blkIrqPending (p : Params) : busTarget p 4 = .blkIrqPending := rfl

@[simp] theorem busRead_blkIrqPending (s : State) : busRead s 4 = s.irqPending := by simp [busRead]

@[simp] theorem busWrite_blkIrqPending (s : State) (v : Word) : busWrite s 4 v = .next s := by simp [busWrite]

@[simp] theorem State.irqPending_getLsbD_id (s : State) (e : Eng) : s.irqPending.getLsbD e.id = (s.ctl.get e).irq := by
  simp only [State.irqPending, BitVec.getLsbD_append]
  cases e <;> simp [Eng.id, PerEngine.get]

/-- The bits above the last engine's are the 23 zero bits in front of the nine requests. -/
theorem State.irqPending_getLsbD_high (s : State) {i : Nat} (h : 9 ≤ i) : s.irqPending.getLsbD i = false := by
  obtain ⟨j, rfl⟩ := Nat.exists_eq_add_of_le' h
  simp only [State.irqPending, BitVec.getLsbD_append]
  simp

theorem State.irqPending_congr {s t : State} (h : t.ctl = s.ctl) : t.irqPending = s.irqPending := by
  simp only [State.irqPending, h]

theorem State.irqLine_iff (s : State) : s.irqLine = true ↔ ∃ e : Eng, (s.ctl.get e).irq = true := by
  simp [State.irqLine, Eng.mem_all]

/-- Settles O23: each clause is a fact about `irqPending`, whose bit `e` is engine `e`'s request, or about address 4. -/
theorem interruptRequests : Obligations.InterruptRequests := fun s =>
  ⟨busRead_blkIrqPending s,
   s.irqPending_getLsbD_id,
   fun _ hi => s.irqPending_getLsbD_high hi,
   busWrite_blkIrqPending s,
   fun _ ht => State.irqPending_congr ht,
   by simpa only [State.irqPending_getLsbD_id] using s.irqLine_iff⟩

end Sys2Proof.Machine
end

section
/-! Refused host accesses: what the block answers to an access that is not 32 bits wide and 4-aligned (20_memory.md R207;
60_exceptions.md R1018). -/
namespace Sys2Proof

theorem Access.wellFormed_eq_false_iff (acc : Access) :
    acc.wellFormed = false ↔ acc.size ≠ 32 ∨ acc.addr.toNat % 4 ≠ 0 := by
  simp only [Access.wellFormed, Bool.and_eq_false_iff, beq_eq_false_iff_ne]

end Sys2Proof

namespace Sys2Proof.Machine

theorem hostAccess_of_not_wellFormed {acc : Access} (h : acc.wellFormed = false) (s : State) :
    hostAccess acc s = .next { s with port := .busError } := if_pos h

/-- The step whose next event is a host access performs that access, with the event taken off the queue. -/
theorem step_host {s : State} {acc : Access} {rest : List Event} (h : s.inbox = .host acc :: rest) :
    step s = hostAccess acc { s with inbox := rest } := step_inbox_cons s (.host acc) rest h

/-- Settles O18: such an access is not well-formed, so the step refuses it before it looks at the address's target. -/
theorem busErrorChangesNothing : Obligations.BusErrorChangesNothing := by
  intro s acc rest hq hbad
  have hwf : acc.wellFormed = false := acc.wellFormed_eq_false_iff.mpr hbad
  rw [step_host hq, hostAccess_of_not_wellFormed hwf]

end Sys2Proof.Machine
end

section
/-! The command word (30_encoding.md R300 to R305): its three fields, the decoder as the inverse of the encoder, and the legal
words as the encodings of an engine's commands. -/
namespace Sys2Proof

theorem word_eq_append_iff {w : Word} {rsv : BitVec 16} {eng op : BitVec 8} :
    w = rsv ++ eng ++ op ↔ w.extractLsb' 16 16 = rsv ∧ w.extractLsb' 8 8 = eng ∧ w.extractLsb' 0 8 = op := by
  constructor
  · rintro rfl
    refine ⟨?_, ?_, BitVec.extractLsb'_append_eq_right⟩
    · exact (BitVec.extractLsb'_append_eq_of_le (by decide)).trans BitVec.extractLsb'_append_eq_left
    · exact (BitVec.extractLsb'_append_eq_of_le (by decide)).trans BitVec.extractLsb'_append_eq_right
  · rintro ⟨rfl, rfl, rfl⟩
    rw [BitVec.extractLsb'_append_extractLsb'_eq_extractLsb' (show 16 = 8 + 8 from rfl),
      BitVec.extractLsb'_append_extractLsb'_eq_extractLsb' (show 8 = 0 + 8 from rfl)]
    exact BitVec.extractLsb'_eq_self.symm

theorem eq_encode_iff {w : Word} {i : Instr} :
    w = encode i ↔
      w.extractLsb' 16 16 = 0#16 ∧ w.extractLsb' 8 8 = BitVec.ofNat 8 i.engine.id ∧ w.extractLsb' 0 8 = i.op :=
  word_eq_append_iff

theorem cmdRsv_eq_zero_iff {w : Word} : cmdRsv w = 0 ↔ w.extractLsb' 16 16 = 0#16 :=
  BitVec.toNat_inj (y := 0#16)

theorem cmdEng_eq_id_iff {w : Word} {e : Eng} : cmdEng w = e.id ↔ w.extractLsb' 8 8 = BitVec.ofNat 8 e.id := by
  have hid := e.id_le
  rw [BitVec.toNat_eq, BitVec.toNat_ofNat, Nat.mod_eq_of_lt (by omega), cmdEng]

theorem cmdOp_eq_toNat_iff {w : Word} {op : BitVec 8} : cmdOp w = op.toNat ↔ w.extractLsb' 0 8 = op := BitVec.toNat_inj

theorem engOfId_eq_some_iff {n : Nat} {e : Eng} : engOfId n = some e ↔ n = e.id := by
  constructor
  · intro h
    unfold engOfId at h
    split at h <;> cases h <;> rfl
  · rintro rfl
    exact engOfId_id e

theorem instrAt_eq_some_iff {e : Eng} {op : Nat} {i : Instr} : instrAt e op = some i ↔ i.engine = e ∧ op = i.op.toNat := by
  constructor
  · intro h
    unfold instrAt at h
    split at h <;> cases h <;> exact ⟨rfl, rfl⟩
  · rintro ⟨rfl, rfl⟩
    cases i <;> rfl

/-- The decoder reads the three fields one after another: no bit set in RSV, ENG an engine's id, OP one of its commands. -/
theorem decode_eq_ok_iff_fields {w : Word} {i : Instr} :
    decode w = .ok i ↔ cmdRsv w = 0 ∧ engOfId (cmdEng w) = some i.engine ∧ instrAt i.engine (cmdOp w) = some i := by
  constructor
  · intro h
    unfold decode at h
    split at h
    · cases h
    next hrsv =>
    split at h
    · cases h
    next e heng =>
    split at h
    · cases h
    next j hop =>
    cases h
    obtain ⟨rfl, -⟩ := instrAt_eq_some_iff.mp hop
    exact ⟨not_not.mp hrsv, heng, hop⟩
  · rintro ⟨hrsv, heng, hop⟩
    simp [decode, hrsv, heng, hop]

theorem decode_eq_ok_iff {w : Word} {i : Instr} : decode w = .ok i ↔ w = encode i := by
  rw [decode_eq_ok_iff_fields, eq_encode_iff, engOfId_eq_some_iff, instrAt_eq_some_iff, cmdRsv_eq_zero_iff, cmdEng_eq_id_iff,
    cmdOp_eq_toNat_iff]
  simp

theorem decodeFor_eq_ok_iff {e : Eng} {w : Word} {i : Instr} : decodeFor e w = .ok i ↔ i.engine = e ∧ w = encode i := by
  rw [← decode_eq_ok_iff, decodeFor]
  split
  · next x hx => simp [hx]
  · next j hj =>
    split
    · next he =>
      rw [hj, Except.ok.injEq]
      exact ⟨fun h => ⟨h ▸ he, h⟩, And.right⟩
    · next he =>
      simp only [hj, Except.ok.injEq, reduceCtorEq, false_iff]
      rintro ⟨h, rfl⟩
      exact he h

end Sys2Proof

namespace Sys2Proof.Machine

/-- OPS(e) is the set of the OP bytes of the commands of engine `e`. -/
theorem mem_legalOps_iff {e : Eng} {op : BitVec 8} : op ∈ legalOps e ↔ ∃ i : Instr, i.engine = e ∧ i.op = op := by
  constructor
  · intro h
    have hsome : ∀ op ∈ legalOps e, (instrAt e op.toNat).isSome := by cases e <;> decide
    obtain ⟨i, hi⟩ := Option.isSome_iff_exists.mp (hsome op h)
    obtain ⟨he, hop⟩ := instrAt_eq_some_iff.mp hi
    exact ⟨i, he, (BitVec.eq_of_toNat_eq hop).symm⟩
  · rintro ⟨i, rfl, rfl⟩
    cases i <;> decide

theorem legalWord_iff {e : Eng} {w : Word} : LegalWord e w ↔ ∃ i : Instr, i.engine = e ∧ w = encode i := by
  simp only [LegalWord, mem_legalOps_iff, eq_encode_iff]
  constructor
  · rintro ⟨hrsv, heng, i, rfl, hop⟩
    exact ⟨i, rfl, hrsv, heng, hop.symm⟩
  · rintro ⟨i, rfl, hrsv, heng, hop⟩
    exact ⟨hrsv, heng, i, rfl, hop.symm⟩

theorem exists_decodeFor_iff_legalWord {e : Eng} {w : Word} : (∃ i, decodeFor e w = .ok i) ↔ LegalWord e w := by
  simp only [decodeFor_eq_ok_iff, legalWord_iff]

/-! A write to CMD, by what the word decodes to (40_commands.md R400 to R402). -/

theorem writeCmd_of_decodeFor {e : Eng} {w : Word} {i : Instr} (h : decodeFor e w = .ok i) (s : State) :
    writeCmd e w s = exec i s := by simp only [writeCmd, h]

theorem writeCmd_of_not_legalWord {e : Eng} {w : Word} (h : ¬LegalWord e w) (s : State) :
    writeCmd e w s = .next (illegalCommand e s) := by
  unfold writeCmd
  split
  · next i hi => exact absurd (exists_decodeFor_iff_legalWord.mp ⟨i, hi⟩) h
  · rfl

theorem illegalCommand_idle {e : Eng} {s : State} (h : s.busy e = false) :
    illegalCommand e s = s.setCtl e (s.ctl.get e).illegal := by simp [illegalCommand, h]

theorem illegalCommand_busy {e : Eng} {s : State} (h : s.busy e = true) : illegalCommand e s = s.drop e := if_pos h

theorem writeCmd_busy {e : Eng} {s : State} (h : s.busy e = true) (w : Word) : writeCmd e w s = .next (s.drop e) := by
  by_cases hw : LegalWord e w
  · obtain ⟨i, hi⟩ := exists_decodeFor_iff_legalWord.mpr hw
    obtain ⟨rfl, -⟩ := decodeFor_eq_ok_iff.mp hi
    rw [writeCmd_of_decodeFor hi, exec_busy i s h]
  · rw [writeCmd_of_not_legalWord hw, illegalCommand_busy h]

/-- Settles O1: each row is CMD's address of its command's engine, the command's encoding and the command, so the two decode
clauses are the two directions of `decodeFor_eq_ok_iff`. -/
theorem opcodeMapWordsDecode : Obligations.OpcodeMapWordsDecode := by
  intro p row hrow
  obtain ⟨haddr, hword⟩ : row.1 = regAddr row.2.2.engine .cmd ∧ row.2.1 = encode row.2.2 := by revert row; decide
  rw [haddr, hword]
  exact ⟨busTarget_regAddr p _ .cmd (by simp [engRegs]), decodeFor_eq_ok_iff.mpr ⟨rfl, rfl⟩,
    fun _ hw => (decodeFor_eq_ok_iff.mp hw).2⟩

/-- Settles O2: the legal words are the encodings of the engine's commands, and the rest is `illegalCommand` on an IDLE engine
and `drop` on a BUSY one. -/
theorem legalCommandWords : Obligations.LegalCommandWords := by
  intro e w
  refine ⟨exists_decodeFor_iff_legalWord, fun s => ⟨fun hidle hw => ?_, fun hbusy => writeCmd_busy hbusy w⟩⟩
  rw [writeCmd_of_not_legalWord hw, illegalCommand_idle hidle, Ctl.illegal]

end Sys2Proof.Machine
end

section
/-! The commands (40_commands.md R400 to R405): what a command does on an IDLE and on a BUSY engine by its OP, a write to CMD as
one step of the block, and the STATUS word after CLEAR and after an illegal word. -/
namespace Sys2Proof.Machine

/-! ## Every command by its OP -/

/-- What a command with this OP does to an IDLE engine: NOP, START (on engine 8 START_ENC), START_DEC or CLEAR
(30_encoding.md R302; 40_commands.md R403 to R405). -/
def opEffect (e : Eng) (op : BitVec 8) (s : State) : State :=
  if op = 0x00#8 then s
  else if op = 0x01#8 then s.startFrame e .start
  else if op = 0x02#8 then s.startFrame e .startDec
  else s.clear e

theorem exec_eq_whenIdle_opEffect (i : Instr) (s : State) : exec i s = whenIdle i.engine s (opEffect i.engine i.op) := by
  cases i <;> rfl

theorem exec_idle {i : Instr} {s : State} (h : s.busy i.engine = false) : exec i s = .next (opEffect i.engine i.op s) := by
  rw [exec_eq_whenIdle_opEffect, whenIdle_idle _ h]

@[simp] theorem opEffect_nop (e : Eng) (s : State) : opEffect e 0x00#8 s = s := rfl

@[simp] theorem opEffect_start (e : Eng) (s : State) : opEffect e 0x01#8 s = s.startFrame e .start := rfl

@[simp] theorem opEffect_startDec (e : Eng) (s : State) : opEffect e 0x02#8 s = s.startFrame e .startDec := rfl

@[simp] theorem opEffect_clear (e : Eng) (s : State) : opEffect e 0x0F#8 s = s.clear e := rfl

/-- Only engine 8 has OP 0x02 (R302, R304). -/
theorem eq_vq_of_legalWord_startDec {e : Eng} {w : Word} (hw : LegalWord e w) (hop : w.extractLsb' 0 8 = 0x02#8) : e = .vq := by
  obtain ⟨-, -, hmem⟩ := hw
  rw [hop] at hmem
  revert hmem
  cases e <;> decide

/-- The START frame has everything R405 lists. -/
theorem State.startFrame_started (s : State) (e : Eng) (cmd : StartCmd) :
    Started s (s.startFrame e cmd) e cmd (outRegs e cmd) (outRegions e cmd) where
  ctl := by simp [Ctl.started]
  outputs r hr := by rw [State.startFrame_getReg, if_pos ⟨rfl, hr⟩]
  unspecified r hr a ha := by rw [State.startFrame_get?, if_pos ⟨r, hr, ha⟩]
  draws := State.startFrame_draws s e cmd
  frame :=
    { params := State.startFrame_params s e cmd
      inbox := State.startFrame_inbox s e cmd
      port := State.startFrame_port s e cmd
      ctl := fun e' he' => by rw [State.startFrame_ctl, PerEngine.get_set_ne _ _ he']
      regs := fun e' r hr => by rw [State.startFrame_getReg, if_neg hr]
      mem := fun a ha => by
        rw [State.startFrame_get?, if_neg]
        rintro ⟨r, hr, hin⟩
        exact ha r hr hin }

/-! ## The STATUS word after CLEAR and after an illegal word -/

@[simp] theorem State.readReg_status_setCtl (s : State) (e : Eng) (c : Ctl) :
    (s.setCtl e c).readReg e .status = c.statusWord := by simp [State.readReg]

@[simp] theorem State.readReg_errLoc_setCtl (s : State) (e : Eng) (c : Ctl) :
    (s.setCtl e c).readReg e .errLoc = c.errLoc := by simp [State.readReg]

theorem Ctl.statusWord_clear {c : Ctl} (h : c.busy = false) : c.clear.statusWord = 0#32 := by
  have hbusy : c.clear.busy = false := h
  rw [Ctl.statusWord, hbusy]
  simp [Ctl.clear, ErrSrc.bits, ErrCode.bits]

theorem Ctl.statusWord_illegal {c : Ctl} (h : c.busy = false) :
    c.illegal.statusWord = if c.dropped then 0x0000110C#32 else 0x00001104#32 := by
  have hbusy : c.illegal.busy = false := h
  rw [Ctl.statusWord, hbusy]
  cases hdropped : c.dropped <;> simp [Ctl.illegal, ErrSrc.bits, ErrCode.bits, hdropped]

/-! ## A write to CMD -/

theorem regAddr_cmd_lt (e : Eng) : regAddr e .cmd < 2 ^ 32 := by cases e <;> decide

theorem regAddr_cmd_aligned (e : Eng) : regAddr e .cmd % 4 = 0 := by cases e <;> decide

theorem busWrite_cmd (s : State) (e : Eng) (w : Word) : busWrite s (regAddr e .cmd) w = writeCmd e w s := by
  rw [busWrite, busTarget_regAddr s.params e .cmd (by simp [engRegs])]

/-- The step whose next event is a 32-bit write to CMD: the event leaves the queue, the access is accepted, and the word is
handled (R400). -/
theorem step_writeCmd {s : State} {e : Eng} {w : Word} {rest : List Event}
    (h : s.inbox = .host (.wr32 (BitVec.ofNat 32 (regAddr e .cmd)) w) :: rest) :
    step s = writeCmd e w { s with inbox := rest, port := .accepted } := by
  have haddr : (BitVec.ofNat 32 (regAddr e .cmd)).toNat = regAddr e .cmd := by
    rw [BitVec.toNat_ofNat, Nat.mod_eq_of_lt (regAddr_cmd_lt e)]
  have hwf : (Access.wr32 (BitVec.ofNat 32 (regAddr e .cmd)) w).wellFormed = true := by
    simp [Access.wellFormed, Access.size, Access.addr, haddr, regAddr_cmd_aligned]
  rw [step_host h, hostAccess, if_neg (by simp [hwf])]
  simp only [haddr, busWrite_cmd]

theorem writeCmd_idle_of_legalWord {e : Eng} {w : Word} {s : State} (h : s.busy e = false) (hw : LegalWord e w) :
    writeCmd e w s = .next (opEffect e (w.extractLsb' 0 8) s) := by
  obtain ⟨i, rfl, hi⟩ := legalWord_iff.mp hw
  obtain ⟨-, -, hop⟩ := eq_encode_iff.mp hi
  rw [writeCmd_of_decodeFor (decodeFor_eq_ok_iff.mpr ⟨rfl, hi⟩), exec_idle h, hop]

theorem writeCmd_idle_of_not_legalWord {e : Eng} {w : Word} {s : State} (h : s.busy e = false) (hw : ¬LegalWord e w) :
    writeCmd e w s = .next (s.setCtl e (s.ctl.get e).illegal) := by
  rw [writeCmd_of_not_legalWord hw, illegalCommand_idle h]

/-! ## The obligations on commands -/

/-- Settles O5: the step is `writeCmd` on the state with the event taken off; BUSY drops, an illegal word is recorded, and a
legal word on an IDLE engine has the effect of its OP. -/
theorem cmdWriteDispatch : Obligations.CmdWriteDispatch := by
  intro s e w rest hq
  rw [step_writeCmd hq]
  set s' : State := { s with inbox := rest, port := .accepted }
  have hlegal (op : BitVec 8) (hidle : s.busy e = false) (hw : LegalWord e w) (hop : w.extractLsb' 0 8 = op) :
      writeCmd e w s' = .next (opEffect e op s') := hop ▸ writeCmd_idle_of_legalWord hidle hw
  refine ⟨fun hbusy => ?_, fun hidle hw => ?_, hlegal 0x00#8, hlegal 0x0F#8, fun hidle hw hop => ?_, fun hidle hw hop => ?_⟩
  · exact writeCmd_busy (s := s') hbusy w
  · exact writeCmd_idle_of_not_legalWord (s := s') hidle hw
  · exact ⟨_, hlegal 0x01#8 hidle hw hop, s'.startFrame_started e .start⟩
  · exact ⟨eq_vq_of_legalWord_startDec hw hop, _, hlegal 0x02#8 hidle hw hop, s'.startFrame_started e .startDec⟩

/-- Settles O7: the nine have OP 0x00, whose effect is none. -/
theorem nopChangesNothing : Obligations.NopChangesNothing := by
  intro i hi s
  have hop : i.op = 0x00#8 := by revert i; decide
  exact ⟨fun hidle => by rw [exec_idle hidle, hop, opEffect_nop], exec_busy i s⟩

/-- Settles O8: the nine have OP 0x0F, whose effect is `clear`, and the STATUS word of a cleared IDLE engine is 0. -/
theorem clearResetsStatus : Obligations.ClearResetsStatus := by
  intro i hi s
  have hop : i.op = 0x0F#8 := by revert i; decide
  refine ⟨fun hidle => ⟨s.clear i.engine, ?_, rfl, ?_, ?_, ?_, fun e r => s.clear_getReg i.engine e r⟩, exec_busy i s⟩
  · rw [exec_idle hidle, hop, opEffect_clear]
  · rw [State.clear, State.readReg_status_setCtl, Ctl.statusWord_clear hidle]
  · rw [State.clear, State.readReg_errLoc_setCtl, Ctl.clear]
  · simp [Ctl.irq, Ctl.clear]

/-- Settles O9: an illegal word leaves `Ctl.illegal`, whose STATUS word depends on DROPPED only. -/
theorem illegalCommandRecorded : Obligations.IllegalCommandRecorded := by
  intro s e w hidle hw
  refine ⟨_, writeCmd_idle_of_not_legalWord hidle hw, rfl, ?_, ?_, ?_⟩
  · rw [State.readReg_status_setCtl, Ctl.statusWord_illegal hidle]
  · rw [State.readReg_errLoc_setCtl, Ctl.illegal]
  · rw [State.busy, State.setCtl_ctl, PerEngine.get_set_same]
    exact hidle

end Sys2Proof.Machine
end

section
/-! The length checks of engines 0 to 7 (40_commands.md R406) and the decoders' capacity check (41_rle.md R527,
42_golomb_rice.md R627, 43_huffman.md R726). -/
namespace Sys2Proof.Machine

theorem ideal_inLen_exceeds {s : State} {e : Eng} (he : e ≠ .vq)
    (h : capacity s.params e .r1 < (s.getReg e .inLen).toNat) : ideal e .start s = .error (.configReg .inLen) := by
  cases e with
  | vq => exact absurd rfl he
  | _ => exact if_pos h

theorem idealHufd_auxLen_exceeds {s : State} (hin : s.hufd.inLen.toNat ≤ capacity s.params .hufd .r1)
    (haux : capacity s.params .hufd .r3 < s.hufd.auxLen.toNat) : idealHufd s = .error (.configReg .auxLen) := by
  rw [idealHufd, if_neg hin.not_gt, if_pos haux]

/-- The answer of a decoder into region R2 whose configuration checks are passed: a malformed artifact's error, else
RESOURCE when the result is longer than OUT_CAP, else the result. -/
def decoderAnswer {α : Type} (outCap : Nat) (len : α → Nat) (words : α → List Word) : Except Err α → Except Err Outputs
  | .error x => .error x
  | .ok a => if outCap < len a then .error (.resource .r2 outCap) else .ok ⟨[(.r2, words a)], [(.outLen, toWord (len a))]⟩

section
variable {α : Type} {outCap : Nat} {len : α → Nat} {words : α → List Word} {r : Except Err α}

theorem decoderAnswer_error {x : Err} (h : r = .error x) : decoderAnswer outCap len words r = .error x := by
  rw [h, decoderAnswer]

theorem decoderAnswer_exceeds {a : α} (h : r = .ok a) (hlen : outCap < len a) :
    decoderAnswer outCap len words r = .error (.resource .r2 outCap) := by rw [h, decoderAnswer, if_pos hlen]

theorem decoderAnswer_fits {a : α} (h : r = .ok a) (hlen : len a ≤ outCap) :
    decoderAnswer outCap len words r = .ok ⟨[(.r2, words a)], [(.outLen, toWord (len a))]⟩ := by
  rw [h, decoderAnswer, if_neg hlen.not_gt]

end

theorem idealRled_eq_decoderAnswer {s : State} (hin : s.rled.inLen.toNat ≤ capacity s.params .rled .r1) :
    idealRled s = decoderAnswer (capacity s.params .rled .r2) runsLength expandRuns
      (rleDecode (s.inWords .rled .r1 s.rled.inLen.toNat)) := by
  rw [idealRled, if_neg hin.not_gt]
  cases rleDecode (s.inWords .rled .r1 s.rled.inLen.toNat) <;> rfl

theorem toNat_sint32_of_pos {w : Word} (h : 0 < sint32 w) : (sint32 w).toNat = w.toNat :=
  BitVec.toNat_toInt_of_msb w (by rw [BitVec.msb_eq_toInt]; exact decide_eq_false h.le.not_gt)

theorem idealGrd_eq_decoderAnswer {s : State} (hin : s.grd.inLen.toNat ≤ capacity s.params .grd .r1)
    (hm : 0 < sint32 s.grd.m) :
    idealGrd s = decoderAnswer (capacity s.params .grd .r2) List.length id
      (grDecode s.grd.m.toNat (s.inBits .grd .r1 s.grd.inLen.toNat)) := by
  rw [idealGrd, if_neg hin.not_gt, if_neg hm.not_ge, toNat_sint32_of_pos hm]
  cases grDecode s.grd.m.toNat (s.inBits .grd .r1 s.grd.inLen.toNat) <;> rfl

theorem idealHufd_eq_decoderAnswer {s : State} (hin : s.hufd.inLen.toNat ≤ capacity s.params .hufd .r1)
    (haux : s.hufd.auxLen.toNat ≤ capacity s.params .hufd .r3) :
    idealHufd s = decoderAnswer (capacity s.params .hufd .r2) List.length id
      (hufDecode (s.inEntries .hufd .r3 s.hufd.auxLen.toNat) (s.inBits .hufd .r1 s.hufd.inLen.toNat)) := by
  rw [idealHufd, if_neg hin.not_gt, if_neg haux.not_gt]
  cases hufDecode (s.inEntries .hufd .r3 s.hufd.auxLen.toNat) (s.inBits .hufd .r1 s.hufd.inLen.toNat) <;> rfl

/-- Settles O34: the length checks stand first in every ideal function, and past them each of the three decoders is
`decoderAnswer` of what its artifact denotes. -/
theorem lengthAndDecoderCapacityErrors : Obligations.LengthAndDecoderCapacityErrors := by
  refine ⟨fun s e => ideal_inLen_exceeds, fun s => idealHufd_auxLen_exceeds, fun s hin => ?_, fun s hin hm => ?_,
    fun s hin haux => ?_⟩
  · rw [ideal, idealRled_eq_decoderAnswer hin]
    exact ⟨fun x => decoderAnswer_error, fun rs hrs =>
      ⟨expandRuns_length rs, decoderAnswer_exceeds (len := runsLength) hrs, decoderAnswer_fits (len := runsLength) hrs⟩⟩
  · rw [ideal, idealGrd_eq_decoderAnswer hin hm]
    exact ⟨fun x => decoderAnswer_error, fun out hout => ⟨decoderAnswer_exceeds hout, decoderAnswer_fits hout⟩⟩
  · rw [ideal, idealHufd_eq_decoderAnswer hin haux]
    exact ⟨fun x => decoderAnswer_error, fun out hout => ⟨decoderAnswer_exceeds hout, decoderAnswer_fits hout⟩⟩

end Sys2Proof.Machine
end

section
/-! The RLE alphabet and the inputs the encoders reject (41_rle.md R500, R502; 42_golomb_rice.md R606; 43_huffman.md
R711). -/
namespace Sys2Proof.Machine

@[simp] theorem isDigit_iff {c : Word} : isDigit c = true ↔ RleDigit c := by simp [isDigit, RleDigit]

/-- A symbol is a code point that is no digit (41_rle.md R500). -/
theorem rleSymbol_iff_not_digit {c : Word} : RleSymbol c ↔ c.toNat ≤ maxCodePoint ∧ ¬RleDigit c := Iff.rfl

@[simp] theorem rleSymbol_iff {c : Word} : rleSymbol c = true ↔ RleSymbol c := by
  rw [rleSymbol, Bool.and_eq_true, decide_eq_true_eq, Bool.not_eq_true', ← Bool.not_eq_true, isDigit_iff,
    rleSymbol_iff_not_digit]

theorem RleDigit.le_maxCodePoint {c : Word} (h : RleDigit c) : c.toNat ≤ maxCodePoint :=
  h.2.trans (by decide)

section
variable {p : Word → Bool} {P : Word → Prop} {i : Nat}

/-- What a search for the first word without `P` finds. -/
theorem findIdx?_eq_some_iff_getD (hp : ∀ c, p c = true ↔ ¬P c) {l : List Word} :
    l.findIdx? p = some i ↔ i < l.length ∧ ¬P (l.getD i 0#32) ∧ ∀ j, j < i → P (l.getD j 0#32) := by
  have word (j : Nat) (hj : j < l.length) : p l[j] = true ↔ ¬P (l.getD j 0#32) := by
    rw [List.getD_eq_getElem _ _ hj, hp]
  rw [List.findIdx?_eq_some_iff_getElem, ← exists_prop]
  exact exists_congr fun hi => and_congr (word i hi) (forall₂_congr fun j hj => by rw [word j (hj.trans hi), not_not])

theorem State.inWords_findIdx?_eq_some_iff (hp : ∀ c, p c = true ↔ ¬P c) {s : State} {e : Eng} {r : Region} {n : Nat} :
    (s.inWords e r n).findIdx? p = some i ↔ i < n ∧ ¬P (s.elemWord e r i) ∧ ∀ j, j < i → P (s.elemWord e r j) := by
  have word (j : Nat) (hj : j < n) : (s.inWords e r n).getD j 0#32 = s.elemWord e r j := by simp [State.inWords, hj]
  rw [findIdx?_eq_some_iff_getD hp, State.inWords_length]
  refine and_congr_right fun hi => ?_
  rw [word i hi]
  exact and_congr_right' (forall₂_congr fun j hj => by rw [word j (hj.trans hi)])

end

theorem not_rleSymbol_iff (c : Word) : (!rleSymbol c) = true ↔ ¬RleSymbol c := by
  rw [Bool.not_eq_true', ← Bool.not_eq_true, rleSymbol_iff]

theorem above_maxCodePoint_iff (c : Word) : decide (maxCodePoint < c.toNat) = true ↔ ¬c.toNat ≤ 0x10FFFF := by
  rw [decide_eq_true_eq, not_le, maxCodePoint]

@[simp] theorem Err.unsupported_inj {i k : Nat} : Err.unsupported i = Err.unsupported k ↔ i = k := by
  simp [Err.unsupported]

@[simp] theorem Err.resource_ne_unsupported (src : ErrSrc) (cap i : Nat) : Err.resource src cap ≠ Err.unsupported i := by
  simp [Err.resource, Err.unsupported]

theorem rleEncode_eq_error_iff {s : List Word} {x : Err} :
    rleEncode s = .error x ↔ ∃ i, s.findIdx? (fun c => !rleSymbol c) = some i ∧ x = .unsupported i := by
  cases h : s.findIdx? fun c => !rleSymbol c <;> simp [rleEncode, h, eq_comm]

theorem idealRlee_eq_unsupported_iff {s : State} {i : Nat} (hin : s.rlee.inLen.toNat ≤ capacity s.params .rlee .r1) :
    idealRlee s = .error (.unsupported i) ↔
      (s.inWords .rlee .r1 s.rlee.inLen.toNat).findIdx? (fun c => !rleSymbol c) = some i := by
  rw [idealRlee, if_neg hin.not_gt, rleEncode]
  cases (s.inWords .rlee .r1 s.rlee.inLen.toNat).findIdx? fun c => !rleSymbol c with
  | some k => simp
  | none => dsimp only; split <;> simp

theorem idealGre_eq_unsupported_iff {s : State} {i : Nat} (hin : s.gre.inLen.toNat ≤ capacity s.params .gre .r1)
    (hm : 0 < sint32 s.gre.m) :
    idealGre s = .error (.unsupported i) ↔
      (s.inWords .gre .r1 s.gre.inLen.toNat).findIdx? (fun c => decide (maxCodePoint < c.toNat)) = some i := by
  rw [idealGre, if_neg hin.not_gt, if_neg hm.not_ge]
  dsimp only
  cases (s.inWords .gre .r1 s.gre.inLen.toNat).findIdx? fun c => decide (maxCodePoint < c.toNat) with
  | some k => simp
  | none => dsimp only; split <;> simp

theorem idealHufe_eq_unsupported_iff {s : State} {i : Nat} (hin : s.hufe.inLen.toNat ≤ capacity s.params .hufe .r1) :
    idealHufe s = .error (.unsupported i) ↔
      (s.inWords .hufe .r1 s.hufe.inLen.toNat).findIdx? (fun c => decide (maxCodePoint < c.toNat)) = some i := by
  rw [idealHufe, if_neg hin.not_gt]
  dsimp only
  cases (s.inWords .hufe .r1 s.hufe.inLen.toNat).findIdx? fun c => decide (maxCodePoint < c.toNat) with
  | some k => simp
  | none =>
    dsimp only
    split
    · simp
    · split <;> simp

/-- Settles O37: each encoder answers UNSUPPORTED_INPUT exactly when its search for a word outside the alphabet finds one,
and no other branch past the configuration checks gives that code. -/
theorem unsupportedInputLowestIndex : Obligations.UnsupportedInputLowestIndex := by
  refine ⟨fun s x => ?_, fun s i hin => ?_, fun s i hin hm => ?_, fun s i hin => ?_⟩
  · simp only [rleEncode_eq_error_iff, findIdx?_eq_some_iff_getD not_rleSymbol_iff, and_assoc, Err.unsupported]
  · exact (idealRlee_eq_unsupported_iff hin).trans (State.inWords_findIdx?_eq_some_iff not_rleSymbol_iff)
  · simpa only [ideal, Err.unsupported, not_le] using
      (idealGre_eq_unsupported_iff hin hm).trans (State.inWords_findIdx?_eq_some_iff above_maxCodePoint_iff)
  · simpa only [ideal, Err.unsupported, not_le] using
      (idealHufe_eq_unsupported_iff hin).trans (State.inWords_findIdx?_eq_some_iff above_maxCodePoint_iff)

end Sys2Proof.Machine
end

section
/-! The scan of the RLE decoder, word by word and count by count (41_rle.md R520 to R525). -/
namespace Sys2Proof.Machine

section
variable {i cnt : Nat} {start : Option Nat} {c : Word} {cs : List Word}

theorem rleScan_above (h : maxCodePoint < c.toNat) : rleScan i start cnt (c :: cs) = .error (.malformed .r1 i) := if_pos h

theorem rleScan_digit (h : RleDigit c) :
    rleScan i start cnt (c :: cs) = rleScan (i + 1) (some (start.getD i)) (10 * cnt + (c.toNat - 0x30)) cs := by
  rw [Nat.mul_comm 10]
  exact (if_neg h.le_maxCodePoint.not_gt).trans (if_pos (isDigit_iff.2 h))

theorem rleScan_symbol_unopened (h : RleSymbol c) : rleScan i none cnt (c :: cs) = .error (.malformed .r1 i) := by
  obtain ⟨hle, hdigit⟩ := rleSymbol_iff_not_digit.1 h
  exact (if_neg hle.not_gt).trans (if_neg (isDigit_iff.not.2 hdigit))

theorem rleScan_symbol_opened {first : Nat} (h : RleSymbol c) :
    rleScan i (some first) cnt (c :: cs) = (rleScan (i + 1) none 0 cs).map ((cnt, c) :: ·) := by
  obtain ⟨hle, hdigit⟩ := rleSymbol_iff_not_digit.1 h
  refine (if_neg hle.not_gt).trans ((if_neg (isDigit_iff.not.2 hdigit)).trans ?_)
  cases rleScan (i + 1) none 0 cs <;> rfl

/-- Digits after an open count extend it by R521's rule. -/
theorem rleScan_digits {first : Nat} {ds l : List Word} (hds : ∀ d ∈ ds, RleDigit d) :
    rleScan i (some first) cnt (ds ++ l) =
      rleScan (i + ds.length) (some first) (ds.foldl (fun v d => 10 * v + (d.toNat - 0x30)) cnt) l := by
  induction ds generalizing i cnt with
  | nil => rfl
  | cons d ds ih =>
    obtain ⟨hd, hds⟩ := List.forall_mem_cons.1 hds
    rw [List.cons_append, rleScan_digit hd, Option.getD_some, ih hds, List.length_cons, List.foldl_cons, Nat.add_right_comm]
    rfl

/-- A group of digits and its symbol is one run, of the length the digits denote. -/
theorem rleScan_group {ds l : List Word} (hne : ds ≠ []) (hds : ∀ d ∈ ds, RleDigit d) (hc : RleSymbol c) :
    rleScan i none 0 (ds ++ [c] ++ l) = (rleScan (i + ds.length + 1) none 0 l).map ((numeralValue ds, c) :: ·) := by
  obtain ⟨d, ds, rfl⟩ := List.exists_cons_of_ne_nil hne
  obtain ⟨hd, hds⟩ := List.forall_mem_cons.1 hds
  rw [List.append_assoc, List.cons_append, rleScan_digit hd, rleScan_digits hds, List.cons_append, List.nil_append,
    rleScan_symbol_opened hc, List.length_cons, Nat.add_assoc i 1, Nat.add_comm 1]
  rfl

theorem rleScan_groups {rs : List (List Word × Word)}
    (hrs : ∀ x ∈ rs, x.1 ≠ [] ∧ (∀ d ∈ x.1, RleDigit d) ∧ RleSymbol x.2) :
    rleScan i none 0 (rs.flatMap fun x => x.1 ++ [x.2]) = .ok (rs.map fun x => (numeralValue x.1, x.2)) := by
  induction rs generalizing i with
  | nil => rfl
  | cons x rs ih =>
    obtain ⟨⟨hne, hds, hc⟩, hrs⟩ := List.forall_mem_cons.1 hrs
    rw [List.flatMap_cons, rleScan_group hne hds hc, ih hrs]
    rfl

end

/-- Settles O39: the decoder gives one run for each group, of the group's value and symbol. -/
theorem rleDecodedRuns : Obligations.RleDecodedRuns := by
  intro rs hrs
  refine ⟨_, rleScan_groups hrs, ?_, ?_⟩
  · rw [expandRuns, List.flatMap_map]
  · rw [runsLength, List.map_map]
    rfl

end Sys2Proof.Machine
end

section
/-! Where the RLE decoder stops: up to its lowest offending index the scan goes on, with a count open exactly after a digit
(41_rle.md R523, R524, R525). -/
namespace Sys2Proof.Machine

/-- What the decoder's open count says at index `k` of an artifact: none open, no digit stands before `k`; one open from
`first`, the digits before `k` begin there. -/
def OpenCount (a : List Word) (k : Nat) : Option Nat → Prop
  | none => k = 0 ∨ ¬RleDigit (a.getD (k - 1) 0#32)
  | some first => first < k ∧ (∀ j, first ≤ j → j < k → RleDigit (a.getD j 0#32)) ∧
      (first = 0 ∨ ¬RleDigit (a.getD (first - 1) 0#32))

section
variable {a : List Word} {k : Nat} {start : Option Nat}

/-- A digit opens a count at its own index, or extends the open one. -/
theorem OpenCount.digit (h : OpenCount a k start) (hd : RleDigit (a.getD k 0#32)) :
    OpenCount a (k + 1) (some (start.getD k)) := by
  have digits {first : Nat} (hlow : ∀ j, first ≤ j → j < k → RleDigit (a.getD j 0#32)) :
      ∀ j, first ≤ j → j < k + 1 → RleDigit (a.getD j 0#32) := fun j hj hjk =>
    (Nat.lt_succ_iff_lt_or_eq.1 hjk).elim (hlow j hj) fun he => he ▸ hd
  cases start with
  | none => exact ⟨k.lt_succ_self, digits fun j hj hjk => absurd hjk hj.not_gt, h⟩
  | some first =>
    obtain ⟨hlt, hlow, hbefore⟩ := h
    exact ⟨hlt.trans k.lt_succ_self, digits hlow, hbefore⟩

theorem OpenCount.eq_none (h : OpenCount a k start) (hd : k = 0 ∨ ¬RleDigit (a.getD (k - 1) 0#32)) : start = none := by
  cases start with
  | none => rfl
  | some first =>
    obtain ⟨hlt, hlow, -⟩ := h
    rcases hd with rfl | hd
    · exact absurd hlt first.not_lt_zero
    · exact absurd (hlow (k - 1) (by omega) (by omega)) hd

theorem OpenCount.exists_eq_some (h : OpenCount a k start) (hk : k ≠ 0) (hd : RleDigit (a.getD (k - 1) 0#32)) :
    ∃ first, start = some first := by
  cases start with
  | none => exact absurd hd (h.resolve_left hk)
  | some first => exact ⟨first, rfl⟩

/-- The digits that end at `k` begin at one index only. -/
theorem OpenCount.first_unique {first first' : Nat} (h : OpenCount a k (some first)) (h' : OpenCount a k (some first')) :
    first = first' := by
  have not_before {m n : Nat} (hm : OpenCount a k (some m)) (hn : OpenCount a k (some n)) : ¬m < n := fun hlt => by
    obtain ⟨-, hlow, -⟩ := hm
    obtain ⟨hnk, -, hbefore⟩ := hn
    exact (hbefore.resolve_left (by omega)) (hlow (n - 1) (by omega) (by omega))
  exact le_antisymm (not_lt.1 (not_before h' h)) (not_lt.1 (not_before h h'))

end

theorem drop_eq_getD_cons {a : List Word} {k : Nat} (hk : k < a.length) :
    a.drop k = a.getD k 0#32 :: a.drop (k + 1) := by
  rw [List.drop_eq_getElem_cons hk, List.getD_eq_getElem _ _ hk]

theorem not_rleOffends_iff {a : List Word} {k : Nat} : ¬RleOffends a k ↔ (a.getD k 0#32).toNat ≤ maxCodePoint ∧
    (RleDigit (a.getD k 0#32) ∨ k ≠ 0 ∧ RleDigit (a.getD (k - 1) 0#32)) := by
  rw [RleOffends, not_or, not_lt, not_and_or, not_not, not_or, not_not]
  rfl

/-- Below its lowest offending index the scan goes on: what is left is the scan from `k` on, after the runs read so far. -/
theorem rleDecode_reaches {a : List Word} {k : Nat} (hk : k ≤ a.length) (hgood : ∀ j, j < k → ¬RleOffends a j) :
    ∃ rs start cnt, OpenCount a k start ∧ rleDecode a = (rleScan k start cnt (a.drop k)).map (rs ++ ·) := by
  induction k with
  | zero => exact ⟨[], none, 0, .inl rfl, by rw [rleDecode, List.drop_zero]; cases rleScan 0 none 0 a <;> rfl⟩
  | succ k ih =>
    obtain ⟨rs, start, cnt, hopen, hscan⟩ := ih (by omega) fun j hj => hgood j (by omega)
    rw [drop_eq_getD_cons hk] at hscan
    obtain ⟨hle, hdigit⟩ := not_rleOffends_iff.1 (hgood k k.lt_succ_self)
    by_cases hd : RleDigit (a.getD k 0#32)
    · rw [rleScan_digit hd] at hscan
      exact ⟨rs, _, _, hopen.digit hd, hscan⟩
    · obtain ⟨hk0, hprev⟩ := hdigit.resolve_left hd
      obtain ⟨first, rfl⟩ := hopen.exists_eq_some hk0 hprev
      rw [rleScan_symbol_opened (rleSymbol_iff_not_digit.2 ⟨hle, hd⟩)] at hscan
      refine ⟨rs ++ [(cnt, a.getD k 0#32)], none, 0, .inr hd, hscan.trans ?_⟩
      cases rleScan (k + 1) none 0 (a.drop (k + 1)) with
      | error x => rfl
      | ok rest => exact congrArg Except.ok (List.append_cons _ _ _)

/-- An offending word ends the scan where it stands (41_rle.md R523, R525). -/
theorem rleScan_offends {a : List Word} {k cnt : Nat} {start : Option Nat} (hk : k < a.length) (hopen : OpenCount a k start)
    (hbad : RleOffends a k) : rleScan k start cnt (a.drop k) = .error (.malformed .r1 k) := by
  rw [drop_eq_getD_cons hk]
  by_cases habove : maxCodePoint < (a.getD k 0#32).toNat
  · exact rleScan_above habove
  · obtain ⟨hd, hprev⟩ := hbad.resolve_left habove
    rw [hopen.eq_none hprev, rleScan_symbol_unopened (rleSymbol_iff_not_digit.2 ⟨not_lt.1 habove, hd⟩)]

/-- Settles O38: with no offending index before it the scan reaches the index looked at (`rleDecode_reaches`), and what it
answers there depends on its open count only. -/
theorem rleDecoderMalformed : Obligations.RleDecoderMalformed := by
  refine ⟨fun a i hi hbad hgood => ?_, fun a first hgood hlt hdigits hbefore => ?_, fun a hgood hend => ?_⟩
  · obtain ⟨rs, start, cnt, hopen, hscan⟩ := rleDecode_reaches hi.le hgood
    rw [hscan, rleScan_offends hi hopen hbad]
    rfl
  · obtain ⟨rs, start, cnt, hopen, hscan⟩ := rleDecode_reaches le_rfl hgood
    obtain ⟨first', rfl⟩ := hopen.exists_eq_some (by omega) (hdigits _ (by omega) (by omega))
    rw [hscan, List.drop_length, hopen.first_unique ⟨hlt, hdigits, hbefore⟩]
    rfl
  · obtain ⟨rs, start, cnt, hopen, hscan⟩ := rleDecode_reaches le_rfl hgood
    rw [hopen.eq_none (hend.imp_left fun ha => by rw [ha, List.length_nil]), List.drop_length] at hscan
    exact ⟨_, hscan⟩

end Sys2Proof.Machine
end

section
/-! The remainder width and the parameter check of the Golomb-Rice codec, and the limits a valid input's result must fit
(42_golomb_rice.md R600, R602, R605). -/
namespace Sys2Proof.Machine

theorem clog2_le_iff {m k : Nat} : clog2 m ≤ k ↔ m ≤ 2 ^ k := by
  rw [clog2]
  split
  case isTrue h => exact iff_of_true k.zero_le (h.trans Nat.one_le_two_pow)
  case isFalse h =>
    rw [Nat.succ_le_iff, Nat.log2_lt (by omega)]
    omega

/-- Settles O41: `clog2 m ≤ k` says the same as `m ≤ 2 ^ k`. -/
theorem golombRemainderWidth : Obligations.GolombRemainderWidth :=
  ⟨fun _ _ => ⟨clog2_le_iff.1 le_rfl, fun _ => clog2_le_iff.2⟩, by decide⟩

/-- The answer `r`, given only where the number `n` does not exceed a capacity or limit; RESOURCE where it does. -/
def withinLimit (src : ErrSrc) (cap n : Nat) (r : Except Err Outputs) : Except Err Outputs :=
  if cap < n then .error (.resource src cap) else r

section
variable {src : ErrSrc} {cap n : Nat} {r : Except Err Outputs}

theorem withinLimit_exceeds (h : cap < n) : withinLimit src cap n r = .error (.resource src cap) := if_pos h

theorem withinLimit_fits (h : n ≤ cap) : withinLimit src cap n r = r := if_neg h.not_gt

theorem withinLimit_ok_ne_configReg (o : Outputs) (x : Reg) : withinLimit src cap n (.ok o) ≠ .error (.configReg x) := by
  rcases lt_or_ge cap n with h | h
  · simp [withinLimit_exceeds h, Err.resource, Err.configReg]
  · simp [withinLimit_fits h]

end

theorem idealGre_of_codePoints {s : State} {xs : List Word} (hin : s.gre.inLen.toNat ≤ capacity s.params .gre .r1)
    (hm : 0 < sint32 s.gre.m) (hread : s.inWords .gre .r1 s.gre.inLen.toNat = xs)
    (hfind : xs.findIdx? (fun c => decide (maxCodePoint < c.toNat)) = none) :
    idealGre s = withinLimit .r2 (capacity s.params .gre .r2) (grLength s.gre.m.toNat xs)
      (.ok ⟨[(.r2, packBits (grEncode s.gre.m.toNat xs))], [(.outLen, toWord (grLength s.gre.m.toNat xs))]⟩) := by
  rw [idealGre, if_neg hin.not_gt, if_neg hm.not_ge, toNat_sint32_of_pos hm, hread]
  dsimp only
  rw [hfind]
  rfl

theorem idealGre_eq_badParameter_iff {s : State} (hin : s.gre.inLen.toNat ≤ capacity s.params .gre .r1) :
    idealGre s = .error (.configReg .grM) ↔ sint32 s.gre.m ≤ 0 := by
  refine ⟨fun h => not_lt.1 fun hm => ?_, fun hm => by rw [idealGre, if_neg hin.not_gt, if_pos hm]⟩
  cases hfind : (s.inWords .gre .r1 s.gre.inLen.toNat).findIdx? fun c => decide (maxCodePoint < c.toNat) with
  | some i =>
    rw [(idealGre_eq_unsupported_iff hin hm).2 hfind] at h
    simp [Err.unsupported, Err.configReg] at h
  | none => exact withinLimit_ok_ne_configReg _ _ ((idealGre_of_codePoints hin hm rfl hfind).symm.trans h)

theorem idealGrd_eq_badParameter_iff {s : State} (hin : s.grd.inLen.toNat ≤ capacity s.params .grd .r1) :
    idealGrd s = .error (.configReg .grM) ↔ sint32 s.grd.m ≤ 0 := by
  refine ⟨fun h => not_lt.1 fun hm => ?_, fun hm => by rw [idealGrd, if_neg hin.not_gt, if_pos hm]⟩
  rw [idealGrd_eq_decoderAnswer hin hm] at h
  cases hdec : grDecode s.grd.m.toNat (s.inBits .grd .r1 s.grd.inLen.toNat) with
  | error x =>
    rw [decoderAnswer_error hdec, Except.error.injEq] at h
    have hcode : x.code = .malformed := grLoop_code _ _ _ _ _ hdec
    simp [h, Err.configReg] at hcode
  | ok out =>
    rw [hdec] at h
    exact withinLimit_ok_ne_configReg _ _ h

/-- Settles O42: with a positive m no branch after the parameter check answers a configuration error. -/
theorem golombBadParameter : Obligations.GolombBadParameter :=
  ⟨fun _ hin => (idealGre_eq_badParameter_iff hin).symm, fun _ hin => (idealGrd_eq_badParameter_iff hin).symm,
    fun _ => ⟨rfl, rfl⟩⟩

end Sys2Proof.Machine
end

section
/-! The lengths of the encoders' results, and the codes of an LZW result (41_rle.md R504, R505; 43_huffman.md R713;
44_lzw.md R802, R826). -/
namespace Sys2Proof.Machine

theorem decDigits_length {fuel n : Nat} (hn : 0 < n) (hfuel : n < fuel) :
    (decDigits fuel n).length = (Nat.digits 10 n).length := by
  induction fuel generalizing n with
  | zero => exact absurd hfuel n.not_lt_zero
  | succ fuel ih =>
    rw [decDigits]
    split
    case isTrue h => rw [Nat.digits_of_lt 10 n hn.ne' h]; rfl
    case isFalse h =>
      rw [Nat.digits_def' (by decide) hn, List.length_append, ih (by omega) (by omega)]
      rfl

theorem dec_length {n : Nat} (hn : 0 < n) : (dec n).length = (Nat.digits 10 n).length :=
  decDigits_length hn n.lt_succ_self

theorem runs_pos (xs : List Word) : ∀ x ∈ runs xs, 0 < x.1 := by
  induction xs with
  | nil => simp [runs]
  | cons c xs ih =>
    rw [runs]
    split
    next n y rest hruns =>
      rw [hruns] at ih
      obtain ⟨-, hrest⟩ := List.forall_mem_cons.1 ih
      split
      · exact List.forall_mem_cons.2 ⟨n.succ_pos, hrest⟩
      · exact List.forall_mem_cons.2 ⟨Nat.one_pos, ih⟩
    next => exact List.forall_mem_singleton.2 Nat.one_pos

theorem rleEmit_length {rs : List (Nat × Word)} (hpos : ∀ x ∈ rs, 0 < x.1) :
    (rleEmit rs).length = (rs.map fun x => (Nat.digits 10 x.1).length + 1).sum := by
  rw [rleEmit, List.length_flatMap]
  exact congrArg List.sum (List.map_congr_left fun x hx => by simp [dec_length (hpos x hx)])

theorem rleEncode_of_symbols {xs : List Word} (h : ∀ c ∈ xs, RleSymbol c) : rleEncode xs = .ok (rleEmit (runs xs)) := by
  have hfind : xs.findIdx? (fun c => !rleSymbol c) = none := by simpa [List.findIdx?_eq_none_iff] using h
  rw [rleEncode, hfind]

section
variable (f : Word → Nat)

/-- One more occurrence of a symbol adds that symbol's weight once. -/
theorem countSymbol_weight (t : List (Word × Nat)) (c : Word) :
    ((countSymbol t c).map fun x => x.2 * f x.1).sum = (t.map fun x => x.2 * f x.1).sum + f c := by
  induction t with
  | nil => simp [countSymbol]
  | cons x t ih =>
    rw [countSymbol]
    split
    case isTrue h =>
      subst h
      simp only [List.map_cons, List.sum_cons]
      ring
    case isFalse => simp only [List.map_cons, List.sum_cons, ih, Nat.add_assoc]

theorem foldl_countSymbol_weight (xs : List Word) (t : List (Word × Nat)) :
    ((xs.foldl countSymbol t).map fun x => x.2 * f x.1).sum = (t.map fun x => x.2 * f x.1).sum + (xs.map f).sum := by
  induction xs generalizing t with
  | nil => simp
  | cons c xs ih => rw [List.foldl_cons, ih, countSymbol_weight, List.map_cons, List.sum_cons, Nat.add_assoc]

/-- A weight summed over a sequence is its sum over the sequence's table, by count. -/
theorem freqTable_weight (xs : List Word) : ((freqTable xs).map fun x => x.2 * f x.1).sum = (xs.map f).sum := by
  rw [freqTable, foldl_countSymbol_weight, List.map_nil, List.sum_nil, Nat.zero_add]

end

theorem hufEncode_freqTable_length {xs : List Word} {root : HufTree} (h : buildTree (freqTable xs) = some root) :
    (hufEncode (freqTable xs) xs).length =
      ((freqTable xs).map fun x => x.2 * (codeOf (codeTable root) x.1).length).sum := by
  rw [freqTable_weight fun c => (codeOf (codeTable root) c).length, hufEncode, h]
  exact List.length_flatMap

/-- The code the encoder emits is below the code its next entry takes. -/
theorem lzwCode_getD_lt (dict : List (List Byte)) (w : List Byte) : (lzwCode dict w).getD 0 < lzwNext dict := by
  unfold lzwCode lzwNext
  split
  next b => exact Nat.lt_add_right _ b.isLt
  next =>
    split
    next j hj =>
      have hlt : j < dict.length := (List.findIdx?_eq_some_iff_getElem.1 hj).1
      exact Nat.add_lt_add_left hlt 256
    next => simp

theorem lzwEncLoop_codes_length_le {dict : List (List Byte)} {w : List Byte} (bs : List Byte) (hw : w ≠ []) :
    (lzwEncLoop dict w bs).1.length ≤ bs.length + 1 := by
  induction bs generalizing dict w with
  | nil => simp [lzwEncLoop, hw]
  | cons b bs ih =>
    rw [lzwEncLoop]
    split
    · exact (ih (by simp)).trans (Nat.le_succ _)
    · exact Nat.succ_le_succ (ih (by simp))

theorem lzwEncode_codes_length_le (xs : List Byte) : (lzwEncode xs).1.length ≤ xs.length := by
  cases xs with
  | nil => exact le_rfl
  | cons b bs => exact lzwEncLoop_codes_length_le bs (List.cons_ne_nil b [])

theorem lzwNext_le_lzwEncLoop (dict : List (List Byte)) (w bs : List Byte) :
    lzwNext dict ≤ lzwNext (lzwEncLoop dict w bs).2 := by
  induction bs generalizing dict w with
  | nil => exact le_rfl
  | cons b bs ih =>
    rw [lzwEncLoop]
    split
    · exact ih _ _
    · refine le_trans ?_ (ih _ _)
      simp [lzwNext]

/-- Every code the loop emits is below the code its final dictionary's next entry would take. -/
theorem lzwEncLoop_codes_lt (dict : List (List Byte)) (w bs : List Byte) :
    ∀ c ∈ (lzwEncLoop dict w bs).1, c < lzwNext (lzwEncLoop dict w bs).2 := by
  induction bs generalizing dict w with
  | nil =>
    rw [lzwEncLoop]
    split
    · simp
    · simpa using lzwCode_getD_lt dict w
  | cons b bs ih =>
    rw [lzwEncLoop]
    split
    · exact ih _ _
    · refine List.forall_mem_cons.2 ⟨?_, ih _ _⟩
      calc (lzwCode dict w).getD 0 < lzwNext dict := lzwCode_getD_lt dict w
        _ ≤ lzwNext (dict ++ [w ++ [b]]) := by simp [lzwNext]
        _ ≤ _ := lzwNext_le_lzwEncLoop _ _ _

theorem lzwEncode_codes_lt (xs : List Byte) : ∀ c ∈ (lzwEncode xs).1, c < lzwNext (lzwEncode xs).2 :=
  lzwEncLoop_codes_lt [] [] xs

theorem lzwDecLoop_dict_length (dict : List (List Byte)) (w : List Byte) (cs : List Nat) :
    (lzwDecLoop dict w cs).2.length = dict.length + cs.length := by
  induction cs generalizing dict w with
  | nil => rfl
  | cons c cs ih =>
    rw [lzwDecLoop, ih, List.length_append, List.length_singleton, List.length_cons, Nat.add_assoc, Nat.add_comm 1]

theorem lt_of_lzwBadCode_eq_none {i : Nat} {cs : List Nat} (h : lzwBadCode i cs = none) :
    ∀ c ∈ cs, c < 255 + i + cs.length := by
  induction cs generalizing i with
  | nil => simp
  | cons c cs ih =>
    rw [lzwBadCode] at h
    split at h
    case isTrue => cases h
    case isFalse hc =>
      rw [List.length_cons]
      refine List.forall_mem_cons.2 ⟨by omega, fun x hx => ?_⟩
      have hlt := ih h x hx
      omega

/-- Every code of a sequence that decodes is below the code its final dictionary's next entry would take. -/
theorem lzwDecode_codes_lt {codes : List Nat} {res : List Byte × List (List Byte)} (h : lzwDecode codes = .ok res) :
    ∀ c ∈ codes, c < lzwNext res.2 := by
  cases codes with
  | nil => simp
  | cons c0 cs =>
    unfold lzwDecode at h
    split at h
    next => cases h
    next hbad =>
      cases h
      intro c hc
      have hlt := lt_of_lzwBadCode_eq_none hbad c hc
      rw [List.length_cons] at hlt
      rw [lzwNext, lzwDecLoop_dict_length, List.length_nil]
      omega

end Sys2Proof.Machine
end

section
/-! Each engine's answer to a valid input: its limits in the order of its rule, then the result (41_rle.md R505,
43_huffman.md R713, 44_lzw.md R802, R813, R826, 45_vq_kmeans.md R911). -/
namespace Sys2Proof.Machine

theorem findIdx?_above_eq_none {xs : List Word} (h : ∀ c ∈ xs, c.toNat ≤ 0x10FFFF) :
    xs.findIdx? (fun c => decide (maxCodePoint < c.toNat)) = none :=
  List.findIdx?_eq_none_iff.2 fun c hc => decide_eq_false (h c hc).not_gt

section
variable {s : State}

theorem idealRlee_of_rleEncode {out : List Word} (hin : s.rlee.inLen.toNat ≤ capacity s.params .rlee .r1)
    (h : rleEncode (s.inWords .rlee .r1 s.rlee.inLen.toNat) = .ok out) :
    idealRlee s = withinLimit .r2 (capacity s.params .rlee .r2) out.length
      (.ok ⟨[(.r2, out)], [(.outLen, toWord out.length)]⟩) := by
  rw [idealRlee, if_neg hin.not_gt, h]
  rfl

theorem idealHufe_of_codePoints {xs : List Word} (hin : s.hufe.inLen.toNat ≤ capacity s.params .hufe .r1)
    (hread : s.inWords .hufe .r1 s.hufe.inLen.toNat = xs)
    (hfind : xs.findIdx? (fun c => decide (maxCodePoint < c.toNat)) = none) :
    idealHufe s = withinLimit .r3 (capacity s.params .hufe .r3) (freqTable xs).length
      (withinLimit .r2 (capacity s.params .hufe .r2) (hufEncode (freqTable xs) xs).length
        (.ok ⟨[(.r2, packBits (hufEncode (freqTable xs) xs)), (.r3, packEntries (freqTable xs))],
          [(.outLen, toWord (hufEncode (freqTable xs) xs).length), (.auxLen, toWord (freqTable xs).length)]⟩)) := by
  rw [idealHufe, if_neg hin.not_gt, hread]
  dsimp only
  rw [hfind]
  rfl

theorem idealLzwe_of_lzwEncode {codes : List Nat} {dict : List (List Byte)}
    (hin : s.lzwe.inLen.toNat ≤ capacity s.params .lzwe .r1)
    (h : lzwEncode (s.inBytes .lzwe .r1 s.lzwe.inLen.toNat) = (codes, dict)) :
    idealLzwe s = withinLimit .dict s.params.lzwDictCap (lzwNext dict)
      (withinLimit .r2 (capacity s.params .lzwe .r2) codes.length
        (.ok ⟨[(.r2, codes.map toWord)], [(.outLen, toWord codes.length), (.lzwNextCode, toWord (lzwNext dict))]⟩)) := by
  rw [idealLzwe, if_neg hin.not_gt, h]
  rfl

theorem idealLzwd_of_error {x : Err} (hin : s.lzwd.inLen.toNat ≤ capacity s.params .lzwd .r1)
    (h : lzwDecode ((s.inWords .lzwd .r1 s.lzwd.inLen.toNat).map BitVec.toNat) = .error x) : idealLzwd s = .error x := by
  rw [idealLzwd, if_neg hin.not_gt, h]

theorem idealLzwd_of_ok {out : List Byte} {dict : List (List Byte)}
    (hin : s.lzwd.inLen.toNat ≤ capacity s.params .lzwd .r1)
    (h : lzwDecode ((s.inWords .lzwd .r1 s.lzwd.inLen.toNat).map BitVec.toNat) = .ok (out, dict)) :
    idealLzwd s = withinLimit .dict s.params.lzwDictCap (lzwNext dict)
      (withinLimit .r2 (capacity s.params .lzwd .r2) out.length
        (.ok ⟨[(.r2, packBytes out)], [(.outLen, toWord out.length), (.lzwNextCode, toWord (lzwNext dict))]⟩)) := by
  rw [idealLzwd, if_neg hin.not_gt, h]
  rfl

theorem idealVqEnc_of_vqInitial_error {x : Err} (hconf : vqConfigError s true = none)
    (h : vqInitial s (vqEncGeom s).n (vqK s (vqEncGeom s)) = .error x) : idealVqEnc s = .error x := by
  rw [idealVqEnc, hconf]
  dsimp only
  rw [h]

theorem idealVqEnc_of_vqInitial_ok {idx : List Nat} (hconf : vqConfigError s true = none)
    (h : vqInitial s (vqEncGeom s).n (vqK s (vqEncGeom s)) = .ok idx) :
    ∃ o, idealVqEnc s = withinLimit .internal s.params.vqMaxBlocks (vqEncGeom s).n
      (withinLimit .r2 (capacity s.params .vq .r2) (vqK s (vqEncGeom s) * (vqEncGeom s).d)
        (withinLimit .r3 (capacity s.params .vq .r3) (vqEncGeom s).n (.ok o))) := by
  rw [idealVqEnc, hconf]
  dsimp only
  rw [h]
  exact ⟨_, rfl⟩

end

theorem legal_lzwDictCap {p : Params} (h : p.legal = true) : p.lzwDictCap ≤ 2 ^ 31 := by
  simp only [Params.legal, Bool.and_eq_true, decide_eq_true_eq] at h
  obtain ⟨⟨⟨⟨-, hdict⟩, -⟩, -⟩, -⟩ := h
  exact hdict

/-- Settles O43: each engine's answer to a valid input is its result within its limits, taken one after another. -/
theorem encodedLengthsAndLimits : Obligations.EncodedLengthsAndLimits := by
  refine ⟨fun s xs hlen hcap hread hxs hm => ?gre, fun s xs hlen hcap hread hxs => ?rlee,
    fun s xs t out hlen hcap hread hxs ht hout => ?hufe, fun s xs codes dict hlen hcap hread henc => ?lzwe,
    fun s codes hcap hcodes => ?lzwd, fun p => legal_lzwDictCap, fun s n k d hconf hn hk hd => ?vq⟩
  case gre =>
    rw [← hlen] at hcap hread
    rw [grEncode_length, ideal, idealGre_of_codePoints hcap hm hread (findIdx?_above_eq_none hxs)]
    exact ⟨rfl, withinLimit_exceeds, withinLimit_fits⟩
  case rlee =>
    rw [← hlen] at hcap hread
    have henc := rleEncode_of_symbols hxs
    rw [ideal, idealRlee_of_rleEncode hcap (by rw [hread, henc])]
    exact ⟨_, henc, rleEmit_length (runs_pos xs), withinLimit_exceeds, withinLimit_fits⟩
  case hufe =>
    rw [← hlen] at hcap hread
    subst ht hout
    rw [ideal, idealHufe_of_codePoints hcap hread (findIdx?_above_eq_none hxs)]
    refine ⟨fun root => hufEncode_freqTable_length, withinLimit_exceeds, fun htable => ?_, fun htable => ?_⟩
    · rw [withinLimit_fits htable]
      exact withinLimit_exceeds
    · rw [withinLimit_fits htable]
      exact withinLimit_fits
  case lzwe =>
    rw [← hlen] at hcap hread
    have hcount := lzwEncode_codes_length_le xs
    have hcodes := lzwEncode_codes_lt xs
    rw [henc] at hcount hcodes
    rw [ideal, idealLzwe_of_lzwEncode hcap (by rw [hread, henc])]
    refine ⟨hcount, withinLimit_exceeds, fun hdict => ⟨fun c hc => (hcodes c hc).trans_le hdict, ?_⟩⟩
    rw [withinLimit_fits (n := lzwNext dict) hdict]
    exact ⟨withinLimit_exceeds, withinLimit_fits⟩
  case lzwd =>
    subst hcodes
    refine ⟨fun x => idealLzwd_of_error hcap, fun out dict hdec => ?_⟩
    rw [ideal, idealLzwd_of_ok hcap hdec]
    refine ⟨withinLimit_exceeds, fun hdict => ⟨fun c hc => (lzwDecode_codes_lt hdec c hc).trans_le hdict, ?_⟩⟩
    rw [withinLimit_fits (n := lzwNext dict) hdict]
    exact ⟨withinLimit_exceeds, withinLimit_fits⟩
  case vq =>
    subst hn hk hd
    refine ⟨fun x => idealVqEnc_of_vqInitial_error hconf, fun idx hidx => ?_⟩
    obtain ⟨o, ho⟩ := idealVqEnc_of_vqInitial_ok hconf hidx
    rw [ideal, ho]
    refine ⟨withinLimit_exceeds, fun hblocks => ?_⟩
    rw [withinLimit_fits hblocks]
    refine ⟨withinLimit_exceeds, fun hbook => ?_⟩
    rw [withinLimit_fits hbook]
    exact ⟨withinLimit_exceeds, fun hasg => ⟨o, withinLimit_fits hasg⟩⟩

end Sys2Proof.Machine
end

section
/-! The frequency table and its check (43_huffman.md R700, R721). -/
namespace Sys2Proof.Machine

/-- Counting a symbol leaves the listed symbols as they are when it is among them; a new one goes to the end (R700). -/
theorem countSymbol_symbols (t : List (Word × Nat)) (c : Word) :
    (countSymbol t c).map Prod.fst = if c ∈ t.map Prod.fst then t.map Prod.fst else t.map Prod.fst ++ [c] := by
  induction t with
  | nil => rfl
  | cons x t ih =>
    rw [countSymbol]
    by_cases h : c = x.1
    · simp [h]
    · rw [if_neg h, List.map_cons, ih, List.map_cons]
      simp only [List.mem_cons, h, false_or]
      split <;> rfl

theorem freqTable_concat (s : List Word) (c : Word) : freqTable (s ++ [c]) = countSymbol (freqTable s) c :=
  List.foldl_concat ..

theorem mem_freqTable_symbols {s : List Word} {c : Word} : c ∈ (freqTable s).map Prod.fst ↔ c ∈ s := by
  induction s using List.reverseRecOn with
  | nil => exact Iff.rfl
  | append_singleton s d ih =>
    rw [freqTable_concat, countSymbol_symbols, List.mem_append, List.mem_singleton, ← ih]
    split
    case isTrue hd => exact ⟨.inl, fun h => h.elim id fun hc => hc ▸ hd⟩
    case isFalse => rw [List.mem_append, List.mem_singleton]

/-- The symbols stand in the order of their first occurrences: a symbol counted for the first time comes after all of
them in the table and in the sequence. -/
theorem freqTable_symbols_pairwise (s : List Word) :
    ((freqTable s).map Prod.fst).Pairwise fun a b => s.idxOf a < s.idxOf b := by
  induction s using List.reverseRecOn with
  | nil => exact List.Pairwise.nil
  | append_singleton s c ih =>
    have idxOf_old {a : Word} (ha : a ∈ (freqTable s).map Prod.fst) : (s ++ [c]).idxOf a = s.idxOf a :=
      List.idxOf_append_of_mem (mem_freqTable_symbols.1 ha)
    have hold : ((freqTable s).map Prod.fst).Pairwise fun a b => (s ++ [c]).idxOf a < (s ++ [c]).idxOf b :=
      ih.imp_of_mem fun ha hb hlt => by rwa [idxOf_old ha, idxOf_old hb]
    rw [freqTable_concat, countSymbol_symbols]
    split
    case isTrue => exact hold
    case isFalse hc =>
      refine List.pairwise_append.2 ⟨hold, List.pairwise_singleton _ _, fun a ha b hb => ?_⟩
      rw [List.mem_singleton.1 hb, idxOf_old ha, List.idxOf_append_of_notMem (mt mem_freqTable_symbols.2 hc)]
      exact Nat.lt_add_right _ (List.idxOf_lt_length_iff.2 (mem_freqTable_symbols.1 ha))

theorem freqTable_symbols_nodup (s : List Word) : ((freqTable s).map Prod.fst).Nodup :=
  (freqTable_symbols_pairwise s).imp fun hlt heq => hlt.ne (congrArg s.idxOf heq)

/-- A sum with one nonzero term. -/
theorem sum_map_eq_of_nodup {α : Type} [DecidableEq α] {l : List α} {a : α} {f : α → Nat} (h : l.Nodup) (ha : a ∈ l)
    (hf : ∀ b ≠ a, b ∈ l → f b = 0) : (l.map f).sum = f a := by
  rw [List.sum_map_eq_nsmul_single a f hf, List.count_eq_one_of_mem h ha, one_smul]

/-- The weight of a sequence that counts one symbol only is that symbol's count, in the sequence and in the table. -/
theorem freqTable_count {s : List Word} {x : Word × Nat} (hx : x ∈ freqTable s) : x.2 = s.count x.1 := by
  have hnodup := freqTable_symbols_nodup s
  have hother : ∀ y ≠ x, y ∈ freqTable s → y.2 * (if y.1 = x.1 then 1 else 0) = 0 := fun y hne hy => by
    rw [if_neg fun heq => hne (List.inj_on_of_nodup_map hnodup hy hx heq), Nat.mul_zero]
  calc x.2 = ((freqTable s).map fun y => y.2 * if y.1 = x.1 then 1 else 0).sum := by
        rw [sum_map_eq_of_nodup hnodup.of_map hx hother, if_pos rfl, Nat.mul_one]
    _ = (s.map fun c => if c = x.1 then 1 else 0).sum := freqTable_weight (fun c => if c = x.1 then 1 else 0) s
    _ = s.count x.1 := by
        rw [List.sum_map_eq_nsmul_single x.1 _ fun c hne _ => if_neg hne]
        simp

/-- Settles O46: counting the symbols one by one keeps each of the four facts. -/
theorem huffmanFrequencyTable : Obligations.HuffmanFrequencyTable := fun s =>
  ⟨freqTable_symbols_nodup s, fun _ => mem_freqTable_symbols, fun _ => freqTable_count,
    List.pairwise_map (R := fun a b => s.idxOf a < s.idxOf b) |>.1 (freqTable_symbols_pairwise s)⟩

section
variable {α : Type} {ok : α → Bool}

/-- The element at index `k` fails `ok`, is among `seen` or repeats an earlier element of `l`. -/
def BadOrRepeated (ok : α → Bool) (d : α) (seen l : List α) (k : Nat) : Prop :=
  ok (l.getD k d) = false ∨ l.getD k d ∈ seen ∨ ∃ i, i < k ∧ l.getD i d = l.getD k d

theorem badOrRepeated_zero [DecidableEq α] {d x : α} {seen l : List α} :
    BadOrRepeated ok d seen (x :: l) 0 ↔ (!ok x || decide (x ∈ seen)) = true := by
  simp [BadOrRepeated]

/-- Past the first element, the rest is judged as if that element had been seen. -/
theorem badOrRepeated_succ {d x : α} {seen l : List α} {k : Nat} :
    BadOrRepeated ok d seen (x :: l) (k + 1) ↔ BadOrRepeated ok d (x :: seen) l k := by
  simp only [BadOrRepeated, Nat.exists_lt_succ_left, List.getD_cons_succ, List.getD_cons_zero, List.mem_cons,
    eq_comm (a := x), or_assoc, or_left_comm (a := l.getD k d = x)]

/-- Counting from one more gives one more. -/
theorem firstBadOrRepeated_succ [DecidableEq α] {seen l : List α} {i : Nat} :
    firstBadOrRepeated ok seen (i + 1) l = (firstBadOrRepeated ok seen i l).map (· + 1) := by
  induction l generalizing seen i with
  | nil => rfl
  | cons x l ih =>
    simp only [firstBadOrRepeated, ih]
    split <;> rfl

/-- What a search from index 0 finds: the least bad index. -/
theorem firstBadOrRepeated_eq_some_iff [DecidableEq α] (d : α) {seen l : List α} {k : Nat} :
    firstBadOrRepeated ok seen 0 l = some k ↔
      k < l.length ∧ BadOrRepeated ok d seen l k ∧ ∀ j, j < k → ¬BadOrRepeated ok d seen l j := by
  induction l generalizing seen k with
  | nil => simp [firstBadOrRepeated]
  | cons x l ih =>
    rw [firstBadOrRepeated, firstBadOrRepeated_succ]
    cases k with
    | zero =>
      rw [badOrRepeated_zero]
      split
      case isTrue hx => simp [hx]
      case isFalse hx => simp [hx]
    | succ k =>
      rw [Nat.forall_lt_succ_left, badOrRepeated_zero]
      simp only [badOrRepeated_succ]
      split
      case isTrue hx => simp [hx]
      case isFalse hx => simp [hx, ih]

theorem firstBadOrRepeated_eq_none_of_nodup [DecidableEq α] {seen l : List α} {i : Nat}
    (hok : ∀ x ∈ l, ok x = true ∧ x ∉ seen) (h : l.Nodup) : firstBadOrRepeated ok seen i l = none := by
  induction l generalizing seen i with
  | nil => rfl
  | cons x l ih =>
    obtain ⟨⟨hx, hseen⟩, hl⟩ := List.forall_mem_cons.1 hok
    obtain ⟨hxl, hnodup⟩ := List.nodup_cons.1 h
    rw [firstBadOrRepeated, hx, decide_eq_false hseen]
    refine ih (fun y hy => ⟨(hl y hy).1, fun hmem => ?_⟩) hnodup
    rcases List.mem_cons.1 hmem with rfl | hmem
    · exact hxl hy
    · exact (hl y hy).2 hmem

end

/-- The entry at which a table is malformed (R721). -/
def hufTableError (t : List (Word × Nat)) : Option Nat :=
  firstBadOrRepeated (fun c : Word => decide (c.toNat ≤ maxCodePoint)) [] 0 (t.map Prod.fst)

theorem hufTableError_eq_some_iff {t : List (Word × Nat)} {j : Nat} :
    hufTableError t = some j ↔
      j < t.length ∧
      (0x10FFFF < (t.getD j (0#32, 0)).1.toNat ∨ ∃ i, i < j ∧ (t.getD i (0#32, 0)).1 = (t.getD j (0#32, 0)).1) ∧
      ∀ k, k < j → (t.getD k (0#32, 0)).1.toNat ≤ 0x10FFFF ∧
        ∀ i, i < k → (t.getD i (0#32, 0)).1 ≠ (t.getD k (0#32, 0)).1 := by
  have symbol (i : Nat) : (t.map Prod.fst).getD i 0#32 = (t.getD i (0#32, 0)).1 := List.getD_map t (0#32, 0) Prod.fst
  rw [hufTableError, firstBadOrRepeated_eq_some_iff 0#32]
  simp only [BadOrRepeated, symbol]
  simp [maxCodePoint]

end Sys2Proof.Machine
end

section
/-! Trees, their paths and their codes (43_huffman.md R703, R704). -/
namespace Sys2Proof.Machine

/-- The symbols of a tree's leaves, from left to right. -/
def HufTree.symbols (T : HufTree) : List Word := (treePaths T).map Prod.fst

@[simp] theorem HufTree.symbols_leaf (sym : Word) : (HufTree.leaf sym).symbols = [sym] := rfl

@[simp] theorem HufTree.symbols_node (l r : HufTree) : (HufTree.node l r).symbols = l.symbols ++ r.symbols := by
  simp [symbols, treePaths, Function.comp_def]

theorem codeTable_node (l r : HufTree) : codeTable (.node l r) = treePaths (.node l r) := rfl

@[simp] theorem codeOf_codeTable_leaf (sym : Word) : codeOf (codeTable (.leaf sym)) sym = [false] := by
  simp [codeTable, codeOf]

theorem hufPath_leaf_iff {sym c : Word} {bs : List Bool} : HufPath (.leaf sym) bs c ↔ bs = [] ∧ c = sym :=
  ⟨fun h => by cases h; exact ⟨rfl, rfl⟩, fun ⟨hbs, hc⟩ => hbs ▸ hc ▸ .leaf sym⟩

theorem not_hufPath_node_nil {l r : HufTree} {c : Word} : ¬HufPath (.node l r) [] c := nofun

theorem hufPath_node_cons_iff {l r : HufTree} {b : Bool} {bs : List Bool} {c : Word} :
    HufPath (.node l r) (b :: bs) c ↔ HufPath ((HufTree.node l r).child b) bs c := by
  constructor
  · rintro (_ | ⟨_, _, _, _, h⟩ | ⟨_, _, _, _, h⟩) <;> exact h
  · cases b
    · exact .left l r bs c
    · exact .right l r bs c

/-- The listed paths are the paths of the tree. -/
theorem mem_treePaths_iff {T : HufTree} {c : Word} {bs : List Bool} : (c, bs) ∈ treePaths T ↔ HufPath T bs c := by
  induction T generalizing bs with
  | leaf sym => simp [treePaths, hufPath_leaf_iff, and_comm]
  | node l r ihl ihr =>
    cases bs with
    | nil => simp [treePaths, not_hufPath_node_nil]
    | cons b bs => cases b <;> simp [treePaths, hufPath_node_cons_iff, HufTree.child, ihl, ihr]

theorem HufPath.mem_symbols {T : HufTree} {bs : List Bool} {c : Word} (h : HufPath T bs c) : c ∈ T.symbols :=
  List.mem_map_of_mem (f := Prod.fst) (mem_treePaths_iff.2 h)

theorem hufPath_codeOf {T : HufTree} {c : Word} (h : c ∈ T.symbols) : HufPath T (codeOf (treePaths T) c) c := by
  obtain ⟨p, hp, rfl⟩ := List.mem_map.1 h
  obtain ⟨q, hq⟩ : ∃ q, (treePaths T).find? (fun q => q.1 == p.1) = some q :=
    Option.isSome_iff_exists.1 (List.find?_isSome.2 ⟨p, hp, beq_self_eq_true _⟩)
  have heq : q.1 = p.1 := by simpa using List.find?_some hq
  rw [codeOf, hq, ← heq]
  exact mem_treePaths_iff.1 (List.mem_of_find?_eq_some hq)

/-- A tree without a repeated symbol has one path to each: the symbol's code. -/
theorem HufPath.eq_codeOf {T : HufTree} {bs : List Bool} {c : Word} (h : HufPath T bs c) (hnodup : T.symbols.Nodup) :
    bs = codeOf (treePaths T) c :=
  congrArg Prod.snd (List.inj_on_of_nodup_map hnodup (mem_treePaths_iff.2 h)
    (mem_treePaths_iff.2 (hufPath_codeOf h.mem_symbols)) rfl)

/-- Paths end at leaves, so none goes on from the end of another. -/
theorem HufPath.eq_of_prefix {T : HufTree} {bs bs' : List Bool} {c d : Word} (h : HufPath T bs c) (h' : HufPath T bs' d)
    (hpre : bs <+: bs') : c = d := by
  induction h generalizing bs' with
  | leaf sym => exact (hufPath_leaf_iff.1 h').2.symm
  | left l r bs c h ih =>
    cases h' with
    | left _ _ bs' _ h' => exact ih h' (List.cons_prefix_cons.1 hpre).2
    | right => exact nomatch (List.cons_prefix_cons.1 hpre).1
  | right l r bs c h ih =>
    cases h' with
    | left => exact nomatch (List.cons_prefix_cons.1 hpre).1
    | right _ _ bs' _ h' => exact ih h' (List.cons_prefix_cons.1 hpre).2

theorem codeOf_ne_nil {root : HufTree} {c : Word} (h : c ∈ root.symbols) : codeOf (codeTable root) c ≠ [] := by
  cases root with
  | leaf sym =>
    obtain rfl := List.mem_singleton.1 h
    simp
  | node l r =>
    intro hnil
    exact not_hufPath_node_nil (hnil ▸ hufPath_codeOf h)

theorem codes_prefixFree {root : HufTree} {c d : Word} (hc : c ∈ root.symbols) (hd : d ∈ root.symbols)
    (hpre : codeOf (codeTable root) c <+: codeOf (codeTable root) d) : c = d := by
  cases root with
  | leaf sym => exact (List.mem_singleton.1 hc).trans (List.mem_singleton.1 hd).symm
  | node l r => exact (hufPath_codeOf hc).eq_of_prefix (hufPath_codeOf hd) hpre

end Sys2Proof.Machine
end

section
/-! The construction of the tree (43_huffman.md R701, R702): the sorted queue, and the one tree that the merges give. -/
namespace Sys2Proof.Machine

@[simp] theorem keyLess_iff {a b : HufNode} : keyLess a b = true ↔ HufKeyLt a b := by
  simp [keyLess, HufKeyLt]

theorem HufKeyLt.asymm {a b : HufNode} (h : HufKeyLt a b) : ¬HufKeyLt b a := by
  unfold HufKeyLt at *
  omega

theorem HufKeyLt.trans {a b c : HufNode} (h : HufKeyLt a b) (h' : HufKeyLt b c) : HufKeyLt a c := by
  unfold HufKeyLt at *
  omega

/-- The seq values make the order of keys total (R702). -/
theorem hufKeyLt_of_not {a b : HufNode} (hseq : a.seq ≠ b.seq) (h : ¬HufKeyLt a b) : HufKeyLt b a := by
  unfold HufKeyLt at *
  omega

theorem insertNode_perm (x : HufNode) (q : List HufNode) : (insertNode x q).Perm (x :: q) := by
  induction q with
  | nil => exact .refl _
  | cons y q ih =>
    rw [insertNode]
    split
    · exact .refl _
    · exact (ih.cons y).trans (.swap x y q)

/-- A node with a seq of its own keeps the queue sorted. -/
theorem insertNode_pairwise {x : HufNode} {q : List HufNode} (hq : q.Pairwise HufKeyLt) (hseq : ∀ y ∈ q, x.seq ≠ y.seq) :
    (insertNode x q).Pairwise HufKeyLt := by
  induction q with
  | nil => exact List.pairwise_singleton _ _
  | cons y q ih =>
    obtain ⟨hy, hrest⟩ := List.pairwise_cons.1 hq
    obtain ⟨hxy, hxq⟩ := List.forall_mem_cons.1 hseq
    rw [insertNode]
    split
    case isTrue hlt =>
      rw [keyLess_iff] at hlt
      exact List.pairwise_cons.2 ⟨List.forall_mem_cons.2 ⟨hlt, fun z hz => hlt.trans (hy z hz)⟩, hq⟩
    case isFalse hlt =>
      rw [keyLess_iff] at hlt
      refine List.pairwise_cons.2 ⟨fun z hz => ?_, ih hrest hxq⟩
      exact List.forall_mem_cons.2 ⟨hufKeyLt_of_not hxy hlt, hy⟩ z ((insertNode_perm x q).mem_iff.1 hz)

/-- A leaf of Q: a table entry with its index as seq (R701). -/
def leafNode (x : (Word × Nat) × Nat) : HufNode := ⟨x.1.2, x.2, .leaf x.1.1⟩

theorem hufLeaves_eq (t : List (Word × Nat)) : hufLeaves t = t.zipIdx.map leafNode := rfl

theorem leafQueue_perm (i : Nat) (t : List (Word × Nat)) : (leafQueue i t).Perm ((t.zipIdx i).map leafNode) := by
  induction t generalizing i with
  | nil => exact .refl _
  | cons x t ih => exact (insertNode_perm _ _).trans ((ih (i + 1)).cons _)

theorem leafQueue_length (i : Nat) (t : List (Word × Nat)) : (leafQueue i t).length = t.length := by
  simp [(leafQueue_perm i t).length_eq]

theorem leafQueue_seq {i : Nat} {t : List (Word × Nat)} {x : HufNode} (hx : x ∈ leafQueue i t) :
    i ≤ x.seq ∧ x.seq < i + t.length := by
  obtain ⟨y, hy, rfl⟩ := List.mem_map.1 ((leafQueue_perm i t).mem_iff.1 hx)
  exact ⟨List.le_snd_of_mem_zipIdx hy, List.snd_lt_add_of_mem_zipIdx hy⟩

theorem leafQueue_pairwise (i : Nat) (t : List (Word × Nat)) : (leafQueue i t).Pairwise HufKeyLt := by
  induction t generalizing i with
  | nil => exact .nil
  | cons x t ih => exact insertNode_pairwise (ih _) fun y hy => (Nat.lt_of_succ_le (leafQueue_seq hy).1).ne

/-- The node that a merge puts into Q (R701, R703). -/
def mergedNode (next : Nat) (a b : HufNode) : HufNode := ⟨a.weight + b.weight, next, .node a.tree b.tree⟩

theorem mergeNodes_succ (fuel next : Nat) (a b : HufNode) (q : List HufNode) :
    mergeNodes (fuel + 1) next (a :: b :: q) = mergeNodes fuel (next + 1) (insertNode (mergedNode next a b) q) := rfl

/-- Q as the merges need it: sorted, and every seq below that of the next merged node. -/
structure QueueInv (next : Nat) (q : List HufNode) : Prop where
  sorted : q.Pairwise HufKeyLt
  seq_lt : ∀ x ∈ q, x.seq < next

theorem queueInv_leafQueue (t : List (Word × Nat)) : QueueInv t.length (leafQueue 0 t) :=
  ⟨leafQueue_pairwise 0 t, fun _ hx => Nat.zero_add t.length ▸ (leafQueue_seq hx).2⟩

theorem QueueInv.merge {next : Nat} {a b : HufNode} {q : List HufNode} (h : QueueInv next (a :: b :: q)) :
    QueueInv (next + 1) (insertNode (mergedNode next a b) q) := by
  have hlt : ∀ x ∈ q, x.seq < next := fun x hx => h.seq_lt x (List.mem_cons_of_mem _ (List.mem_cons_of_mem _ hx))
  refine ⟨insertNode_pairwise h.sorted.of_cons.of_cons fun x hx => (hlt x hx).ne', fun x hx => ?_⟩
  rcases List.mem_cons.1 ((insertNode_perm _ _).mem_iff.1 hx) with rfl | hx
  · exact next.lt_succ_self
  · exact (hlt x hx).trans next.lt_succ_self

/-- Two orders of one queue that begin with a least node begin with the same node. -/
theorem perm_of_least {a b : HufNode} {l m : List HufNode} (h : (a :: l).Perm (b :: m)) (ha : ∀ x ∈ l, HufKeyLt a x)
    (hb : ∀ x ∈ m, HufKeyLt b x) : a = b ∧ l.Perm m := by
  suffices hab : a = b from ⟨hab, (hab ▸ h).cons_inv⟩
  by_contra hne
  have hal : a ∈ m := (List.mem_cons.1 (h.mem_iff.1 List.mem_cons_self)).resolve_left hne
  have hbl : b ∈ l := (List.mem_cons.1 (h.mem_iff.2 List.mem_cons_self)).resolve_left (Ne.symm hne)
  exact (ha b hbl).asymm (hb a hal)

/-- The construction does not see the order in which Q lists its nodes. -/
theorem HufBuilds.perm {next : Nat} {q q' : List HufNode} {r : HufTree} (h : HufBuilds next q r) (hperm : q.Perm q') :
    HufBuilds next q' r := by
  cases h with
  | done _ x => exact List.singleton_perm.1 hperm ▸ .done next x
  | merge _ _ rest a b _ split first second more => exact .merge _ _ rest a b _ (hperm.symm.trans split) first second more

theorem not_hufBuilds_nil {next : Nat} {r : HufTree} : ¬HufBuilds next [] r := by
  rintro (_ | ⟨_, _, _, _, _, _, split, -, -, -⟩)
  exact absurd split.length_eq (by simp)

theorem hufBuilds_singleton_iff {next : Nat} {x : HufNode} {r : HufTree} : HufBuilds next [x] r ↔ r = x.tree := by
  constructor
  · rintro (_ | ⟨_, _, _, _, _, _, split, -, -, -⟩)
    · rfl
    · exact absurd split.length_eq (by simp)
  · rintro rfl
    exact .done next x

/-- A sorted queue can only merge its first two nodes. -/
theorem hufBuilds_cons_cons_iff {next : Nat} {a b : HufNode} {q : List HufNode} {r : HufTree}
    (hsorted : (a :: b :: q).Pairwise HufKeyLt) :
    HufBuilds next (a :: b :: q) r ↔ HufBuilds (next + 1) (mergedNode next a b :: q) r := by
  obtain ⟨ha, hrest⟩ := List.pairwise_cons.1 hsorted
  obtain ⟨hb, -⟩ := List.pairwise_cons.1 hrest
  constructor
  · rintro (_ | ⟨_, _, rest, a', b', _, split, first, second, more⟩)
    obtain ⟨rfl, htail⟩ := perm_of_least split ha first
    obtain ⟨rfl, hq⟩ := perm_of_least htail hb second
    exact more.perm (hq.symm.cons _)
  · exact .merge _ _ q a b _ (.refl _) ha hb

/-- The merges of a sorted queue give what the construction over an unordered one builds, and nothing else. -/
theorem hufBuilds_iff_mergeNodes {fuel next : Nat} {q : List HufNode} {r : HufTree} (hinv : QueueInv next q)
    (hfuel : q.length ≤ fuel + 1) : HufBuilds next q r ↔ mergeNodes fuel next q = some r := by
  induction fuel, next, q using mergeNodes.induct with
  | case1 => simp [not_hufBuilds_nil, mergeNodes]
  | case2 => simp [hufBuilds_singleton_iff, mergeNodes, eq_comm]
  | case3 => simp at hfuel
  | case4 fuel next a b q ih =>
    have hperm := insertNode_perm (mergedNode next a b) q
    calc HufBuilds next (a :: b :: q) r ↔ HufBuilds (next + 1) (mergedNode next a b :: q) r :=
          hufBuilds_cons_cons_iff hinv.sorted
      _ ↔ HufBuilds (next + 1) (insertNode (mergedNode next a b) q) r :=
          ⟨fun h => h.perm hperm.symm, fun h => h.perm hperm⟩
      _ ↔ mergeNodes (fuel + 1) next (a :: b :: q) = some r :=
          ih hinv.merge (hperm.length_eq.le.trans (Nat.le_of_succ_le_succ hfuel))

/-- The merges end in one node, whose tree has the leaves of the queue's trees. -/
theorem exists_mergeNodes {fuel : Nat} (next : Nat) {q : List HufNode} (hq : q ≠ []) (hfuel : q.length ≤ fuel + 1) :
    ∃ root, mergeNodes fuel next q = some root ∧ root.symbols.Perm (q.flatMap fun x => x.tree.symbols) := by
  induction fuel, next, q using mergeNodes.induct with
  | case1 => exact absurd rfl hq
  | case2 _ _ x => exact ⟨x.tree, by simp [mergeNodes], by simp⟩
  | case3 => simp at hfuel
  | case4 fuel next a b q ih =>
    have hperm := insertNode_perm (mergedNode next a b) q
    obtain ⟨root, hroot, hsymbols⟩ := ih (List.ne_nil_of_mem (hperm.mem_iff.2 List.mem_cons_self))
      (hperm.length_eq.le.trans (Nat.le_of_succ_le_succ hfuel))
    refine ⟨root, hroot, hsymbols.trans ((hperm.flatMap_right _).trans ?_)⟩
    simp [mergedNode]

theorem leafQueue_symbols (t : List (Word × Nat)) :
    ((leafQueue 0 t).flatMap fun x => x.tree.symbols).Perm (t.map Prod.fst) := by
  refine ((leafQueue_perm 0 t).flatMap_right _).trans (.of_eq ?_)
  calc (t.zipIdx.map leafNode).flatMap (fun x => x.tree.symbols) = t.zipIdx.flatMap fun x => [x.1.1] := List.flatMap_map ..
    _ = t.zipIdx.map (Prod.fst ∘ Prod.fst) := List.map_eq_flatMap.symm
    _ = t.map Prod.fst := by rw [← List.map_map, List.zipIdx_map_fst]

/-- A table with an entry builds a tree, and the tree's leaves hold the table's symbols. -/
theorem exists_buildTree {t : List (Word × Nat)} (ht : t ≠ []) :
    ∃ root, buildTree t = some root ∧ root.symbols.Perm (t.map Prod.fst) := by
  have hlen := leafQueue_length 0 t
  obtain ⟨root, hroot, hsymbols⟩ := exists_mergeNodes (fuel := t.length) t.length (q := leafQueue 0 t)
    (List.ne_nil_of_length_pos (hlen ▸ List.length_pos_of_ne_nil ht)) (hlen ▸ t.length.le_succ)
  exact ⟨root, hroot, hsymbols.trans (leafQueue_symbols t)⟩

theorem hufBuilds_iff_buildTree {t : List (Word × Nat)} {r : HufTree} :
    HufBuilds t.length (hufLeaves t) r ↔ buildTree t = some r := by
  have hperm := leafQueue_perm 0 t
  rw [hufLeaves_eq, buildTree, ← hufBuilds_iff_mergeNodes (queueInv_leafQueue t) ((leafQueue_length 0 t).le.trans t.length.le_succ)]
  exact ⟨fun h => h.perm hperm.symm, fun h => h.perm hperm⟩

/-- Settles O49: the merges of the sorted queue give the one tree of the construction, and its codes are its paths. -/
theorem huffmanTreeAndCodes : Obligations.HuffmanTreeAndCodes := by
  refine ⟨rfl, fun t ht => ?_⟩
  obtain ⟨root, hroot, hsymbols⟩ := exists_buildTree ht
  have hmem {c : Word} (hc : c ∈ t.map Prod.fst) : c ∈ root.symbols := hsymbols.mem_iff.2 hc
  refine ⟨root, hroot, fun r => ?_, fun _ => ⟨?_, ?_, fun c hc => codeOf_ne_nil (hmem hc),
    fun c hc d hd => codes_prefixFree (hmem hc) (hmem hd)⟩⟩
  · rw [hufBuilds_iff_buildTree, hroot, Option.some_inj, eq_comm]
  · rintro sym rfl
    exact codeOf_codeTable_leaf sym
  · rintro l r rfl c hc
    exact hufPath_codeOf (hmem hc)

end Sys2Proof.Machine
end

section
/-! The decoder's walk and what it answers (43_huffman.md R720 to R725). -/
namespace Sys2Proof.Machine

section
variable {root T : HufTree} {i start : Nat} {b : Bool} {bs : List Bool} {c : Word}

/-- A code opens at its first bit (R725). -/
theorem hufWalk_open : hufWalk root none i start (b :: bs) = hufWalk root (some root) i i (b :: bs) := rfl

theorem hufWalk_partial : hufWalk root (some T) i start [] = .error ⟨.malformed, .r1, start⟩ := rfl

theorem hufWalk_child_leaf (h : T.child b = .leaf c) :
    hufWalk root (some T) i start (b :: bs) = (c :: ·) <$> hufWalk root none (i + 1) start bs := by
  simp only [hufWalk, Option.getD_some, Option.isNone_some, Bool.false_eq_true, if_false, h]
  cases hufWalk root none (i + 1) start bs <;> rfl

theorem hufWalk_child_node {l r : HufTree} (h : T.child b = .node l r) :
    hufWalk root (some T) i start (b :: bs) = hufWalk root (some (.node l r)) (i + 1) start bs := by
  simp only [hufWalk, Option.getD_some, h]
  rfl

theorem hufWalk_none_start (start' : Nat) : hufWalk root none i start bs = hufWalk root none i start' bs := by
  cases bs <;> rfl

/-- The walk of a path from an inner node emits the leaf's symbol and goes on at the root (R724). -/
theorem hufWalk_path {l r : HufTree} {rest : List Bool} (h : HufPath (.node l r) bs c) :
    hufWalk root (some (.node l r)) i start (bs ++ rest) = (c :: ·) <$> hufWalk root none (i + bs.length) start rest := by
  induction bs generalizing l r i with
  | nil => exact absurd h not_hufPath_node_nil
  | cons b bs ih =>
    rw [hufPath_node_cons_iff] at h
    cases hchild : (HufTree.node l r).child b with
    | leaf sym =>
      rw [hchild, hufPath_leaf_iff] at h
      obtain ⟨rfl, rfl⟩ := h
      exact hufWalk_child_leaf hchild
    | node l' r' =>
      rw [List.cons_append, hufWalk_child_node hchild, ih (hchild ▸ h), List.length_cons, Nat.add_right_comm, Nat.add_assoc]

/-- The walk that ends inside a path reports the first bit of the unfinished code (R725). -/
theorem hufWalk_inside_path {l r : HufTree} {q : List Bool} (h : HufPath (.node l r) (bs ++ q) c) (hq : q ≠ []) :
    hufWalk root (some (.node l r)) i start bs = .error ⟨.malformed, .r1, start⟩ := by
  induction bs generalizing l r i with
  | nil => exact hufWalk_partial
  | cons b bs ih =>
    rw [List.cons_append, hufPath_node_cons_iff] at h
    cases hchild : (HufTree.node l r).child b with
    | leaf sym =>
      rw [hchild, hufPath_leaf_iff] at h
      exact absurd (List.append_eq_nil_iff.1 h.1).2 hq
    | node l' r' =>
      rw [hufWalk_child_node hchild]
      exact ih (hchild ▸ h)

theorem HufPath.ne_nil {l r : HufTree} (h : HufPath (.node l r) bs c) : bs ≠ [] := by
  rintro rfl
  exact not_hufPath_node_nil h

theorem hufWalk_codeword {l r : HufTree} {rest : List Bool} (h : HufPath (.node l r) bs c) :
    hufWalk (.node l r) none i start (bs ++ rest) =
      (c :: ·) <$> hufWalk (.node l r) none (i + bs.length) start rest := by
  obtain ⟨b, bs, rfl⟩ := List.exists_cons_of_ne_nil h.ne_nil
  rw [List.cons_append, hufWalk_open, ← List.cons_append, hufWalk_path h, hufWalk_none_start start]

theorem hufWalk_codewords {l r : HufTree} {syms : List Word} (hsyms : ∀ c ∈ syms, c ∈ (HufTree.node l r).symbols)
    {rest : List Bool} :
    hufWalk (.node l r) none i start (syms.flatMap (codeOf (codeTable (.node l r))) ++ rest) =
      (syms ++ ·) <$> hufWalk (.node l r) none (i + (syms.flatMap (codeOf (codeTable (.node l r)))).length) start rest := by
  induction syms generalizing i with
  | nil => exact (id_map _).symm
  | cons c syms ih =>
    obtain ⟨hc, hsyms⟩ := List.forall_mem_cons.1 hsyms
    rw [List.flatMap_cons, List.append_assoc, codeTable_node, hufWalk_codeword (hufPath_codeOf hc), ← codeTable_node,
      ih hsyms, List.length_append, ← Nat.add_assoc, Functor.map_map]
    rfl

/-- A stream that ends inside a codeword is malformed at the codeword's first bit (R725). -/
theorem hufWalk_partial_codeword {l r : HufTree} {q : List Bool} (h : HufPath (.node l r) (bs ++ q) c) (hbs : bs ≠ [])
    (hq : q ≠ []) : hufWalk (.node l r) none i start bs = .error ⟨.malformed, .r1, i⟩ := by
  obtain ⟨b, bs, rfl⟩ := List.exists_cons_of_ne_nil hbs
  rw [hufWalk_open, hufWalk_inside_path h hq]

theorem exists_hufPath (T : HufTree) : ∃ bs c, HufPath T bs c := by
  induction T with
  | leaf sym => exact ⟨[], sym, .leaf sym⟩
  | node l r ihl _ =>
    obtain ⟨bs, c, h⟩ := ihl
    exact ⟨false :: bs, c, .left l r bs c h⟩

/-- Every bitstream follows the tree: it goes past a leaf, or it ends inside a path. -/
theorem exists_hufPath_prefix : ∀ (T : HufTree) (bs : List Bool),
    (∃ w rest c, bs = w ++ rest ∧ HufPath T w c) ∨ ∃ q c, q ≠ [] ∧ HufPath T (bs ++ q) c
  | .leaf sym, bs => .inl ⟨[], bs, sym, rfl, .leaf sym⟩
  | .node l r, [] =>
    have ⟨q, c, h⟩ := exists_hufPath (.node l r)
    .inr ⟨q, c, h.ne_nil, h⟩
  | .node l r, b :: bs =>
    match exists_hufPath_prefix ((HufTree.node l r).child b) bs with
    | .inl ⟨w, rest, c, hbs, h⟩ => .inl ⟨b :: w, rest, c, congrArg _ hbs, hufPath_node_cons_iff.2 h⟩
    | .inr ⟨q, c, hq, h⟩ => .inr ⟨q, c, hq, hufPath_node_cons_iff.2 h⟩

/-- Every bitstream is codewords and then a proper part of one more, which may be empty (R725). -/
theorem exists_codewords {l r : HufTree} (hnodup : (HufTree.node l r).symbols.Nodup) (bs : List Bool) :
    ∃ (syms : List Word) (p : List Bool), (∀ c ∈ syms, c ∈ (HufTree.node l r).symbols) ∧
      bs = syms.flatMap (codeOf (codeTable (.node l r))) ++ p ∧
      ∃ c ∈ (HufTree.node l r).symbols, p <+: codeOf (codeTable (.node l r)) c ∧ p ≠ codeOf (codeTable (.node l r)) c := by
  induction hn : bs.length using Nat.strong_induction_on generalizing bs with
  | h n ih =>
    obtain ⟨w, rest, c, rfl, h⟩ | ⟨q, c, hq, h⟩ := exists_hufPath_prefix (.node l r) bs
    · have hlt : rest.length < n := by
        have := List.length_pos_of_ne_nil h.ne_nil
        rw [← hn, List.length_append]
        omega
      obtain ⟨syms, p, hsyms, rfl, hp⟩ := ih _ hlt rest rfl
      refine ⟨c :: syms, p, List.forall_mem_cons.2 ⟨h.mem_symbols, hsyms⟩, ?_, hp⟩
      rw [List.flatMap_cons, List.append_assoc, codeTable_node, ← h.eq_codeOf hnodup]
    · refine ⟨[], bs, by simp, rfl, c, h.mem_symbols, ?_⟩
      rw [codeTable_node, ← h.eq_codeOf hnodup]
      exact ⟨List.prefix_append _ _, by simpa using hq⟩

theorem hufWalk_src {cur : Option HufTree} {x : Err} (h : hufWalk root cur i start bs = .error x) : x.src = .r1 := by
  induction bs generalizing cur i start with
  | nil => cases cur <;> cases h; rfl
  | cons b bs ih =>
    obtain ⟨T, start, h⟩ : ∃ T start, hufWalk root (some T) i start (b :: bs) = .error x := by
      cases cur with
      | none => exact ⟨root, i, h⟩
      | some T => exact ⟨T, start, h⟩
    cases hchild : T.child b with
    | leaf sym =>
      rw [hufWalk_child_leaf hchild] at h
      cases hwalk : hufWalk root none (i + 1) start bs with
      | ok out => rw [hwalk] at h; cases h
      | error y =>
        rw [hwalk] at h
        cases h
        exact ih hwalk
    | node l r => exact ih (hufWalk_child_node hchild ▸ h)

end

section
variable {t : List (Word × Nat)} {b : List Bool} {sym : Word}

theorem hufDecode_of_hufTableError {j : Nat} (h : hufTableError t = some j) :
    hufDecode t b = .error ⟨.malformed, .r3, j⟩ := by
  rw [hufTableError] at h
  rw [hufDecode, h]
  rfl

theorem hufTableError_eq_none (hcode : ∀ c ∈ t.map Prod.fst, c.toNat ≤ 0x10FFFF) (hnodup : (t.map Prod.fst).Nodup) :
    hufTableError t = none :=
  firstBadOrRepeated_eq_none_of_nodup (fun c hc => ⟨decide_eq_true (hcode c hc), List.not_mem_nil⟩) hnodup

theorem hufDecode_leaf_zeros {n : Nat} (h : hufTableError t = none) (hroot : buildTree t = some (.leaf sym)) :
    hufDecode t (List.replicate n false) = .ok (List.replicate n sym) := by
  rw [hufTableError] at h
  have hfind : (List.replicate n false).findIdx? (fun x => x) = none := by simp
  rw [hufDecode, h, hroot]
  dsimp only
  rw [hfind, List.length_replicate]

theorem hufDecode_leaf_one {n : Nat} (h : hufTableError t = none) (hroot : buildTree t = some (.leaf sym)) :
    hufDecode t (List.replicate n false ++ true :: b) = .error ⟨.malformed, .r1, n⟩ := by
  rw [hufTableError] at h
  have hfind : (List.replicate n false ++ true :: b).findIdx? (fun x => x) = some n := by
    simp [List.findIdx?_append, List.findIdx?_cons]
  rw [hufDecode, h, hroot]
  dsimp only
  rw [hfind]
  rfl

theorem hufDecode_node {l r : HufTree} (h : hufTableError t = none) (hroot : buildTree t = some (.node l r)) :
    hufDecode t b = hufWalk (.node l r) none 0 0 b := by
  rw [hufTableError] at h
  rw [hufDecode, h, hroot]

/-- Past the table's check only the bitstream is reported. -/
theorem hufDecode_src {x : Err} (h : hufTableError t = none) (hx : hufDecode t b = .error x) : x.src = .r1 := by
  rw [hufTableError] at h
  rw [hufDecode, h] at hx
  dsimp only at hx
  split at hx
  · split at hx <;> cases hx; rfl
  · split at hx <;> cases hx; rfl
  · exact hufWalk_src hx

theorem hufDecode_eq_tableError_iff {j : Nat} :
    hufDecode t b = .error ⟨.malformed, .r3, j⟩ ↔ hufTableError t = some j := by
  refine ⟨fun h => ?_, hufDecode_of_hufTableError⟩
  cases herr : hufTableError t with
  | none => cases hufDecode_src herr h
  | some k =>
    rw [hufDecode_of_hufTableError herr] at h
    cases h
    rfl

end

/-- Settles O47: the table's check stands first, and past it every error lies in the bitstream. -/
theorem huffmanTableChecked : Obligations.HuffmanTableChecked := fun _ _ _ =>
  hufDecode_eq_tableError_iff.trans hufTableError_eq_some_iff

/-- A table of two or more entries builds an inner node (R724). -/
theorem exists_buildTree_node {t : List (Word × Nat)} {root : HufTree} (ht : 2 ≤ t.length) (hroot : buildTree t = some root) :
    ∃ l r, root = .node l r ∧ (HufTree.node l r).symbols.Perm (t.map Prod.fst) := by
  obtain ⟨root', hroot', hsymbols⟩ := exists_buildTree (List.ne_nil_of_length_pos (Nat.zero_lt_of_lt ht))
  obtain rfl : root' = root := Option.some_inj.1 (hroot'.symm.trans hroot)
  cases root' with
  | leaf sym =>
    have hlen := hsymbols.length_eq
    rw [List.length_map] at hlen
    exact absurd hlen (Nat.ne_of_lt ht)
  | node l r => exact ⟨l, r, rfl, hsymbols⟩

/-- Settles O48: no tree and one leaf by the decoder's cases, more leaves by walking the codewords. -/
theorem huffmanDecoderBitstreams : Obligations.HuffmanDecoderBitstreams := by
  have single {sym : Word} (cnt : Nat) (h : sym.toNat ≤ 0x10FFFF) : hufTableError [(sym, cnt)] = none :=
    hufTableError_eq_none (List.forall_mem_singleton.2 h) (List.nodup_singleton sym)
  refine ⟨rfl, fun b hb => if_neg hb, fun sym cnt n h => hufDecode_leaf_zeros (single cnt h) rfl,
    fun sym cnt n b h => hufDecode_leaf_one (single cnt h) rfl, fun t root ht hnodup hcode hroot => ?_⟩
  have hvalid := hufTableError_eq_none hcode hnodup
  obtain ⟨l, r, rfl, hsymbols⟩ := exists_buildTree_node ht hroot
  have hmem (c : Word) : c ∈ t.map Prod.fst ↔ c ∈ (HufTree.node l r).symbols := hsymbols.mem_iff.symm
  simp only [hmem, hufDecode_node hvalid hroot]
  refine ⟨fun syms hsyms => ⟨?_, fun c hc p hp hpre hne => ?_⟩, exists_codewords (hsymbols.nodup_iff.2 hnodup)⟩
  · simpa [hufWalk] using hufWalk_codewords (i := 0) (start := 0) (rest := []) hsyms
  · obtain ⟨q, hq⟩ := hpre
    have hpath : HufPath (.node l r) (p ++ q) c := hq ▸ hufPath_codeOf hc
    have hq : q ≠ [] := by
      rintro rfl
      exact hne (List.append_nil p ▸ hq)
    rw [hufWalk_codewords hsyms, hufWalk_partial_codeword hpath hp hq, Nat.zero_add]
    rfl

end Sys2Proof.Machine
end

section
/-! The centroid update and its iteration (45_vq_kmeans.md R902, R907, R908). -/
namespace Sys2Proof.Machine

section
variable {d : Nat} {vs : List (List Nat)} {a : List Nat} {mus : List (List ℚ)}

/-- The members of centroid `j` by their indices, M_j of R907. -/
theorem members_eq (h : a.length = vs.length) (j : Nat) :
    members vs a j = ((List.range a.length).filter fun i => a.getD i 0 = j).map fun i => vs.getD i [] := by
  have hzip : vs.zip a = (List.range a.length).map fun i => (vs.getD i [], a.getD i 0) :=
    List.ext_getElem (by simp [h]) fun i hi _ => by
      rw [List.length_zip, lt_inf_iff] at hi
      simp [hi.1, hi.2]
  rw [members, hzip, List.filter_map, List.map_map]
  rfl

theorem members_subset (j : Nat) : members vs a j ⊆ vs := by
  intro v hv
  obtain ⟨p, hp, rfl⟩ := List.mem_map.1 hv
  exact (List.of_mem_zip (List.mem_of_mem_filter hp)).1

theorem updateFrom_eq_mapIdx (j : Nat) : updateFrom d vs a j mus =
    mus.mapIdx fun i mu => if members vs a (j + i) = [] then mu else meanVector d (members vs a (j + i)) := by
  induction mus generalizing j with
  | nil => rfl
  | cons mu mus ih =>
    rw [updateFrom, ih, List.mapIdx_cons, Nat.add_zero]
    congr 1
    · cases members vs a j <;> rfl
    · simp only [Nat.add_right_comm j 1, Nat.add_assoc]

theorem updateAll_eq_mapIdx : updateAll d vs a mus =
    mus.mapIdx fun j mu => if members vs a j = [] then mu else meanVector d (members vs a j) := by
  rw [updateAll, updateFrom_eq_mapIdx]
  simp only [Nat.zero_add]

theorem updateAll_getD {j : Nat} (hj : j < mus.length) : (updateAll d vs a mus).getD j [] =
    if members vs a j = [] then mus.getD j [] else meanVector d (members vs a j) := by
  simp [updateAll_eq_mapIdx, List.getD, hj]

/-- What holds of the old centroids and of every mean of block vectors holds of the updated centroids. -/
theorem updateAll_forall {P : List ℚ → Prop} (hmean : ∀ ms, ms ≠ [] → ms ⊆ vs → P (meanVector d ms))
    (h : ∀ mu ∈ mus, P mu) : ∀ mu ∈ updateAll d vs a mus, P mu := by
  intro mu hmu
  rw [updateAll_eq_mapIdx, List.mem_mapIdx] at hmu
  obtain ⟨j, hj, rfl⟩ := hmu
  split
  · exact h _ (List.getElem_mem hj)
  · next hne => exact hmean _ hne (members_subset j)

end

theorem meanVector_getD_mul {d e : Nat} {ms : List (List Nat)} (hms : ms ≠ []) (he : e < d) :
    (meanVector d ms).getD e 0 * (ms.length : ℚ) = ((ms.map fun v => v.getD e 0).sum : Nat) := by
  have hlen : (ms.length : ℚ) ≠ 0 := Nat.cast_ne_zero.2 (mt List.length_eq_zero_iff.1 hms)
  have hget : (meanVector d ms).getD e 0 = ((ms.map fun v => v.getD e 0).sum : Nat) / (ms.length : ℚ) := by
    simp [meanVector, he]
  rw [hget, div_mul_cancel₀ _ hlen]

/-- Settles O55: the update by index, and the members by their indices. -/
theorem vqCentroidUpdate : Obligations.VqCentroidUpdate := by
  intro d vs a mus j ha hj
  rw [updateAll_getD hj]
  refine ⟨fun hnone => if_pos ?_, fun ⟨i, hi, hij⟩ => ?_⟩
  · simpa [members_eq ha] using hnone
  · have hmem : i ∈ (List.range a.length).filter fun i => a.getD i 0 = j :=
      List.mem_filter.2 ⟨List.mem_range.2 hi, decide_eq_true hij⟩
    have hne : members vs a j ≠ [] := List.ne_nil_of_mem (members_eq ha j ▸ List.mem_map_of_mem hmem)
    rw [if_neg hne]
    refine ⟨meanVector_length d _, fun e he => ?_⟩
    have hmean := meanVector_getD_mul hne he
    rw [members_eq ha, List.length_map, List.map_map] at hmean
    rw [members_eq ha]
    exact hmean

/-- One assign-and-update iteration (R902). -/
def kmeansStep (d : Nat) (vs : List (List Nat)) (mus : List (List ℚ)) : List (List ℚ) :=
  updateAll d vs (assignAll vs mus) mus

section
variable {d cap : Nat} {vs : List (List Nat)} {mus : List (List ℚ)}

theorem kmeansLoop_succ_of_fixed (h : kmeansStep d vs mus = mus) : kmeansLoop d vs (cap + 1) mus = (mus, 1) :=
  (if_pos h).trans (congrArg (·, 1) h)

theorem kmeansLoop_succ_of_changed (h : kmeansStep d vs mus ≠ mus) : kmeansLoop d vs (cap + 1) mus =
    ((kmeansLoop d vs cap (kmeansStep d vs mus)).1, (kmeansLoop d vs cap (kmeansStep d vs mus)).2 + 1) :=
  if_neg h

theorem kmeansLoop_eq_iterate : (kmeansLoop d vs cap mus).1 = (kmeansStep d vs)^[(kmeansLoop d vs cap mus).2] mus := by
  induction cap generalizing mus with
  | zero => rfl
  | succ cap ih =>
    by_cases h : kmeansStep d vs mus = mus
    · rw [kmeansLoop_succ_of_fixed h]
      exact h.symm
    · rw [kmeansLoop_succ_of_changed h, Function.iterate_succ_apply]
      exact ih

theorem kmeansLoop_count_le : (kmeansLoop d vs cap mus).2 ≤ cap := by
  induction cap generalizing mus with
  | zero => exact le_rfl
  | succ cap ih =>
    by_cases h : kmeansStep d vs mus = mus
    · rw [kmeansLoop_succ_of_fixed h]
      exact Nat.le_add_left 1 cap
    · rw [kmeansLoop_succ_of_changed h]
      exact Nat.succ_le_succ ih

/-- Every iteration before the last one run changes some centroid (R908). -/
theorem kmeansLoop_changes {i : Nat} (hi : i + 1 < (kmeansLoop d vs cap mus).2) :
    (kmeansStep d vs)^[i + 1] mus ≠ (kmeansStep d vs)^[i] mus := by
  induction cap generalizing mus i with
  | zero => exact absurd hi (Nat.not_lt_zero _)
  | succ cap ih =>
    by_cases h : kmeansStep d vs mus = mus
    · rw [kmeansLoop_succ_of_fixed h] at hi
      exact absurd hi (Nat.le_add_left 1 i).not_gt
    · rw [kmeansLoop_succ_of_changed h] at hi
      cases i with
      | zero => exact h
      | succ i => exact ih (mus := kmeansStep d vs mus) (by simpa using hi)

/-- Fewer iterations than the cap run only if the last one run changed nothing (R908). -/
theorem kmeansLoop_stops (hcap : (kmeansLoop d vs cap mus).2 < cap) : 1 ≤ (kmeansLoop d vs cap mus).2 ∧
    (kmeansStep d vs)^[(kmeansLoop d vs cap mus).2 - 1] mus = (kmeansLoop d vs cap mus).1 := by
  induction cap generalizing mus with
  | zero => exact absurd hcap (Nat.not_lt_zero _)
  | succ cap ih =>
    by_cases h : kmeansStep d vs mus = mus
    · rw [kmeansLoop_succ_of_fixed h]
      exact ⟨le_rfl, rfl⟩
    · rw [kmeansLoop_succ_of_changed h] at hcap ⊢
      obtain ⟨hpos, hlast⟩ := ih (Nat.lt_of_succ_lt_succ hcap)
      refine ⟨Nat.le_add_left 1 _, ?_⟩
      rw [← hlast, Nat.add_sub_cancel, ← Function.iterate_succ_apply, Nat.succ_eq_add_one, Nat.sub_add_cancel hpos]

/-- What holds of the initial centroids and of every mean of block vectors holds of the final centroids. -/
theorem kmeansLoop_forall {P : List ℚ → Prop} (hmean : ∀ ms, ms ≠ [] → ms ⊆ vs → P (meanVector d ms))
    (h : ∀ mu ∈ mus, P mu) : ∀ mu ∈ (kmeansLoop d vs cap mus).1, P mu := by
  rw [kmeansLoop_eq_iterate]
  exact Function.Iterate.rec (fun m : List (List ℚ) => ∀ mu ∈ m, P mu) h (fun _ hm => updateAll_forall hmean hm) _

end

/-- Settles O56: by induction on the cap, along the iteration that changes nothing and the one that changes something. -/
theorem vqIterations : Obligations.VqIterations := fun _ _ _ _ =>
  ⟨kmeansLoop_count_le, kmeansLoop_eq_iterate, fun _ => kmeansLoop_changes, kmeansLoop_stops⟩

end Sys2Proof.Machine
end

section
/-! The checks of START_ENC and START_DEC, in their order (45_vq_kmeans.md R901, R921). -/
namespace Sys2Proof.Machine

section
variable {s : State} {lv : Bool}

/-- R901: VQ_C is 1 or 3, as `vqConfigError` reads it. -/
theorem badChannels_iff : (s.vq.c.toNat ≠ 1 ∧ s.vq.c.toNat ≠ 3) ↔ ¬(s.vq.c = 1#32 ∨ s.vq.c = 3#32) := by
  rw [not_or, ← BitVec.toNat_inj, ← BitVec.toNat_inj]
  rfl

theorem vqConfigError_channels (hc : ¬(s.vq.c = 1#32 ∨ s.vq.c = 3#32)) : vqConfigError s lv = some (.configReg .vqC) :=
  if_pos (badChannels_iff.2 hc)

section
variable (hc : s.vq.c = 1#32 ∨ s.vq.c = 3#32)
include hc

theorem vqConfigError_levels (hlevels : sint32 s.vq.levels ≤ 0) : vqConfigError s true = some (.configReg .vqLevels) := by
  rw [vqConfigError, if_neg (badChannels_iff.not_left.2 hc), if_pos ⟨rfl, hlevels⟩]

theorem vqConfigError_side (hlevels : lv = true → 0 < sint32 s.vq.levels)
    (hside : sint32 s.vq.bs < 1 ∨ (s.params.vqMaxBs : Int) < sint32 s.vq.bs) :
    vqConfigError s lv = some (.configReg .vqBs) := by
  rw [vqConfigError, if_neg (badChannels_iff.not_left.2 hc), if_neg fun h => (hlevels h.1).not_ge h.2, if_pos hside]

theorem vqConfigError_raster (hlevels : lv = true → 0 < sint32 s.vq.levels)
    (hside : ¬(sint32 s.vq.bs < 1 ∨ (s.params.vqMaxBs : Int) < sint32 s.vq.bs))
    (hraster : capacity s.params .vq .r1 < s.vq.h.toNat * s.vq.w.toNat * s.vq.c.toNat) :
    vqConfigError s lv = some (.configReg .vqH) := by
  rw [vqConfigError, if_neg (badChannels_iff.not_left.2 hc), if_neg fun h => (hlevels h.1).not_ge h.2, if_neg hside,
    if_pos hraster]

end

theorem vqConfigError_eq_none_iff : vqConfigError s lv = none ↔ (s.vq.c = 1#32 ∨ s.vq.c = 3#32) ∧
    (lv = true → 0 < sint32 s.vq.levels) ∧ ¬(sint32 s.vq.bs < 1 ∨ (s.params.vqMaxBs : Int) < sint32 s.vq.bs) ∧
    s.vq.h.toNat * s.vq.w.toNat * s.vq.c.toNat ≤ capacity s.params .vq .r1 := by
  simp only [vqConfigError, badChannels_iff, ite_eq_iff, reduceCtorEq, and_false, false_or, and_true, not_not,
    not_and, not_le, not_lt]

theorem sint32_side_toNat (hside : ¬(sint32 s.vq.bs < 1 ∨ (s.params.vqMaxBs : Int) < sint32 s.vq.bs)) :
    (sint32 s.vq.bs).toNat = s.vq.bs.toNat :=
  toNat_sint32_of_pos (lt_of_lt_of_le one_pos (not_lt.1 (mt Or.inl hside)))

end

theorem trimmed_passes {x t b : Nat} (hle : t ≤ x) (hmod : t % b = 0) : ¬(x < t ∨ t % b ≠ 0) :=
  not_or.2 ⟨hle.not_gt, not_not.2 hmod⟩

section
variable {s : State} {g : VqGeom}

theorem vqShapeError_height (h : g.h < g.th ∨ g.th % g.b ≠ 0) : vqShapeError s g = some (.malformedReg .vqTh) :=
  if_pos h

variable (hth : g.th ≤ g.h) (hthb : g.th % g.b = 0)
include hth hthb

theorem vqShapeError_width (h : g.w < g.tw ∨ g.tw % g.b ≠ 0) : vqShapeError s g = some (.malformedReg .vqTw) := by
  rw [vqShapeError, if_neg (trimmed_passes hth hthb), if_pos h]

variable (htw : g.tw ≤ g.w) (htwb : g.tw % g.b = 0)
include htw htwb

theorem vqShapeError_blocks (h : capacity s.params .vq .r3 < g.n) :
    vqShapeError s g = some ⟨.config, .r3, capacity s.params .vq .r3⟩ := by
  rw [vqShapeError, if_neg (trimmed_passes hth hthb), if_neg (trimmed_passes htw htwb), if_pos h]

variable (hn : g.n ≤ capacity s.params .vq .r3)
include hn

theorem vqShapeError_codebook (h : capacity s.params .vq .r2 < s.vq.k.toNat * g.d) :
    vqShapeError s g = some (.configReg .vqK) := by
  rw [vqShapeError, if_neg (trimmed_passes hth hthb), if_neg (trimmed_passes htw htwb),
    if_neg hn.not_gt, if_pos h]

theorem vqShapeError_eq_none (h : s.vq.k.toNat * g.d ≤ capacity s.params .vq .r2) : vqShapeError s g = none := by
  rw [vqShapeError, if_neg (trimmed_passes hth hthb), if_neg (trimmed_passes htw htwb),
    if_neg hn.not_gt, if_neg h.not_gt]

end

section
variable {s : State} {x : Err}

theorem idealVqEnc_of_configError (h : vqConfigError s true = some x) : idealVqEnc s = .error x := by
  rw [idealVqEnc, h]

theorem idealVqDec_of_configError (h : vqConfigError s false = some x) : idealVqDec s = .error x := by
  rw [idealVqDec, h]

variable (hconf : vqConfigError s false = none)
include hconf

theorem idealVqDec_of_shapeError (h : vqShapeError s (vqDecGeom s) = some x) : idealVqDec s = .error x := by
  rw [idealVqDec, hconf]
  dsimp only
  rw [h]

variable (hshape : vqShapeError s (vqDecGeom s) = none)
include hshape

/-- The last check of START_DEC: the first assignment that names no codebook entry. -/
theorem idealVqDec_past_shape : ∃ o, idealVqDec s =
    ((s.inWords .vq .r3 (vqDecGeom s).n).findIdx? fun c => decide (s.vq.k.toNat ≤ c.toNat)).elim (.ok o)
      fun i => .error (.malformed .r3 i) := by
  rw [idealVqDec, hconf]
  dsimp only
  rw [hshape]
  dsimp only
  rw [List.findIdx?_map]
  exact ⟨_, by unfold Function.comp; split <;> next h => (rw [h]; rfl)⟩

theorem idealVqDec_of_assignment {i : Nat} (hi : i < (vqDecGeom s).n) (hbad : s.vq.k.toNat ≤ (s.elemWord .vq .r3 i).toNat)
    (hgood : ∀ j, j < i → (s.elemWord .vq .r3 j).toNat < s.vq.k.toNat) : idealVqDec s = .error (.malformed .r3 i) := by
  obtain ⟨o, ho⟩ := idealVqDec_past_shape hconf hshape
  rw [ho, (State.inWords_findIdx?_eq_some_iff (P := fun c => c.toNat < s.vq.k.toNat) fun c => by simp).2
    ⟨hi, hbad.not_gt, hgood⟩]
  rfl

theorem exists_idealVqDec_ok (hgood : ∀ i, i < (vqDecGeom s).n → (s.elemWord .vq .r3 i).toNat < s.vq.k.toNat) :
    ∃ o, idealVqDec s = .ok o := by
  obtain ⟨o, ho⟩ := idealVqDec_past_shape hconf hshape
  rw [ho, List.findIdx?_eq_none_iff.2 (by simpa [State.inWords] using hgood)]
  exact ⟨o, rfl⟩

end

/-- Settles O59: each check of START_ENC and START_DEC past the checks before it. -/
theorem vqConfigurationChecks : Obligations.VqConfigurationChecks := by
  refine fun s => ⟨fun hc => ?channels, fun hc => ⟨fun hlevels => ?levels, fun hside => ?side,
    fun hside hraster => ?raster, fun hside hraster => ?shape⟩⟩
  case channels =>
    exact ⟨idealVqEnc_of_configError (vqConfigError_channels hc), idealVqDec_of_configError (vqConfigError_channels hc)⟩
  case levels => exact idealVqEnc_of_configError (vqConfigError_levels hc hlevels)
  case side =>
    exact ⟨fun hlevels => idealVqEnc_of_configError (vqConfigError_side hc (fun _ => hlevels) hside),
      idealVqDec_of_configError (vqConfigError_side hc nofun hside)⟩
  case raster =>
    exact ⟨fun hlevels => idealVqEnc_of_configError (vqConfigError_raster hc (fun _ => hlevels) hside hraster),
      idealVqDec_of_configError (vqConfigError_raster hc nofun hside hraster)⟩
  case shape =>
    have hconf : vqConfigError s false = none := vqConfigError_eq_none_iff.2 ⟨hc, nofun, hside, hraster⟩
    rw [← sint32_side_toNat hside]
    refine ⟨fun hth => idealVqDec_of_shapeError hconf (vqShapeError_height hth), fun hth hthb =>
      ⟨fun htw => idealVqDec_of_shapeError hconf (vqShapeError_width hth hthb htw), fun htw htwb n hn => ?_⟩⟩
    subst hn
    refine ⟨fun hn => idealVqDec_of_shapeError hconf (vqShapeError_blocks hth hthb htw htwb hn), fun hn d hd => ?_⟩
    subst hd
    refine ⟨fun hk => idealVqDec_of_shapeError hconf (vqShapeError_codebook hth hthb htw htwb hn hk), fun hk => ?_⟩
    have hshape : vqShapeError s (vqDecGeom s) = none := vqShapeError_eq_none hth hthb htw htwb hn hk
    exact ⟨fun i => idealVqDec_of_assignment hconf hshape, exists_idealVqDec_ok hconf hshape⟩

end Sys2Proof.Machine
end

section
/-! Rounding, the codebook and the assignments, and what START_ENC publishes (45_vq_kmeans.md R904, R909, R911). -/
namespace Sys2Proof.Machine

theorem roundHalfUp_div {S n : Nat} (hn : 1 ≤ n) : roundHalfUp ((S : ℚ) / (n : ℚ)) = (2 * S + n) / (2 * n) := by
  have hn0 : (n : ℚ) ≠ 0 := Nat.cast_ne_zero.2 (Nat.ne_of_gt hn)
  have hhalf : (S : ℚ) / n + 1 / 2 = ((2 * S + n : Nat) : ℚ) / ((2 * n : Nat) : ℚ) := by
    push_cast
    field_simp
  rw [roundHalfUp, hhalf]
  exact (Int.floor_toNat _).trans (Nat.floor_div_eq_div (K := ℚ) _ _)

theorem roundHalfUp_le {x : ℚ} {n : Nat} (h : x ≤ n) : roundHalfUp x ≤ n := by
  have hfloor : ⌊x + 1 / 2⌋ < (n : Int) + 1 := Int.floor_lt.2 (by push_cast; linarith)
  exact Int.toNat_le.2 (Int.lt_add_one_iff.1 hfloor)

/-- A centroid of the block vectors' dimension with every element at most that of a byte. -/
def ByteCentroid (d : Nat) (mu : List ℚ) : Prop := mu.length = d ∧ ∀ x ∈ mu, x ≤ 255

theorem getD_zero_le {v : List Nat} {n : Nat} (h : ∀ x ∈ v, x ≤ n) (e : Nat) : v.getD e 0 ≤ n := by
  rcases lt_or_ge e v.length with he | he
  · rw [List.getD_eq_getElem _ _ he]
    exact h _ (List.getElem_mem he)
  · rw [List.getD_eq_default _ _ he]
    exact Nat.zero_le n

theorem byteCentroid_meanVector {d : Nat} {ms : List (List Nat)} (h : ∀ v ∈ ms, ∀ x ∈ v, x ≤ 255) :
    ByteCentroid d (meanVector d ms) := by
  refine ⟨meanVector_length d ms, fun x hx => ?_⟩
  obtain ⟨e, -, rfl⟩ := List.mem_map.1 hx
  have hsum : (ms.map fun v => v.getD e 0).sum ≤ (ms.map fun v => v.getD e 0).length • 255 :=
    List.sum_le_card_nsmul _ _ (List.forall_mem_map.2 fun v hv => getD_zero_le (h v hv) e)
  rw [List.length_map, smul_eq_mul, mul_comm] at hsum
  exact div_le_of_le_mul₀ (Nat.cast_nonneg _) (by norm_num) (by exact_mod_cast hsum)

section
variable {g : VqGeom} {raster : List Byte} {idx : List Nat}

theorem blockVectors_le : ∀ v ∈ blockVectors g raster, ∀ x ∈ v, x ≤ 255 := by
  intro v hv x hx
  obtain ⟨i, -, rfl⟩ := List.mem_map.1 hv
  obtain ⟨e, -, rfl⟩ := List.mem_map.1 hx
  exact Nat.le_of_lt_succ (BitVec.isLt _)

/-- The centroids an encode starts from: the block vectors at the initial indices (R905). -/
def initialCentroids (vs : List (List Nat)) (idx : List Nat) : List (List ℚ) :=
  idx.map fun j => (vs.getD j []).map fun x => ((x : Nat) : ℚ)

theorem byteCentroid_initialCentroids (h : ∀ i ∈ idx, i < g.n) :
    ∀ mu ∈ initialCentroids (blockVectors g raster) idx, ByteCentroid g.d mu := by
  intro mu hmu
  obtain ⟨i, hi, rfl⟩ := List.mem_map.1 hmu
  have hv : (blockVectors g raster).getD i [] = blockVector g raster i := by simp [blockVectors, h i hi]
  have hmem : blockVector g raster i ∈ blockVectors g raster := List.mem_map_of_mem (List.mem_range.2 (h i hi))
  rw [hv]
  refine ⟨by simp, fun x hx => ?_⟩
  obtain ⟨y, hy, rfl⟩ := List.mem_map.1 hx
  exact_mod_cast blockVectors_le _ hmem y hy

theorem vqEncode_codebook (g : VqGeom) (cap : Nat) (vs : List (List Nat)) (idx : List Nat) :
    (vqEncode g cap vs idx).codebook = codebookOf (kmeansLoop g.d vs cap (initialCentroids vs idx)).1 := by
  rw [vqEncode]
  split
  · next h =>
    subst h
    cases cap <;> rfl
  · rfl

/-- Every codebook entry is D bytes (R909). -/
theorem vqEncode_codebook_bytes (cap : Nat) (h : ∀ i ∈ idx, i < g.n) :
    ∀ cb ∈ (vqEncode g cap (blockVectors g raster) idx).codebook, cb.length = g.d ∧ ∀ x ∈ cb, x ≤ 255 := by
  have hmean : ∀ ms, ms ≠ [] → ms ⊆ blockVectors g raster → ByteCentroid g.d (meanVector g.d ms) :=
    fun ms _ hms => byteCentroid_meanVector fun v hv => blockVectors_le v (hms hv)
  rw [vqEncode_codebook]
  refine List.forall_mem_map.2 fun mu hmu => ?_
  obtain ⟨hlen, hle⟩ := kmeansLoop_forall hmean (byteCentroid_initialCentroids h) mu hmu
  exact ⟨(List.length_map _).trans hlen, List.forall_mem_map.2 fun x hx => roundHalfUp_le (hle x hx)⟩

theorem vqEncode_codebook_entries (cap : Nat) (h : ∀ i ∈ idx, i < g.n) :
    (vqEncode g cap (blockVectors g raster) idx).codebook.length = idx.length := by
  have hdim : ∀ mu ∈ initialCentroids (blockVectors g raster) idx, mu.length = g.d :=
    fun mu hmu => (byteCentroid_initialCentroids h mu hmu).1
  rw [vqEncode_codebook, codebookOf, List.length_map, (kmeansLoop_shape g.d _ cap _ hdim).1, initialCentroids,
    List.length_map]

end

section
variable {s : State} {o : Outputs}

/-- What a successful START_ENC has checked, and what it publishes (R901, R905, R911). -/
theorem idealVqEnc_eq_ok (h : idealVqEnc s = .ok o) : vqConfigError s true = none ∧ ∃ idx res,
    vqInitial s (vqEncGeom s).n (vqK s (vqEncGeom s)) = .ok idx ∧
    res = vqEncode (vqEncGeom s) s.vq.maxIter.toNat
      (blockVectors (vqEncGeom s) (s.inBytes .vq .r1 (vqEncGeom s).bytes)) idx ∧
    o.words = [(.r2, packBytes (res.codebook.flatten.map (BitVec.ofNat 8))), (.r3, res.assignments.map toWord)] ∧
    o.regs = [(.vqTh, toWord (vqEncGeom s).th), (.vqTw, toWord (vqEncGeom s).tw), (.vqK, toWord (vqK s (vqEncGeom s))),
      (.vqIters, toWord res.iters), (.vqNblk, toWord (vqEncGeom s).n), (.vqSseLo, toWord (res.sse % 2 ^ 32)),
      (.vqSseHi, toWord (res.sse / 2 ^ 32)),
      (.vqNsamp, toWord ((vqEncGeom s).th * (vqEncGeom s).tw * (vqEncGeom s).c))] := by
  rw [idealVqEnc] at h
  split at h
  case h_1 => cases h
  case h_2 hconf =>
    dsimp only at h
    split at h
    case h_1 => cases h
    case h_2 idx hidx =>
      repeat' split at h
      all_goals cases h
      exact ⟨hconf, idx, _, hidx, rfl, rfl, rfl⟩

theorem vqEncGeom_n (hside : (sint32 s.vq.bs).toNat = s.vq.bs.toNat) :
    (vqEncGeom s).n = s.vq.h.toNat / s.vq.bs.toNat * (s.vq.w.toNat / s.vq.bs.toNat) := by
  rw [← hside, Nat.div_eq_sub_mod_div (m := s.vq.h.toNat), Nat.div_eq_sub_mod_div (m := s.vq.w.toNat)]
  rfl

end

/-- Settles O57: rounding, the encode's definition, byte centroids kept by the iterations, and what a success publishes. -/
theorem vqCodebookAndAssignments : Obligations.VqCodebookAndAssignments := by
  refine ⟨fun S n => roundHalfUp_div, fun g cap vs idx hidx fin hfin => ?encode,
    fun g cap raster idx => vqEncode_codebook_bytes cap, fun s o b k n h hb hn hk => ?published⟩
  case encode =>
    -- Lean reads the statement's cast of a block vector to ℚ as a `bind` over the list.
    simp only [bind_pure_comp, List.map_eq_map, List.map_id_fun', id_eq] at hfin
    rw [vqEncode, if_neg hidx, hfin]
    exact ⟨rfl, rfl, rfl⟩
  case published =>
    obtain ⟨hconf, idx, res, hidx, hres, hwords, hregs⟩ := idealVqEnc_eq_ok h
    obtain ⟨-, hlevels, hside, -⟩ := vqConfigError_eq_none_iff.1 hconf
    have hgeom : (vqEncGeom s).n = n := by rw [hn, hb, vqEncGeom_n (sint32_side_toNat hside)]
    have hcount : vqK s (vqEncGeom s) = k := by rw [hk, vqK, toNat_sint32_of_pos (hlevels rfl), hgeom]
    have hkn : k ≤ n := hk ▸ Nat.min_le_right _ _
    rw [hgeom, hcount] at hidx hregs
    obtain ⟨hlen, hlt⟩ := vqInitial_ok hkn hidx
    refine ⟨hkn, idx, res, hidx, hlen, hlt, hres, ?_, ?_, hwords, ?_⟩
    · rw [hres, vqEncode_codebook_entries _ (hgeom ▸ hlt), hlen]
    · rw [hres, vqEncode_assignments_length, hgeom]
    · simp [hregs]

end Sys2Proof.Machine
end

section
/-! The completion of a failing operation (60_exceptions.md R1001). -/
namespace Sys2Proof.Machine

/-- A failure has everything R1001 lists. Its stored registers and its memory are those of the START frame of the same command
(R405, R410), so the outputs and what stays are the START frame's; only the control registers differ. -/
theorem State.fail_failedWith (s : State) (e : Eng) (cmd : StartCmd) (x : Err) :
    FailedWith s (s.fail e cmd x) e x (outRegs e cmd) (outRegions e cmd) := by
  have hstart := s.startFrame_started e cmd
  have hregs (e' : Eng) (r : Reg) : (s.fail e cmd x).getReg e' r = (s.startFrame e cmd).getReg e' r := by
    rw [State.fail_getReg, State.startFrame_getReg]
  have hmem : (s.fail e cmd x).mem = (s.startFrame e cmd).mem := by rw [State.fail_mem, State.startFrame_mem]
  exact
    { ctl := by rw [State.fail_ctl, PerEngine.get_set_same, Ctl.failed]
      outputs := fun r hr => (hregs e r).trans (hstart.outputs r hr)
      unspecified := fun r hr a ha => by rw [hmem, hstart.unspecified r hr a ha]
      frame :=
        { params := State.fail_params s e cmd x
          inbox := State.fail_inbox s e cmd x
          port := State.fail_port s e cmd x
          ctl := fun e' he' => by rw [State.fail_ctl, PerEngine.get_set_ne _ _ he']
          regs := fun e' r hr => (hregs e' r).trans (hstart.frame.regs e' r hr)
          mem := fun a ha => by rw [hmem, hstart.frame.mem a ha] } }

/-- Settles O16: the completion of an operation whose ideal function answers an error is `State.fail` of that error. -/
theorem failureRecorded : Obligations.FailureRecorded := by
  intro s e cmd x hrunning hideal
  rw [completeEngine_error hrunning hideal]
  exact s.fail_failedWith e cmd x

end Sys2Proof.Machine
end

section
/-! The registers after reset (70_reset_and_hazards.md R1101): the two block registers, the registers every engine has, the
stored registers and the constants of the parameters. -/
namespace Sys2Proof.Machine

/-! ## The block registers -/

@[simp] theorem State.resetWith_params (p : Params) : (State.resetWith p).params = p := rfl

@[simp] theorem State.resetWith_ctl_get (p : Params) (e : Eng) : (State.resetWith p).ctl.get e = .reset := by cases e <;> rfl

@[simp] theorem busTarget_blkId (p : Params) : busTarget p 0 = .blkId := rfl

@[simp] theorem busRead_blkId (s : State) : busRead s 0 = blkId := by simp [busRead]

@[simp] theorem State.irqPending_resetWith (p : Params) : (State.resetWith p).irqPending = 0#32 := by
  simp [State.irqPending, State.resetWith, Ctl.irq, Ctl.reset]

/-! ## The registers every engine has -/

theorem State.readReg_id (s : State) (e : Eng) : s.readReg e .id = BitVec.ofNat 32 (0x41500100 + e.id) := by
  cases e <;> rfl

theorem State.readReg_status_resetWith (p : Params) (e : Eng) : (State.resetWith p).readReg e .status = 0#32 :=
  congrArg Ctl.statusWord (State.resetWith_ctl_get p e)

theorem State.readReg_ctrl_resetWith (p : Params) (e : Eng) : (State.resetWith p).readReg e .ctrl = 0#32 :=
  congrArg Ctl.ctrlWord (State.resetWith_ctl_get p e)

theorem State.readReg_errLoc_resetWith (p : Params) (e : Eng) : (State.resetWith p).readReg e .errLoc = 0#32 :=
  congrArg Ctl.errLoc (State.resetWith_ctl_get p e)

/-! ## The stored registers -/

/-- The reset value of a stored register: it is the same on every engine that stores the register. -/
def resetValue : Reg → Word
  | .grM => 5#32
  | .vqLevels => 16#32
  | .vqBs => 4#32
  | .vqMaxIter => 20#32
  | .vqC => 1#32
  | _ => 0#32

/-- VQ_INIT_SRC is stored as its one bit, read under 31 zero bits. -/
theorem State.getReg_vqInitSrc_resetWith (p : Params) : (State.resetWith p).getReg .vq .vqInitSrc = 0#32 :=
  (by decide : 0#31 ++ BitVec.ofBool false = 0#32)

theorem State.getReg_resetWith (p : Params) (e : Eng) (r : Reg) :
    (State.resetWith p).getReg e r = if storesReg e r then resetValue r else 0#32 := by
  cases e <;> cases r <;> first | rfl | exact State.getReg_vqInitSrc_resetWith p

theorem State.readReg_lengths_resetWith (p : Params) (e : Eng) :
    ∀ r ∈ [Reg.inLen, .outLen], (State.resetWith p).readReg e r = 0#32 := by
  simp [State.readReg, State.getReg_resetWith, resetValue]

/-! ## The obligation -/

/-- Settles O25: each row of the last table is the region's capacity by its element kind (10_state.md R115, R129), a parameter,
or a stored register's reset value. -/
theorem resetRegisterValues : Obligations.ResetRegisterValues := by
  intro p
  refine ⟨busRead_blkId _, ?pending, fun e => ?common, fun e _ => State.readReg_lengths_resetWith p e, ?rest⟩
  case pending => rw [busRead_blkIrqPending, State.irqPending_resetWith]
  case common =>
    simp only [List.forall_mem_cons]
    exact ⟨State.readReg_id _ e, rfl, State.readReg_status_resetWith p e, State.readReg_ctrl_resetWith p e,
      State.readReg_errLoc_resetWith p e, List.forall_mem_nil _⟩
  case rest =>
    simp [State.readReg, capacity, elemKind, State.getReg_resetWith, storesReg, resetValue]

end Sys2Proof.Machine
end

section
/-! The command word as the table numbers it, and the steps that a command, a completion event and an empty queue give
(30_encoding.md R300, R305; 40_commands.md R400, R408; 70_reset_and_hazards.md R1113). -/
namespace Sys2Proof

@[simp] theorem tableWord_toNat (w : Word) : tableWord 32 w.toNat = w := by
  rw [tableWord, Nat.mod_eq_of_lt w.isLt, BitVec.ofNat_toNat, BitVec.setWidth_eq]

theorem decodeFor_encode (i : Instr) : decodeFor i.engine (encode i) = .ok i := decodeFor_eq_ok_iff.mpr ⟨rfl, rfl⟩

theorem decodeTableWord_encode (i : Instr) : decodeTableWord 32 (encode i).toNat = some i := by
  rw [decodeTableWord, tableWord_toNat, decode_eq_ok_iff.mpr rfl]

/-- Settles O3: the words that decode to a command are its encoding (`decode_eq_ok_iff`). -/
theorem decodeInvertsEncode : Obligations.DecodeInvertsEncode := fun i _ =>
  ⟨decodeFor_encode i, decodeTableWord_encode i, fun _ => decode_eq_ok_iff.mp⟩

/-- `Eng.all` lists the engines by their ids. -/
theorem Eng.all_id_getElem : ∀ (i : Nat) (h : i < Eng.all.length), (Eng.all[i]).id = i := by decide

theorem Eng.all_getElem_id (e : Eng) : Eng.all[e.id]? = some e := by cases e <;> rfl

end Sys2Proof

namespace Sys2Proof.Machine

theorem windowOf_encode (i : Instr) : windowOf (encode i) = i.engine := by
  rw [windowOf, cmdEng_eq_id_iff.mpr (eq_encode_iff.mp rfl).2.1, engOfId_id, Option.getD_some]

theorem step_withFetchWord (s : State) (w : Word) :
    step (s.withFetchWord 32 w.toNat) = writeCmd (windowOf w) w { s with port := .accepted } := by
  rw [State.withFetchWord, tableWord_toNat]
  exact step_writeCmd rfl

/-- Settles O4: a write to CMD of a word that decodes runs its command, and `withFetchWord` puts such a write first. -/
theorem stepRunsDecodedInstruction : Obligations.StepRunsDecodedInstruction := by
  refine ⟨fun s e w i rest hq hdec => ?_, fun s i => ?_⟩
  · rw [step_writeCmd hq, writeCmd_of_decodeFor hdec]
  · rw [step_withFetchWord, windowOf_encode, writeCmd_of_decodeFor (decodeFor_encode i)]

/-! ## The lowest-numbered BUSY engine -/

theorem firstBusy_eq_some_iff {s : State} {e : Eng} :
    firstBusy s = some e ↔ s.busy e = true ∧ ∀ e' : Eng, e'.id < e.id → s.busy e' = false := by
  have hall (e' : Eng) : ∃ h : e'.id < Eng.all.length, Eng.all[e'.id] = e' := List.getElem?_eq_some_iff.mp e'.all_getElem_id
  rw [firstBusy, List.find?_eq_some_iff_getElem]
  refine and_congr_right fun _ => ⟨?_, fun hlow => ?_⟩
  · rintro ⟨i, hi, rfl, hlow⟩ e' he'
    obtain ⟨h', heq⟩ := hall e'
    have := hlow e'.id (by rwa [Eng.all_id_getElem] at he')
    simpa [heq] using this
  · obtain ⟨h, heq⟩ := hall e
    refine ⟨e.id, h, heq, fun j hj => ?_⟩
    simpa using hlow Eng.all[j] (by rwa [Eng.all_id_getElem])

theorem firstBusy_eq_none_iff {s : State} : firstBusy s = none ↔ ∀ e : Eng, s.busy e = false := by
  simp [firstBusy, Eng.mem_all]

theorem step_firstBusy {s : State} {e : Eng} (hq : s.inbox = []) (h : firstBusy s = some e) :
    step s = .next (completeEngine e s) := by rw [step_inbox_nil s hq, idleStep, h]

theorem step_idle {s : State} (hq : s.inbox = []) (h : ∀ e : Eng, s.busy e = false) : step s = .next s := by
  rw [step_inbox_nil s hq, idleStep, firstBusy_eq_none_iff.mpr h]

theorem step_complete {s : State} {e : Eng} {rest : List Event} (hq : s.inbox = .complete e :: rest) :
    step s = .next (completeEngine e { s with inbox := rest }) := step_inbox_cons s _ rest hq

/-- Settles O6: the three cases of the queue's head. -/
theorem completionEventsRun : Obligations.CompletionEventsRun :=
  ⟨fun _ _ _ => step_complete, fun _ _ hq hbusy hlow => step_firstBusy hq (firstBusy_eq_some_iff.mpr ⟨hbusy, hlow⟩),
    fun _ => step_idle⟩

end Sys2Proof.Machine
end

section
/-! What every step keeps: it answers a next state, the parameters stay, and the rest of the queue stays
(60_exceptions.md; 00_scope.md R9). -/
namespace Sys2Proof.Machine

/-! ## Every step answers a next state -/

theorem exists_whenIdle_next (e : Eng) (s : State) (act : State → State) : ∃ t, whenIdle e s act = .next t := by
  unfold whenIdle
  split <;> exact ⟨_, rfl⟩

theorem exists_writeCmd_next (e : Eng) (w : Word) (s : State) : ∃ t, writeCmd e w s = .next t := by
  unfold writeCmd
  split
  · next i _ =>
    rw [exec_eq_whenIdle_opEffect]
    exact exists_whenIdle_next _ _ _
  · exact ⟨_, rfl⟩

theorem exists_busWrite_next (s : State) (a : Nat) (v : Word) : ∃ t, busWrite s a v = .next t := by
  unfold busWrite
  split
  · exact exists_writeCmd_next _ _ _
  · exact exists_whenIdle_next _ _ _
  · exact exists_whenIdle_next _ _ _
  · exact exists_whenIdle_next _ _ _
  all_goals exact ⟨_, rfl⟩

theorem exists_hostAccess_next (acc : Access) (s : State) : ∃ t, hostAccess acc s = .next t := by
  unfold hostAccess
  split
  · exact ⟨_, rfl⟩
  · cases acc with
    | read n a => exact ⟨_, rfl⟩
    | write n a v => exact exists_busWrite_next _ _ _

theorem exists_runEvent_next (ev : Event) (s : State) : ∃ t, runEvent ev s = .next t := by
  cases ev with
  | host acc => exact exists_hostAccess_next acc s
  | complete e => exact ⟨_, rfl⟩
  | reset => exact ⟨_, rfl⟩

theorem exists_step_next (s : State) : ∃ t, step s = .next t := by
  unfold step
  split
  · exact exists_runEvent_next _ _
  · unfold idleStep
    split <;> exact ⟨_, rfl⟩

/-! ## The parameters and the queue -/

@[simp] theorem State.writeReg_params (s : State) (e : Eng) (r : Reg) (v : Word) : (s.writeReg e r v).params = s.params := by
  unfold State.writeReg
  split
  · split <;> simp
  · rfl

@[simp] theorem State.writeReg_inbox (s : State) (e : Eng) (r : Reg) (v : Word) : (s.writeReg e r v).inbox = s.inbox := by
  unfold State.writeReg
  split
  · split <;> simp
  · rfl

@[simp] theorem State.finish_params (s : State) (e : Eng) (cmd : StartCmd) (res : Except Err Outputs) :
    (s.finish e cmd res).params = s.params := by
  cases res <;> simp [State.finish]

@[simp] theorem State.finish_inbox (s : State) (e : Eng) (cmd : StartCmd) (res : Except Err Outputs) :
    (s.finish e cmd res).inbox = s.inbox := by
  cases res <;> simp [State.finish]

theorem Change.params {s t : State} (h : Change s t) : t.params = s.params := by cases h <;> simp [State.resetBlock]

theorem Change.inbox {s t : State} (h : Change s t) : t.inbox = s.inbox := by cases h <;> simp [State.resetBlock]

theorem step_params {s t : State} (h : step s = .next t) : t.params = s.params := by
  obtain ⟨q, p, hc⟩ := step_change s t h
  exact hc.params

/-- Settles O30: no branch of the step stops, and no change touches the parameters. -/
theorem everyStepAnswersNext : Obligations.EveryStepAnswersNext := fun s =>
  have ⟨t, ht⟩ := exists_step_next s
  ⟨t, ht, step_params ht⟩

theorem step_cons_inbox {s t : State} {ev : Event} {rest : List Event} (hq : s.inbox = ev :: rest)
    (h : step s = .next t) : t.inbox = rest := by
  rw [step_inbox_cons s ev rest hq] at h
  obtain ⟨p, hc⟩ := runEvent_change ev _ t h
  exact hc.inbox

/-! ## Every operation completes -/

theorem completeEngine_ctl_ne {s : State} {e e' : Eng} (h : e' ≠ e) : (completeEngine e s).ctl.get e' = s.ctl.get e' := by
  unfold completeEngine
  split
  · rfl
  · next cmd _ =>
    cases ideal e cmd s <;> simp [State.finish, PerEngine.get_set_ne _ _ h]

theorem completeEngine_busy_same (s : State) (e : Eng) : (completeEngine e s).busy e = false := by
  unfold completeEngine
  split
  · next h => rw [busy_eq, h, Option.isSome_none]
  · next cmd _ =>
    cases ideal e cmd s <;> simp [State.finish, busy_eq, Ctl.failed, Ctl.succeeded]

theorem completeEngine_busy_ne {s : State} {e e' : Eng} (h : e' ≠ e) : (completeEngine e s).busy e' = s.busy e' := by
  rw [busy_eq, completeEngine_ctl_ne h, ← busy_eq]

theorem completeEngine_inbox (s : State) (e : Eng) : (completeEngine e s).inbox = s.inbox :=
  (completeEngine_change e s).inbox

theorem run_succ {s t : State} (n : Nat) (h : step s = .next t) :
    Host.Core.run Sys2Proof.core (n + 1) s = Host.Core.run Sys2Proof.core n t := by
  have h' : Sys2Proof.core.step s = .next t := h
  simp only [Host.Core.run, h']

/-- With the queue empty and every BUSY engine among the last `k`, `k` steps bring every engine to IDLE: each completes
the lowest-numbered BUSY engine, or changes nothing. -/
theorem run_idle_steps (k : Nat) (s : State) (hq : s.inbox = []) (hlow : ∀ e : Eng, s.busy e = true → 9 ≤ e.id + k) :
    ∃ t : State, Host.Core.run Sys2Proof.core k s = .next t ∧ t.inbox = [] ∧ ∀ e : Eng, t.busy e = false := by
  induction k generalizing s with
  | zero =>
    refine ⟨s, rfl, hq, fun e => Bool.eq_false_iff.mpr fun hbusy => ?_⟩
    have := hlow e hbusy
    have := e.id_le
    omega
  | succ k ih =>
    cases hfirst : firstBusy s with
    | none =>
      have hidle := firstBusy_eq_none_iff.mp hfirst
      rw [run_succ k (step_idle hq hidle)]
      exact ih s hq fun e hbusy => absurd hbusy (by simp [hidle e])
    | some e =>
      obtain ⟨hbusy, hbelow⟩ := firstBusy_eq_some_iff.mp hfirst
      rw [run_succ k (step_firstBusy hq hfirst)]
      refine ih _ ((completeEngine_inbox s e).trans hq) fun e' hbusy' => ?_
      have hne : e' ≠ e := by
        rintro rfl
        simp [completeEngine_busy_same] at hbusy'
      rw [completeEngine_busy_ne hne] at hbusy'
      have hnotbelow : ¬e'.id < e.id := fun hlt => by simp [hbelow e' hlt] at hbusy'
      have hid : e'.id ≠ e.id := fun heq => hne (Eng.id_inj heq)
      have := hlow e hbusy
      omega

/-- Settles O33: the queue's events one by one, then nine idle steps. -/
theorem everyOperationCompletes : Obligations.EveryOperationCompletes := by
  intro s
  induction hq : s.inbox generalizing s with
  | nil => exact run_idle_steps 9 s hq fun e _ => Nat.le_add_left 9 e.id
  | cons ev rest ih =>
    obtain ⟨t, ht⟩ := exists_step_next s
    rw [List.length_cons, Nat.add_right_comm, run_succ _ ht]
    exact ih t (step_cons_inbox hq ht)

end Sys2Proof.Machine
end

section
/-! What stays: the frames of the shared operations, and the START frames of the nine engines (40_commands.md R405;
10_state.md R130). -/
namespace Sys2Proof.Machine

theorem Frame.refl (s : State) (e : Eng) (regs : List Reg) (regions : List Region) : Frame s s e regs regions :=
  ⟨rfl, rfl, rfl, fun _ _ => rfl, fun _ _ _ => rfl, fun _ _ => rfl⟩

theorem State.setCtl_frame (s : State) (e : Eng) (c : Ctl) : Frame s (s.setCtl e c) e [] [] :=
  ⟨rfl, rfl, rfl, fun _ he' => PerEngine.get_set_ne _ _ he', fun _ _ _ => s.getReg_setCtl _ _ _ _, fun _ _ => rfl⟩

theorem State.setReg_frame (s : State) (e : Eng) (r : Reg) (v : Word) : Frame s (s.setReg e r v) e [r] [] where
  params := s.setReg_params e r v
  inbox := s.setReg_inbox e r v
  port := s.setReg_port e r v
  ctl e' _ := by rw [State.setReg_ctl]
  regs e' r' hr := by
    rw [State.getReg_setReg, if_neg]
    rintro ⟨he, rfl, -⟩
    exact hr ⟨he, List.mem_singleton_self _⟩
  mem a _ := by rw [State.setReg_mem]

/-- A register write changes the control registers or the register written. -/
theorem State.writeReg_frame (s : State) (e : Eng) (r : Reg) (v : Word) : Frame s (s.writeReg e r v) e [r] [] := by
  cases hw : hostWritable e r with
  | false =>
    rw [s.writeReg_of_readOnly v hw]
    exact .refl s e _ _
  | true =>
    by_cases hr : r = .ctrl
    · subst hr
      rw [State.writeReg_ctrl]
      have h := s.setCtl_frame e { s.ctl.get e with irqEn := v.getLsbD 0 }
      exact { h with regs := fun e' r' _ => h.regs e' r' (by simp), mem := h.mem }
    · rw [s.writeReg_stored v hw hr]
      exact s.setReg_frame e r v

theorem inRegion_wordAddr {p : Params} (e : Eng) {r : Region} {w i : Nat} (hw : w < p.words e r) (hi : i < 4) :
    InRegion p e r (wordAddr e r w + i) :=
  (inRegion_iff e r _).mpr ⟨w, i, hw, hi, rfl⟩

/-- A write of a region word changes bytes of its region only. -/
theorem State.writeWord_frame (s : State) (e : Eng) {r : Region} {w : Nat} (v : Word) (hw : w < s.params.words e r) :
    Frame s (s.setMem (s.mem.setWord (wordAddr e r w) v)) e [] [r] where
  params := rfl
  inbox := rfl
  port := rfl
  ctl _ _ := rfl
  regs _ _ _ := s.getReg_setMem _ _ _
  mem a ha := by
    rw [State.setMem_mem, Memory.get?_setWord, if_neg]
    rintro ⟨hlo, hhi⟩
    obtain ⟨i, rfl⟩ := Nat.exists_eq_add_of_le hlo
    exact ha r (List.mem_singleton_self r) (inRegion_wordAddr e hw (by omega))

/-- What a command does to an IDLE engine stays on that engine. -/
theorem exists_opEffect_frame (e : Eng) (op : BitVec 8) (s : State) :
    ∃ regs regions, Frame s (opEffect e op s) e regs regions := by
  unfold opEffect
  split
  · exact ⟨[], [], .refl _ _ _ _⟩
  split
  · exact ⟨_, _, (s.startFrame_started e .start).frame⟩
  split
  · exact ⟨_, _, (s.startFrame_started e .startDec).frame⟩
  · exact ⟨_, _, s.setCtl_frame e _⟩

/-! ## START of each engine -/

theorem exec_start {i : Instr} {s : State} (h : s.busy i.engine = false) (hop : i.op = 0x01#8) :
    ∃ t, exec i s = .next t ∧ Started s t i.engine .start (outRegs i.engine .start) (outRegions i.engine .start) :=
  ⟨_, by rw [exec_idle h, hop, opEffect_start], s.startFrame_started i.engine .start⟩

theorem exec_startDec {i : Instr} {s : State} (h : s.busy i.engine = false) (hop : i.op = 0x02#8) :
    ∃ t, exec i s = .next t ∧
      Started s t i.engine .startDec (outRegs i.engine .startDec) (outRegions i.engine .startDec) :=
  ⟨_, by rw [exec_idle h, hop, opEffect_startDec], s.startFrame_started i.engine .startDec⟩

/-- Settles O11: OP 0x01 of each of the five, whose output register is OUT_LEN and whose output region is R2. -/
theorem startOfSingleLengthEngines : Obligations.StartOfSingleLengthEngines :=
  ⟨fun _ h => exec_start (i := .rleeStart) h rfl, fun _ h => exec_start (i := .rledStart) h rfl,
    fun _ h => exec_start (i := .greStart) h rfl, fun _ h => exec_start (i := .grdStart) h rfl,
    fun _ h => exec_start (i := .hufdStart) h rfl⟩

/-- Settles O12: OP 0x01 of engine 4. -/
theorem startOfHuffmanEncoder : Obligations.StartOfHuffmanEncoder := fun _ h => exec_start (i := .hufeStart) h rfl

/-- Settles O13: OP 0x01 of engines 6 and 7. -/
theorem startOfLzwEngines : Obligations.StartOfLzwEngines :=
  ⟨fun _ h => exec_start (i := .lzweStart) h rfl, fun _ h => exec_start (i := .lzwdStart) h rfl⟩

/-- Settles O14: OP 0x01 and OP 0x02 of engine 8. -/
theorem startOfVqEngine : Obligations.StartOfVqEngine :=
  ⟨fun _ h => exec_start (i := .vqStartEnc) h rfl, fun _ h => exec_startDec (i := .vqStartDec) h rfl⟩

end Sys2Proof.Machine
end

section
/-! Completion with success (40_commands.md R408; 20_memory.md R214): what is published, and what stays. -/
namespace Sys2Proof.Machine

/-! ## The output registers -/

theorem keptBits_of_ne {r : Reg} (h : r ≠ .vqInitSrc) (v : Word) : keptBits r v = v := by
  cases r <;> first | rfl | exact absurd rfl h

theorem State.getReg_setRegs_of_mem (s : State) {e : Eng} {l : List (Reg × Word)} (hnodup : (l.map Prod.fst).Nodup)
    (hkept : ∀ r ∈ l.map Prod.fst, storesReg e r = true ∧ r ≠ .vqInitSrc) :
    ∀ x ∈ l, (s.setRegs e l).getReg e x.1 = x.2 := by
  induction l generalizing s with
  | nil => exact List.forall_mem_nil _
  | cons y l ih =>
    obtain ⟨hy, hnodup⟩ := List.nodup_cons.mp hnodup
    obtain ⟨⟨hstores, hne⟩, hkept⟩ := List.forall_mem_cons.mp hkept
    refine List.forall_mem_cons.mpr ⟨?_, ih (s.setReg e y.1 y.2) hnodup hkept⟩
    calc ((s.setReg e y.1 y.2).setRegs e l).getReg e y.1 = (s.setReg e y.1 y.2).getReg e y.1 :=
          State.getReg_setRegs_notMem _ e l y.1 hy
      _ = y.2 := by rw [State.getReg_setReg_same s y.2 hstores, keptBits_of_ne hne]

theorem outRegs_nodup (e : Eng) (cmd : StartCmd) : (outRegs e cmd).Nodup := by
  cases e <;> cases cmd <;> decide

theorem outRegions_nodup (e : Eng) (cmd : StartCmd) : (outRegions e cmd).Nodup := by
  cases e <;> cases cmd <;> decide

/-! ## The output regions -/

/-- A stream no longer than a region's address range ends before the next region begins. -/
theorem wordAddr_outside_stream {e : Eng} {r r' : Region} {w i n : Nat} (hw : w < 2 ^ 20) (hi : i < 4) (hn : n ≤ 2 ^ 20)
    (h : r' ≠ r ∨ n ≤ w) :
    ¬(regionBase e r' ≤ wordAddr e r w + i ∧ wordAddr e r w + i < regionBase e r' + 4 * n) := by
  rintro ⟨hlo, hhi⟩
  obtain ⟨d, hd⟩ := Nat.exists_eq_add_of_le hlo
  have haddr : wordAddr e r w + i = wordAddr e r' (d / 4) + d % 4 := by
    rw [hd]
    simp only [wordAddr]
    omega
  obtain ⟨-, hr, hwd, -⟩ := wordAddr_inj hw (by omega) hi (by omega) haddr
  rcases h with hne | hle
  · exact hne hr.symm
  · omega

theorem State.word?_writeStreams (s : State) {e : Eng} {l : List (Region × List Word)} (hnodup : (l.map Prod.fst).Nodup)
    (hlen : ∀ x ∈ l, x.2.length ≤ 2 ^ 20) :
    ∀ x ∈ l, ∀ (j : Nat) (h : j < x.2.length), (s.writeStreams e l).word? (wordAddr e x.1 j) = some x.2[j] := by
  induction l generalizing s with
  | nil => exact List.forall_mem_nil _
  | cons y l ih =>
    obtain ⟨hy, hnodup⟩ := List.nodup_cons.mp hnodup
    obtain ⟨hylen, hlen⟩ := List.forall_mem_cons.mp hlen
    refine List.forall_mem_cons.mpr ⟨fun j hj => ?_, ih (s.setMem (s.mem.setWords (regionBase e y.1) y.2)) hnodup hlen⟩
    rw [State.writeStreams, ← State.word?_setWords s s.mem (regionBase e y.1) y.2 j hj]
    refine State.word?_congr fun i hi => State.get?_writeStreams_outside _ _ _ _ fun z hz => ?_
    exact wordAddr_outside_stream (by omega) hi (hlen z hz) (.inl fun heq => hy (heq ▸ List.mem_map_of_mem hz))

section
variable {s : State} {e : Eng} {cmd : StartCmd} {o : Outputs}

theorem State.publish_word? (a : Nat) :
    (s.publish e cmd o).word? a = ((s.forgetRegions e (outRegions e cmd)).writeStreams e o.words).word? a :=
  State.word?_congr fun i _ => by rw [State.publish_mem]

/-- A success changes its engine's output registers and output regions only. -/
theorem State.publish_frame (hfits : o.Fits s.params e cmd) :
    Frame s (s.publish e cmd o) e (o.regs.map Prod.fst) (o.words.map Prod.fst) where
  params := State.publish_params s e cmd o
  inbox := State.publish_inbox s e cmd o
  port := State.publish_port s e cmd o
  ctl e' he' := by rw [State.publish_ctl, PerEngine.get_set_ne _ _ he']
  regs e' r hr := by
    rw [State.publish_getReg]
    split
    · next he => rw [State.getReg_setRegs_notMem _ _ _ _ fun hmem => hr ⟨he, hmem⟩, he]
    · rfl
  mem a ha := by
    rw [State.publish_mem, State.get?_writeStreams_outside, State.get?_forgetRegions, if_neg]
    · rintro ⟨r, hr, hin⟩
      exact ha r (hfits.regions ▸ hr) hin
    · rintro x hx ⟨hlo, hhi⟩
      have hle := hfits.lengths x hx
      exact ha x.1 (List.mem_map_of_mem hx) ⟨hlo, by omega⟩

/-- The words of an output region past its stream are unspecified (20_memory.md R214). -/
theorem State.publish_beyond (hlegal : s.params.legal = true) (hfits : o.Fits s.params e cmd) {x : Region × List Word}
    (hx : x ∈ o.words) {w i : Nat} (hlen : x.2.length ≤ w) (hw : w < s.params.words e x.1) (hi : i < 4) :
    (s.publish e cmd o).mem.get? (wordAddr e x.1 w + i) = none := by
  have hwords (r : Region) : s.params.words e r ≤ 2 ^ 20 := legal_words hlegal e r
  have hnodup : (o.words.map Prod.fst).Nodup := hfits.regions ▸ outRegions_nodup e cmd
  rw [State.publish_mem, State.get?_writeStreams_outside, State.get?_forgetRegions, if_pos]
  · exact ⟨x.1, hfits.regions ▸ List.mem_map_of_mem hx, inRegion_wordAddr e hw hi⟩
  · intro y hy
    refine wordAddr_outside_stream (hw.trans_le (hwords x.1)) hi ((hfits.lengths y hy).trans (hwords y.1)) ?_
    by_cases heq : y.1 = x.1
    · exact .inr (List.inj_on_of_nodup_map hnodup hy hx heq ▸ hlen)
    · exact .inl heq

/-- A success publishes everything R408 lists. -/
theorem State.publish_succeeded (hlegal : s.params.legal = true) (hfits : o.Fits s.params e cmd) :
    Succeeded s (s.publish e cmd o) e o.regs o.words where
  ctl := by rw [State.publish_ctl, PerEngine.get_set_same, Ctl.succeeded]
  outputs x hx := by
    rw [State.publish_getReg, if_pos rfl]
    exact s.getReg_setRegs_of_mem (hfits.regs ▸ outRegs_nodup e cmd)
      (fun r hr => storesReg_outRegs e cmd r (hfits.regs ▸ hr)) x hx
  words x hx j hj := by
    rw [State.publish_word?]
    exact State.word?_writeStreams _ (hfits.regions ▸ outRegions_nodup e cmd)
      (fun y hy => (hfits.lengths y hy).trans (legal_words hlegal e y.1)) x hx j hj
  beyond _ hx _ _ := State.publish_beyond hlegal hfits hx
  frame := State.publish_frame hfits

end

/-- Settles O15: the completion is `State.publish` of an answer that fits its command's outputs. -/
theorem successPublishes : Obligations.SuccessPublishes := by
  intro s e cmd o hlegal hrunning hideal
  rw [completeEngine_ok hrunning hideal]
  exact State.publish_succeeded hlegal (ideal_fits hideal)

/-- A completion stays on its engine. -/
theorem exists_completeEngine_frame (s : State) (e : Eng) :
    ∃ regs regions, Frame s (completeEngine e s) e regs regions := by
  cases hrunning : (s.ctl.get e).running with
  | none =>
    rw [completeEngine_idle e s (by rw [busy_eq, hrunning, Option.isSome_none])]
    exact ⟨[], [], .refl _ _ _ _⟩
  | some cmd =>
    cases hideal : ideal e cmd s with
    | ok o =>
      rw [completeEngine_ok hrunning hideal]
      exact ⟨_, _, State.publish_frame (ideal_fits hideal)⟩
    | error x =>
      rw [completeEngine_error hrunning hideal]
      exact ⟨_, _, (s.fail_failedWith e cmd x).frame⟩

end Sys2Proof.Machine
end

section
/-! Host accesses (20_memory.md R200 to R215; 10_state.md R103 to R129): the windows, an accepted read, and an accepted write to
a BUSY and to an IDLE engine. -/
namespace Sys2Proof.Machine

/-! ## Accepted accesses -/

theorem step_rd32 {s : State} {a : BitVec 32} {rest : List Event} (hq : s.inbox = .host (.rd32 a) :: rest)
    (ha : a.toNat % 4 = 0) :
    step s = .next { s with inbox := rest, port := .data (busRead s a.toNat), draws := s.draws + 1 } := by
  rw [step_host hq, hostAccess, if_neg (by simp [Access.wellFormed, Access.size, Access.addr, ha])]
  rfl

theorem step_wr32 {s : State} {a : BitVec 32} {v : Word} {rest : List Event} (hq : s.inbox = .host (.wr32 a v) :: rest)
    (ha : a.toNat % 4 = 0) : step s = busWrite { s with inbox := rest, port := .accepted } a.toNat v := by
  rw [step_host hq, hostAccess, if_neg (by simp [Access.wellFormed, Access.size, Access.addr, ha])]

/-! ## The windows -/

theorem inWindow_iff {e : Eng} {a : Nat} : InWindow e a ↔ ∃ off, off < 0x02000000 ∧ a = windowBase e + off := by
  constructor
  · rintro ⟨hlo, hhi⟩
    exact ⟨a - windowBase e, by omega, by omega⟩
  · rintro ⟨off, hoff, rfl⟩
    exact ⟨by omega, by omega⟩

theorem inWindow_regAddr {e : Eng} {r : Reg} (h : r ∈ engRegs e) : InWindow e (regAddr e r) :=
  inWindow_iff.mpr ⟨regOffset r, (regAt_offset e r h).2.trans (by decide), rfl⟩

theorem inWindow_wordAddr (e : Eng) (r : Region) {w i : Nat} (hw : w < 2 ^ 20) (hi : i < 4) :
    InWindow e (wordAddr e r w + i) := by
  have hr := regionIndex_bounds r
  refine inWindow_iff.mpr ⟨regionIndex r * 0x00400000 + 4 * w + i, by omega, ?_⟩
  simp only [wordAddr, regionBase]
  omega

/-- The windows do not overlap (R201). -/
theorem InWindow.unique {e e' : Eng} {a : Nat} (h : InWindow e a) (h' : InWindow e' a) : e = e' := by
  simp only [InWindow, windowBase] at h h'
  exact Eng.id_inj (by omega)

theorem InRegion.inWindow {p : Params} {e : Eng} {r : Region} {a : Nat} (hlegal : p.legal = true) (h : InRegion p e r a) :
    InWindow e a := by
  obtain ⟨w, i, hw, hi, rfl⟩ := (inRegion_iff e r a).mp h
  exact inWindow_wordAddr e r (hw.trans_le (legal_words hlegal e r)) hi

/-! ## Writes to a BUSY engine -/

theorem busWrite_busy {s : State} {e : Eng} {a : Nat} (v : Word) (hbusy : s.busy e = true) (ha : InWindow e a) :
    busWrite s a v = .next (s.drop e) := by
  obtain ⟨off, hoff, rfl⟩ := inWindow_iff.mp ha
  rw [busWrite, busTarget_window s.params e off hoff]
  rcases windowTarget_engine s.params e off with ⟨r, h⟩ | ⟨r, w, h⟩ | h <;> rw [h]
  · cases r <;> first | exact writeCmd_busy hbusy v | exact whenIdle_busy _ hbusy
  · exact whenIdle_busy _ hbusy
  · exact whenIdle_busy _ hbusy

/-- Settles O10: every command and every write to a BUSY engine's window is `State.drop`. -/
theorem busyEngineDropsWrites : Obligations.BusyEngineDropsWrites := by
  refine ⟨exec_busy, fun s e a v => busWrite_busy v, fun s e a v rest hq ha hwin hbusy => ?_,
    fun e r => inWindow_regAddr, fun e r w hw => inWindow_wordAddr e r hw (i := 0) (by decide)⟩
  rw [step_wr32 hq ha]
  exact busWrite_busy (s := { s with inbox := rest, port := .accepted }) v hbusy hwin

/-! ## Addresses that name nothing -/

theorem not_inWindow_low {a : Nat} (h : a < 0x02000000) (e : Eng) : ¬InWindow e a := by
  simp only [InWindow, windowBase]
  omega

theorem not_inWindow_high {a : Nat} (h : 0x14000000 ≤ a) (e : Eng) : ¬InWindow e a := by
  have := e.id_le
  simp only [InWindow, windowBase]
  omega

theorem busTarget_low (p : Params) {a : Nat} (h : 8 ≤ a) (h' : a < 0x02000000) : busTarget p a = .unmapped := by
  rw [busTarget, if_neg (by omega), if_neg (by omega), if_pos h']

theorem busTarget_high (p : Params) {a : Nat} (h : 0x14000000 ≤ a) : busTarget p a = .unmapped := by
  have hid : engOfId (a / 0x02000000 - 1) = none :=
    Option.eq_none_iff_forall_ne_some.mpr fun e he => by
      have := engOfId_eq_some_iff.mp he
      have := e.id_le
      omega
  rw [busTarget, if_neg (by omega), if_neg (by omega), if_neg (by omega), hid]

theorem regAt_eq_none {e : Eng} {off : Nat} (h : ∀ r ∈ engRegs e, off ≠ regOffset r) : regAt e off = none :=
  List.find?_eq_none.mpr fun r hr => by simpa using (h r hr).symm

theorem windowTarget_no_register (p : Params) {e : Eng} {off : Nat} (hoff : off < 0x1000)
    (h : ∀ r ∈ engRegs e, off ≠ regOffset r) : windowTarget p e off = .hole e := by
  rw [windowTarget, if_pos hoff, regAt_eq_none h]

/-- The offsets between the registers and the regions, and those past the regions, name nothing (R203, R204). -/
theorem windowTarget_no_region (p : Params) (e : Eng) {off : Nat} (hoff : 0x1000 ≤ off)
    (h : off < 0x00400000 ∨ 0x01400000 ≤ off) : windowTarget p e off = .hole e := by
  have hindex : off / 0x00400000 = 0 ∨ 5 ≤ off / 0x00400000 := by omega
  have hregion : regionOfIndex (off / 0x00400000) = none := by
    rcases hindex with h0 | h5
    · rw [h0]; rfl
    · obtain ⟨k, hk⟩ := Nat.exists_eq_add_of_le' h5
      rw [hk]; rfl
  rw [windowTarget, if_neg (by omega), hregion]

/-- A region word at or past REGION_WORDS does not exist (R204). -/
theorem busTarget_past_region {p : Params} {e : Eng} {r : Region} {w : Nat} (hw : p.words e r ≤ w) (hw' : w < 2 ^ 20) :
    busTarget p (wordAddr e r w) = .hole e := by
  have hr := regionIndex_bounds r
  have haddr : wordAddr e r w = windowBase e + (regionIndex r * 0x00400000 + 4 * w) := by
    simp only [wordAddr, regionBase]; omega
  have hindex : (regionIndex r * 0x00400000 + 4 * w) / 0x00400000 = regionIndex r := by omega
  have hword : (regionIndex r * 0x00400000 + 4 * w) % 0x00400000 / 4 = w := by omega
  have hregion : regionOfIndex (regionIndex r) = some r := by cases r <;> rfl
  rw [haddr, busTarget_window p e _ (by omega), windowTarget, if_neg (by omega), hindex, hregion]
  dsimp only
  rw [hword, if_neg hw.not_gt]

/-- A RAZ/WI address lies outside every window and names nothing, or is a hole of its window. -/
theorem RazWi.target {p : Params} {a : Nat} (h : RazWi p a) :
    (busTarget p a = .unmapped ∧ ∀ e, ¬InWindow e a) ∨ ∃ e, busTarget p a = .hole e ∧ InWindow e a := by
  obtain ⟨hlo, hhi⟩ | hhigh | ⟨e, ⟨off, rfl, hoff⟩ | ⟨r, w, hw, hw', rfl⟩⟩ := h
  · exact .inl ⟨busTarget_low p hlo hhi, not_inWindow_low hhi⟩
  · exact .inl ⟨busTarget_high p hhigh, not_inWindow_high hhigh⟩
  · have hlt : off < 0x02000000 := by omega
    refine .inr ⟨e, ?_, inWindow_iff.mpr ⟨off, hlt, rfl⟩⟩
    rw [busTarget_window p e off hlt]
    rcases hoff with ⟨hreg, hnone⟩ | ⟨hlo, hhi⟩ | ⟨hlo, -⟩
    · exact windowTarget_no_register p hreg hnone
    · exact windowTarget_no_region p e hlo (.inl hhi)
    · exact windowTarget_no_region p e (by omega) (.inr hlo)
  · exact .inr ⟨e, busTarget_past_region hw hw', inWindow_wordAddr e r hw' (i := 0) (by decide)⟩

theorem busRead_razWi {s : State} {a : Nat} (h : RazWi s.params a) : busRead s a = 0#32 := by
  rw [busRead]
  obtain ⟨ht, -⟩ | ⟨e, ht, -⟩ := h.target <;> rw [ht]

theorem busWrite_razWi_idle {s : State} {a : Nat} (v : Word) (h : RazWi s.params a)
    (hidle : ∀ e : Eng, InWindow e a → s.busy e = false) : busWrite s a v = .next s := by
  rw [busWrite]
  obtain ⟨ht, -⟩ | ⟨e, ht, hwin⟩ := h.target <;> rw [ht]
  exact whenIdle_idle _ (hidle e hwin)

/-- Settles O19: such an address has no target or is a hole, and a hole of a BUSY engine's window drops the write. -/
theorem unmappedIsRazWi : Obligations.UnmappedIsRazWi := by
  intro s a v rest ha hraz
  refine ⟨fun hq => ?_, fun hq => ⟨fun hidle => ?_, fun e hwin hbusy => ?_⟩⟩
  · rw [step_rd32 hq ha, busRead_razWi hraz]
  · rw [step_wr32 hq ha]
    exact busWrite_razWi_idle (s := { s with inbox := rest, port := .accepted }) v hraz hidle
  · rw [step_wr32 hq ha]
    exact busWrite_busy (s := { s with inbox := rest, port := .accepted }) v hbusy hwin

/-! ## Reads -/

theorem busRead_regAddr (s : State) {e : Eng} {r : Reg} (h : r ∈ engRegs e) : busRead s (regAddr e r) = s.readReg e r := by
  rw [busRead, busTarget_regAddr s.params e r h]

theorem busRead_wordAddr (s : State) {e : Eng} {r : Region} {w : Nat} (hw : w < s.params.words e r) (hw' : w < 2 ^ 20) :
    busRead s (wordAddr e r w) = readWord s e r w := by
  rw [busRead, busTarget_wordAddr s.params e r w hw hw']

theorem beingWritten_of_running {s : State} {e : Eng} {cmd : StartCmd} (h : (s.ctl.get e).running = some cmd) (r : Region) :
    beingWritten s e r = decide (r ∈ outRegions e cmd) := by
  rw [beingWritten, h]

theorem beingWritten_eq_false {s : State} {e : Eng} {r : Region}
    (h : ∀ cmd : StartCmd, (s.ctl.get e).running = some cmd → r ∉ outRegions e cmd) : beingWritten s e r = false := by
  cases hrunning : (s.ctl.get e).running with
  | none => rw [beingWritten, hrunning]
  | some cmd => rw [beingWritten_of_running hrunning, decide_eq_false (h cmd hrunning)]

theorem readWord_specified {s : State} {e : Eng} {r : Region} {w : Nat} {v : Word} (hw : beingWritten s e r = false)
    (h : s.word? (wordAddr e r w) = some v) : readWord s e r w = v := by
  rw [readWord, hw, if_neg Bool.false_ne_true, State.wordAt_of_word? h]

/-- Settles O20: the step of an accepted read, and what the address names. -/
theorem readsHaveNoSideEffects : Obligations.ReadsHaveNoSideEffects := by
  refine fun s => ⟨fun a rest => step_rd32, busRead_blkId s, busRead_blkIrqPending s, fun e r => busRead_regAddr s,
    fun e r w v hw hw' hrunning hword => ?_, fun e r w cmd hw hw' hrunning hr => ?_⟩
  · rw [busRead_wordAddr s hw hw', readWord_specified (beingWritten_eq_false hrunning) hword]
  · rw [busRead_wordAddr s hw hw', readWord, beingWritten_of_running hrunning, decide_eq_true hr, if_pos rfl]

/-! ## Writes to an IDLE engine -/

theorem State.word?_setWord (s : State) (a : Nat) (v : Word) : (s.setMem (s.mem.setWord a v)).word? a = some v :=
  State.word?_setWords s s.mem a [v] 0 Nat.one_pos

theorem busWrite_wordAddr_idle {s : State} {e : Eng} {r : Region} {w : Nat} (v : Word) (hidle : s.busy e = false)
    (hw : w < s.params.words e r) (hw' : w < 2 ^ 20) :
    busWrite s (wordAddr e r w) v = .next (s.setMem (s.mem.setWord (wordAddr e r w) v)) := by
  rw [busWrite, busTarget_wordAddr s.params e r w hw hw']
  exact whenIdle_idle _ hidle

theorem beingWritten_idle {s : State} {e : Eng} (hidle : s.busy e = false) (r : Region) : beingWritten s e r = false :=
  beingWritten_eq_false fun cmd hrunning => by simp [busy_eq, hrunning] at hidle

/-- Settles O21: the write is `Memory.setWord`, which an IDLE engine's read of that word finds. -/
theorem regionWordWriteThenRead : Obligations.RegionWordWriteThenRead := by
  intro s e r w v hidle hw hw'
  refine ⟨_, busWrite_wordAddr_idle v hidle hw hw', rfl, ?_, fun a ha => ?_⟩
  · rw [busRead_wordAddr _ (by exact hw) hw']
    exact readWord_specified (beingWritten_idle hidle r) (s.word?_setWord _ v)
  · rw [State.setMem_mem, Memory.get?_setWord, if_neg ha]

theorem busWrite_regAddr_idle {s : State} {e : Eng} {r : Reg} (v : Word) (hidle : s.busy e = false) (h : r ∈ engRegs e)
    (hcmd : r ≠ .cmd) : busWrite s (regAddr e r) v = .next (s.writeReg e r v) := by
  rw [busWrite, busTarget_regAddr s.params e r h]
  cases r <;> first | exact absurd rfl hcmd | exact whenIdle_idle _ hidle

theorem hostWritable_eq_decide : ∀ e : Eng, ∀ r ∈ engRegs e, hostWritable e r = decide (r ∈ rwRegs e) := by
  intro e
  cases e <;> decide

/-- A read-write register other than CTRL is stored, and a read returns what is stored. -/
theorem rwRegs_stored : ∀ e : Eng, ∀ r ∈ rwRegs e, r = .ctrl ∨ storesReg e r = true := by
  intro e
  cases e <;> decide

theorem State.readReg_stored (s : State) {e : Eng} {r : Reg} (h : storesReg e r = true) : s.readReg e r = s.getReg e r := by
  cases r <;> first | rfl | (cases e <;> exact absurd h (by decide))

theorem bit_zero_word (v : Word) : 0#31 ++ BitVec.ofBool (v.getLsbD 0) = v &&& 1#32 := by
  apply BitVec.eq_of_getLsbD_eq
  intro i _
  rw [BitVec.getLsbD_append, BitVec.getLsbD_and, BitVec.getLsbD_one]
  cases i <;> simp

theorem State.readReg_writeReg_ctrl (s : State) (e : Eng) (v : Word) :
    (s.writeReg e .ctrl v).readReg e .ctrl = v &&& 1#32 := by
  rw [State.writeReg_ctrl, ← bit_zero_word v]
  simp [State.readReg, Ctl.ctrlWord]

theorem keptBits_eq (r : Reg) (v : Word) (h : r ≠ .ctrl) :
    keptBits r v = if r = .ctrl ∨ r = .vqInitSrc then v &&& 1#32 else v := by
  by_cases hr : r = .vqInitSrc
  · subst hr
    exact (bit_zero_word v).trans (if_pos (.inr rfl)).symm
  · rw [keptBits_of_ne hr, if_neg (not_or.mpr ⟨h, hr⟩)]

theorem State.readReg_writeReg (s : State) {e : Eng} {r : Reg} (v : Word) (hw : hostWritable e r = true) (hr : r ∈ rwRegs e) :
    (s.writeReg e r v).readReg e r = if r = .ctrl ∨ r = .vqInitSrc then v &&& 1#32 else v := by
  by_cases hctrl : r = .ctrl
  · subst hctrl
    simpa using s.readReg_writeReg_ctrl e v
  · have hstores := (rwRegs_stored e r hr).resolve_left hctrl
    rw [s.writeReg_stored v hw hctrl, State.readReg_stored _ hstores, s.getReg_setReg_same v hstores, keptBits_eq r v hctrl]

theorem State.writeReg_ctl (s : State) (e : Eng) {r : Reg} (v : Word) (h : r ≠ .ctrl) : (s.writeReg e r v).ctl = s.ctl := by
  cases hw : hostWritable e r with
  | false => rw [s.writeReg_of_readOnly v hw]
  | true => rw [s.writeReg_stored v hw h, State.setReg_ctl]

theorem State.writeReg_draws (s : State) (e : Eng) (r : Reg) (v : Word) : (s.writeReg e r v).draws = s.draws := by
  unfold State.writeReg
  split
  · split <;> simp
  · rfl

/-- Settles O22: the write is `State.writeReg`, which stores in the read-write registers only. -/
theorem hostRegisterWrites : Obligations.HostRegisterWrites := by
  intro s e r v hidle hr hcmd
  have hwritable := hostWritable_eq_decide e r hr
  refine ⟨_, busWrite_regAddr_idle v hidle hr hcmd, fun hrw => ?_, fun hro => ?_, ?_,
    fun hctrl => ⟨s.writeReg_ctl e v hctrl, s.writeReg_frame e r v⟩, s.writeReg_draws e r v⟩
  · exact s.readReg_writeReg v (hwritable.trans (decide_eq_true hrw)) hrw
  · exact s.writeReg_of_readOnly v (hwritable.trans (decide_eq_false hro))
  · rintro rfl
    exact s.writeReg_ctrl e v

/-! ## The STATUS word -/

section
variable (c : Ctl)

/-- The one-bit fields of the STATUS word (10_state.md R109). -/
theorem statusWord_bits : c.statusWord.getLsbD 0 = c.busy ∧ c.statusWord.getLsbD 1 = c.done ∧
    c.statusWord.getLsbD 2 = c.error ∧ c.statusWord.getLsbD 3 = c.dropped := by
  simp only [Ctl.statusWord, BitVec.getLsbD_append]
  simp

/-- Above its four one-bit fields the STATUS word is its 4-bit fields under 16 zero bits. -/
theorem statusWord_extract {start : Nat} (len : Nat) (h : 4 ≤ start) : c.statusWord.extractLsb' start len =
    (0#16 ++ c.errSrc.bits ++ c.errCode.bits ++ 0#4).extractLsb' (start - 1 - 1 - 1 - 1) len :=
  (BitVec.extractLsb'_append_eq_of_le (by omega)).trans ((BitVec.extractLsb'_append_eq_of_le (by omega)).trans
    ((BitVec.extractLsb'_append_eq_of_le (by omega)).trans (BitVec.extractLsb'_append_eq_of_le (by omega))))

/-- The wider fields of the STATUS word, the reserved ones among them (R109). -/
theorem statusWord_fields : c.statusWord.extractLsb' 4 4 = 0#4 ∧ c.statusWord.extractLsb' 8 4 = c.errCode.bits ∧
    c.statusWord.extractLsb' 12 4 = c.errSrc.bits ∧ c.statusWord.extractLsb' 16 16 = 0#16 := by
  simp only [statusWord_extract c _ (by decide : 4 ≤ 4), statusWord_extract c _ (by decide : 4 ≤ 8),
    statusWord_extract c _ (by decide : 4 ≤ 12), statusWord_extract c _ (by decide : 4 ≤ 16)]
  refine ⟨BitVec.extractLsb'_append_eq_right, ?_, ?_, ?_⟩
  · rw [BitVec.extractLsb'_append_eq_of_le (by decide)]
    exact BitVec.extractLsb'_append_eq_right
  · rw [BitVec.extractLsb'_append_eq_of_le (by decide), BitVec.extractLsb'_append_eq_of_le (by decide)]
    exact BitVec.extractLsb'_append_eq_right
  · rw [BitVec.extractLsb'_append_eq_of_le (by decide), BitVec.extractLsb'_append_eq_of_le (by decide)]
    exact BitVec.extractLsb'_append_eq_left

end

/-- Settles O24: the fields of the word, and the codes and sources by their bits. -/
theorem statusWordFields : Obligations.StatusWordFields := by
  intro s e
  obtain ⟨hbusy, hdone, herror, hdropped⟩ := statusWord_bits (s.ctl.get e)
  obtain ⟨hlow, hcode, hsrc, hhigh⟩ := statusWord_fields (s.ctl.get e)
  refine ⟨hbusy, hdone, herror, hdropped, hlow, hhigh, fun row hrow h => ?_, fun row hrow h => ?_⟩
  · refine hcode.trans (h ▸ ?_)
    clear h
    revert row
    decide
  · refine hsrc.trans (h ▸ ?_)
    clear h
    revert row
    decide

end Sys2Proof.Machine
end

section
/-! What a step leaves of a BUSY engine, and how its operation ends (40_commands.md R401, R407, R408; 70_reset_and_hazards.md
R1100 to R1103). -/
namespace Sys2Proof.Machine

/-! ## The engine a host write is for -/

theorem whenIdle_cases {e : Eng} {s t : State} {act : State → State} (h : whenIdle e s act = .next t) :
    (s.busy e = true ∧ t = s.drop e) ∨ (s.busy e = false ∧ t = act s) := by
  cases hbusy : s.busy e with
  | true =>
    rw [whenIdle_busy act hbusy] at h
    cases h
    exact .inl ⟨rfl, rfl⟩
  | false =>
    rw [whenIdle_idle act hbusy] at h
    cases h
    exact .inr ⟨rfl, rfl⟩

/-- What a host write to something of engine `e` does: a drop while BUSY, else a change of that engine only. -/
def WriteEffect (e : Eng) (s t : State) : Prop :=
  (s.busy e = true ∧ t = s.drop e) ∨ (s.busy e = false ∧ ∃ regs regions, Frame s t e regs regions)

theorem whenIdle_writeEffect {e : Eng} {s t : State} {act : State → State} (h : whenIdle e s act = .next t)
    (hact : ∃ regs regions, Frame s (act s) e regs regions) : WriteEffect e s t :=
  (whenIdle_cases h).imp_right fun ⟨hidle, ht⟩ => ⟨hidle, ht ▸ hact⟩

theorem writeCmd_writeEffect {e : Eng} {w : Word} {s t : State} (h : writeCmd e w s = .next t) : WriteEffect e s t := by
  by_cases hw : LegalWord e w
  · obtain ⟨i, hi⟩ := exists_decodeFor_iff_legalWord.mpr hw
    obtain ⟨rfl, -⟩ := decodeFor_eq_ok_iff.mp hi
    rw [writeCmd_of_decodeFor hi, exec_eq_whenIdle_opEffect] at h
    exact whenIdle_writeEffect h (exists_opEffect_frame _ _ _)
  · rw [writeCmd_of_not_legalWord hw] at h
    cases h
    cases hbusy : s.busy e with
    | true => exact .inl ⟨hbusy, illegalCommand_busy hbusy⟩
    | false => exact .inr ⟨hbusy, _, _, illegalCommand_idle hbusy ▸ s.setCtl_frame e _⟩

/-- Every host write changes nothing or has its effect on one engine. -/
theorem busWrite_effect {s t : State} {a : Nat} {v : Word} (h : busWrite s a v = .next t) :
    t = s ∨ ∃ e, WriteEffect e s t := by
  unfold busWrite at h
  split at h
  · exact .inr ⟨_, writeCmd_writeEffect h⟩
  · exact .inr ⟨_, whenIdle_writeEffect h ⟨_, _, s.writeReg_frame _ _ _⟩⟩
  · next hword => exact .inr ⟨_, whenIdle_writeEffect h ⟨_, _, s.writeWord_frame _ _ (busTarget_word hword)⟩⟩
  · exact .inr ⟨_, whenIdle_writeEffect h ⟨[], [], .refl _ _ _ _⟩⟩
  all_goals
    cases h
    exact .inl rfl

/-! ## What another engine's change leaves -/

theorem Frame.getReg_ne {s t : State} {e e' : Eng} {regs : List Reg} {regions : List Region}
    (h : Frame s t e regs regions) (hne : e' ≠ e) (r : Reg) : t.getReg e' r = s.getReg e' r :=
  h.regs e' r fun hr => hne hr.1

theorem Frame.get?_ne {s t : State} {e e' : Eng} {regs : List Reg} {regions : List Region} {a : Nat}
    (h : Frame s t e regs regions) (hlegal : s.params.legal = true) (hne : e' ≠ e) (ha : InWindow e' a) :
    t.mem.get? a = s.mem.get? a :=
  h.mem a fun _ _ hin => hne (ha.unique (hin.inWindow hlegal))

/-- Engine `e` as a step that is not its own completion and no reset leaves it: DROPPED may be set. -/
structure KeepsEngine (e : Eng) (s t : State) : Prop where
  ctl : t.ctl.get e = s.ctl.get e ∨ t.ctl.get e = { s.ctl.get e with dropped := true }
  regs : ∀ r : Reg, t.getReg e r = s.getReg e r
  mem : s.params.legal = true → ∀ a : Nat, InWindow e a → t.mem.get? a = s.mem.get? a

theorem KeepsEngine.refl (e : Eng) (s : State) : KeepsEngine e s s := ⟨.inl rfl, fun _ => rfl, fun _ _ _ => rfl⟩

/-- The queue, the response and the draw counter are no engine's. -/
theorem KeepsEngine.of_host_fields {e : Eng} {s t : State} {q : List Event} {p : PortResponse} {d : Nat}
    (h : KeepsEngine e { s with inbox := q, port := p, draws := d } t) : KeepsEngine e s t :=
  ⟨h.ctl, h.regs, h.mem⟩

theorem Frame.keepsEngine {s t : State} {e e' : Eng} {regs : List Reg} {regions : List Region}
    (h : Frame s t e regs regions) (hne : e' ≠ e) : KeepsEngine e' s t :=
  ⟨.inl (h.ctl e' hne), h.getReg_ne hne, fun hlegal _ => h.get?_ne hlegal hne⟩

theorem State.drop_keepsEngine (s : State) (e e' : Eng) : KeepsEngine e' s (s.drop e) where
  ctl := by
    by_cases he : e' = e
    · subst he
      exact .inr (by rw [State.drop_ctl, PerEngine.get_set_same, Ctl.drop])
    · exact .inl (by rw [State.drop_ctl, PerEngine.get_set_ne _ _ he])
  regs r := s.drop_getReg e e' r
  mem _ _ _ := rfl

/-- A change on an IDLE engine, or a drop, keeps every BUSY engine. -/
theorem WriteEffect.keepsEngine {s t : State} {e e' : Eng} (h : WriteEffect e' s t) (hbusy : s.busy e = true) :
    KeepsEngine e s t := by
  rcases h with ⟨-, rfl⟩ | ⟨hidle, regs, regions, hframe⟩
  · exact s.drop_keepsEngine e' e
  · refine hframe.keepsEngine ?_
    rintro rfl
    simp [hbusy] at hidle

theorem hostAccess_keepsEngine {s t : State} {e : Eng} {acc : Access} (hbusy : s.busy e = true)
    (h : hostAccess acc s = .next t) : KeepsEngine e s t := by
  unfold hostAccess at h
  split at h
  · cases h
    exact .of_host_fields (.refl e _)
  · cases acc with
    | read n a =>
      cases h
      exact .of_host_fields (.refl e _)
    | write n a v =>
      rcases busWrite_effect h with rfl | ⟨e', heffect⟩
      · exact .of_host_fields (.refl e _)
      · exact .of_host_fields (heffect.keepsEngine hbusy)

theorem completeEngine_keepsEngine {e e' : Eng} (s : State) (hne : e' ≠ e) : KeepsEngine e' s (completeEngine e s) :=
  have ⟨_, _, h⟩ := exists_completeEngine_frame s e
  h.keepsEngine hne

/-- Everything a step can do to a BUSY engine: reset it, complete it, or keep it. -/
theorem step_of_busy {s t : State} {e : Eng} (hbusy : s.busy e = true) (h : step s = .next t) :
    (∃ rest, s.inbox = .reset :: rest) ∨
    (∃ rest, s.inbox = .complete e :: rest ∧ t = completeEngine e { s with inbox := rest }) ∨
    (s.inbox = [] ∧ firstBusy s = some e ∧ t = completeEngine e s) ∨ KeepsEngine e s t := by
  cases hq : s.inbox with
  | nil =>
    obtain ⟨e', hfirst⟩ : ∃ e', firstBusy s = some e' := Option.ne_none_iff_exists'.mp fun hnone => by
      simp [firstBusy_eq_none_iff.mp hnone e] at hbusy
    rw [step_firstBusy hq hfirst] at h
    cases h
    by_cases he : e = e'
    · exact .inr (.inr (.inl ⟨rfl, he ▸ hfirst, he ▸ rfl⟩))
    · exact .inr (.inr (.inr (completeEngine_keepsEngine s he)))
  | cons ev rest =>
    cases ev with
    | reset => exact .inl ⟨rest, rfl⟩
    | complete e' =>
      rw [step_complete hq] at h
      cases h
      by_cases he : e = e'
      · exact .inr (.inl ⟨rest, he ▸ rfl, he ▸ rfl⟩)
      · exact .inr (.inr (.inr (.of_host_fields (completeEngine_keepsEngine { s with inbox := rest } he))))
    | host acc =>
      rw [step_host hq] at h
      exact .inr (.inr (.inr (.of_host_fields (hostAccess_keepsEngine (s := { s with inbox := rest }) hbusy h))))

/-- Settles O31: of the ways a step treats a BUSY engine, the hypotheses leave the one that keeps it. -/
theorem busyEngineKeepsSnapshot : Obligations.BusyEngineKeepsSnapshot := by
  intro s t e hlegal hbusy hstep hreset hcomplete hidle
  obtain ⟨rest, hq⟩ | ⟨rest, hq, -⟩ | ⟨hq, hfirst, -⟩ | hkeeps := step_of_busy hbusy hstep
  · simp [hq] at hreset
  · simp [hq] at hcomplete
  · obtain ⟨e', hlt, hbusy'⟩ := hidle hq
    simp [(firstBusy_eq_some_iff.mp hfirst).2 e' hlt] at hbusy'
  · exact ⟨hkeeps.ctl, hkeeps.regs, hkeeps.mem hlegal⟩

theorem KeepsEngine.busy {s t : State} {e : Eng} (h : KeepsEngine e s t) : t.busy e = s.busy e := by
  rw [busy_eq, busy_eq]
  rcases h.ctl with hctl | hctl <;> rw [hctl]

/-! ## Reset -/

theorem State.resetBlock_readReg (s : State) (e : Eng) (r : Reg) :
    s.resetBlock.readReg e r = (State.resetWith s.params).readReg e r := rfl

theorem State.resetBlock_getReg (s : State) (e : Eng) (r : Reg) :
    s.resetBlock.getReg e r = (State.resetWith s.params).getReg e r := rfl

theorem State.resetBlock_ctl_get (s : State) (e : Eng) : s.resetBlock.ctl.get e = .reset :=
  State.resetWith_ctl_get s.params e

theorem State.resetBlock_busy (s : State) (e : Eng) : s.resetBlock.busy e = false := by
  rw [busy_eq, State.resetBlock_ctl_get]
  rfl

theorem State.resetBlock_irqLine (s : State) : s.resetBlock.irqLine = false :=
  Bool.eq_false_iff.mpr fun h => by
    obtain ⟨e, he⟩ := s.resetBlock.irqLine_iff.mp h
    simp [State.resetBlock_ctl_get, Ctl.irq, Ctl.reset] at he

theorem State.readReg_resetWith_of_rw (p : Params) {e : Eng} {r : Reg} (h : r ∈ rwRegs e) :
    (State.resetWith p).readReg e r = resetValue r := by
  rcases rwRegs_stored e r h with rfl | hstores
  · exact State.readReg_ctrl_resetWith p e
  · rw [State.readReg_stored _ hstores, State.getReg_resetWith, if_pos hstores]

theorem resetValue_eq (r : Reg) : resetValue r =
    if r = .grM then 5#32 else if r = .vqLevels then 16#32 else if r = .vqBs then 4#32
    else if r = .vqMaxIter then 20#32 else if r = .vqC then 1#32 else 0#32 := by
  cases r <;> rfl

theorem resetValue_outRegs : ∀ (e : Eng) (cmd : StartCmd), ∀ r ∈ outRegs e cmd, resetValue r = 0#32 := by
  intro e cmd
  cases e <;> cases cmd <;> decide

theorem State.getReg_resetWith_output (p : Params) {e : Eng} {cmd : StartCmd} {r : Reg} (h : r ∈ outRegs e cmd) :
    (State.resetWith p).getReg e r = 0#32 := by
  rw [State.getReg_resetWith, resetValue_outRegs e cmd r h, ite_self]

/-- Settles O26: the reset state by its fields, and the ends of a BUSY engine's operation by `step_of_busy`. -/
theorem resetAbandonsOperations : Obligations.ResetAbandonsOperations := by
  refine ⟨fun s rest hq => ?reset, fun s t e hbusy hstep hidle => ?ends⟩
  case reset =>
    refine ⟨State.resetBlock { s with inbox := rest }, step_inbox_cons s _ rest hq, rfl, State.resetBlock_ctl_get _,
      State.resetBlock_irqLine _, fun e => ⟨State.resetBlock_busy _ e, completeEngine_idle e _ (State.resetBlock_busy _ e)⟩,
      fun e r _ => rfl, fun e r hr => ?_, fun e cmd r hr => State.getReg_resetWith_output s.params hr, fun a => rfl⟩
    rw [State.resetBlock_readReg, ← resetValue_eq]
    exact State.readReg_resetWith_of_rw s.params hr
  case ends =>
    obtain hreset | hcomplete | ⟨hq, hfirst, ht⟩ | hkeeps := step_of_busy hbusy hstep
    · exact .inl hreset
    · exact .inr (.inl hcomplete)
    · exact .inr (.inr ⟨hq, (firstBusy_eq_some_iff.mp hfirst).2, ht⟩)
    · simp [hkeeps.busy, hbusy] at hidle

end Sys2Proof.Machine
end

section
/-! The STATUS and ERR_LOC invariants of one engine under every change of its control registers (10_state.md R110, R112), and
of the block under every step. -/
namespace Sys2Proof.Machine

section
variable {c : Ctl}

theorem StatusOk.drop (h : StatusOk c) : StatusOk c.drop := h

theorem StatusOk.irqEn (h : StatusOk c) (b : Bool) : StatusOk { c with irqEn := b } := h

theorem statusOk_clear (c : Ctl) : StatusOk c.clear := by simp [StatusOk, Ctl.clear]

theorem statusOk_started (c : Ctl) (cmd : StartCmd) : StatusOk (c.started cmd) := by simp [StatusOk, Ctl.started]

theorem statusOk_reset : StatusOk .reset := by simp [StatusOk, Ctl.reset]

theorem statusOk_illegal (h : c.busy = false) : StatusOk c.illegal := by
  have hbusy : c.illegal.busy = false := h
  rw [StatusOk, hbusy]
  simp [Ctl.illegal]

/-- A BUSY engine has neither DONE nor ERROR, so its error record is zero when DONE rises. -/
theorem StatusOk.succeeded (h : StatusOk c) (hbusy : c.busy = true) : StatusOk c.succeeded := by
  obtain ⟨hexcl, -, hrecord, -⟩ := h
  obtain ⟨-, herror⟩ := hexcl hbusy
  simp [StatusOk, Ctl.succeeded, Ctl.busy, herror, hrecord herror]

theorem StatusOk.failed (h : StatusOk c) (hbusy : c.busy = true) {x : Err} (hx : x.code ≠ .none) : StatusOk (c.failed x) := by
  obtain ⟨hexcl, -, -, -⟩ := h
  obtain ⟨hdone, -⟩ := hexcl hbusy
  simp [StatusOk, Ctl.failed, Ctl.busy, hdone, hx]

end

theorem busy_of_running {s : State} {e : Eng} {cmd : StartCmd} (h : (s.ctl.get e).running = some cmd) :
    (s.ctl.get e).busy = true := by rw [Ctl.busy, h, Option.isSome_some]

/-- The completion keeps the STATUS invariant of its engine: a success raises DONE alone, a failure records a code. -/
theorem StatusOk.finish {s : State} {e : Eng} {cmd : StartCmd} (h : StatusOk (s.ctl.get e))
    (hrunning : (s.ctl.get e).running = some cmd) : StatusOk ((s.finish e cmd (ideal e cmd s)).ctl.get e) := by
  cases hideal : ideal e cmd s with
  | ok o =>
    rw [State.finish, State.publish_ctl, PerEngine.get_set_same]
    exact h.succeeded (busy_of_running hrunning)
  | error x =>
    rw [State.finish, State.fail_ctl, PerEngine.get_set_same]
    exact h.failed (busy_of_running hrunning) (ideal_code hideal)

theorem State.StatusInv.of_others {s t : State} (h : s.StatusInv) (e : Eng)
    (hothers : ∀ e' : Eng, e' ≠ e → t.ctl.get e' = s.ctl.get e') (he : StatusOk (t.ctl.get e)) : t.StatusInv := by
  intro e'
  by_cases heq : e' = e
  · exact heq ▸ he
  · exact hothers e' heq ▸ h e'

theorem State.StatusInv.setCtl {s : State} (h : s.StatusInv) (e : Eng) {c : Ctl} (hc : StatusOk c) :
    (s.setCtl e c).StatusInv :=
  h.of_others e (s.setCtl_frame e c).ctl (by rwa [State.setCtl_ctl, PerEngine.get_set_same])

theorem State.StatusInv.of_ctl_eq {s t : State} (h : s.StatusInv) (heq : t.ctl = s.ctl) : t.StatusInv :=
  fun e => heq ▸ h e

theorem State.StatusInv.writeReg {s : State} (h : s.StatusInv) (e : Eng) (r : Reg) (v : Word) :
    (s.writeReg e r v).StatusInv := by
  by_cases hr : r = .ctrl
  · subst hr
    rw [State.writeReg_ctrl]
    exact h.setCtl e ((h e).irqEn _)
  · exact h.of_ctl_eq (s.writeReg_ctl e v hr)

theorem finish_ctl_ne {s : State} {e e' : Eng} (cmd : StartCmd) (res : Except Err Outputs) (h : e' ≠ e) :
    (s.finish e cmd res).ctl.get e' = s.ctl.get e' := by
  cases res <;> simp [State.finish, PerEngine.get_set_ne _ _ h]

theorem Change.statusInv {s t : State} (hc : Change s t) (h : s.StatusInv) : t.StatusInv := by
  cases hc with
  | same => exact h
  | read => exact h
  | drop e _ => exact h.setCtl e (h e).drop
  | illegal e hidle => exact h.setCtl e (statusOk_illegal hidle)
  | clear e _ => exact h.setCtl e (statusOk_clear _)
  | start e cmd _ _ =>
    refine h.of_others e (s.startFrame_started e cmd).frame.ctl ?_
    rw [State.startFrame_ctl, PerEngine.get_set_same]
    exact statusOk_started _ cmd
  | writeReg e r v _ => exact h.writeReg e r v
  | writeWord e r w v _ _ => exact h
  | complete e cmd hrunning =>
    exact h.of_others e (fun e' he' => finish_ctl_ne cmd _ he') ((h e).finish hrunning)
  | reset => exact fun e => State.resetBlock_ctl_get s e ▸ statusOk_reset

/-- Settles O28: every change keeps the STATUS invariants, and a step is a change. -/
theorem statusInvariantKept : Obligations.StatusInvariantKept := by
  intro s t hinv hstep
  obtain ⟨q, p, hc⟩ := step_change s t hstep
  exact hc.statusInv hinv

end Sys2Proof.Machine
end

section
/-! The published lengths and artifacts of one engine (10_state.md R113 to R117; 20_memory.md R214): what a START, a failure,
a success and a host write of an IDLE engine make of them. -/
namespace Sys2Proof.Machine

/-! ## Specified words -/

theorem State.word?_isSome_iff (s : State) (a : Nat) :
    (s.word? a).isSome ↔ ∀ i, i < 4 → (s.mem.get? (a + i)).isSome := by
  constructor
  · intro h i hi
    unfold State.word? at h
    split at h
    · next h0 h1 h2 h3 =>
      obtain rfl | rfl | rfl | rfl : i = 0 ∨ i = 1 ∨ i = 2 ∨ i = 3 := by omega
      all_goals simp [*]
    · cases h
  · intro h
    obtain ⟨b0, h0⟩ := Option.isSome_iff_exists.mp (h 0 (by decide))
    obtain ⟨b1, h1⟩ := Option.isSome_iff_exists.mp (h 1 (by decide))
    obtain ⟨b2, h2⟩ := Option.isSome_iff_exists.mp (h 2 (by decide))
    obtain ⟨b3, h3⟩ := Option.isSome_iff_exists.mp (h 3 (by decide))
    rw [Nat.add_zero] at h0
    simp [State.word?, h0, h1, h2, h3]

/-- A word write leaves every specified word specified. -/
theorem State.word?_isSome_setWord {s : State} {a b : Nat} {v : Word} (h : (s.word? b).isSome) :
    ((s.setMem (s.mem.setWord a v)).word? b).isSome := by
  rw [State.word?_isSome_iff] at h ⊢
  intro i hi
  rw [State.setMem_mem, Memory.get?_setWord]
  split
  · rfl
  · exact h i hi

theorem State.specified_iff (s : State) {e : Eng} {r : Region} {k : ElemKind} (hk : elemKind e r = some k) (n : Nat) :
    s.Specified e r n ↔ ∀ w : Nat, w < wordsFor k n → (s.word? (wordAddr e r w)).isSome := by
  rw [State.Specified, hk]

@[simp] theorem wordsFor_zero (k : ElemKind) : wordsFor k 0 = 0 := by cases k <;> rfl

theorem wordsFor_mono (k : ElemKind) {m n : Nat} (h : m ≤ n) : wordsFor k m ≤ wordsFor k n := by
  cases k <;> simp only [wordsFor] <;> omega

theorem State.specified_zero (s : State) (e : Eng) (r : Region) : s.Specified e r 0 := by
  unfold State.Specified
  split
  · simp
  · rfl

theorem State.Specified.of_word? {s t : State} {e : Eng} {r : Region} {n : Nat} (h : s.Specified e r n)
    (hn : n ≤ capacity s.params e r)
    (hword : ∀ w, w < s.params.words e r → (s.word? (wordAddr e r w)).isSome → (t.word? (wordAddr e r w)).isSome) :
    t.Specified e r n := by
  unfold State.Specified at h ⊢
  split at h
  · next hk => exact fun w hw => hword w (hw.trans_le (wordsFor_le_of_capacity hk hn)) (h w hw)
  · exact h

/-! ## The published part of an engine -/

/-- What an engine 0 to 7 has published: lengths within their capacities, and artifacts whose words are specified. -/
structure Published (s : State) (e : Eng) : Prop where
  outLen : e ≠ .vq → (s.getReg e .outLen).toNat ≤ capacity s.params e .r2 ∧
    s.Specified e .r2 (s.getReg e .outLen).toNat
  table : e = .hufe → (s.getReg e .auxLen).toNat ≤ capacity s.params e .r3 ∧
    s.Specified e .r3 (s.getReg e .auxLen).toNat
  nextCode : e = .lzwe ∨ e = .lzwd → (s.getReg e .lzwNextCode).toNat ≤ s.params.lzwDictCap

theorem lengthInv_and_publishedInv_iff {s : State} : s.LengthInv ∧ s.PublishedInv ↔ ∀ e, Published s e := by
  constructor
  · rintro ⟨⟨hout, haux, hlzwe, hlzwd⟩, hspec, htable⟩ e
    refine ⟨fun he => ⟨hout e he, hspec e he⟩, ?_, ?_⟩
    · rintro rfl
      exact ⟨haux, htable⟩
    · rintro (rfl | rfl)
      · exact hlzwe
      · exact hlzwd
  · intro h
    exact ⟨⟨fun e he => ((h e).outLen he).1, ((h .hufe).table rfl).1, (h .lzwe).nextCode (.inl rfl),
      (h .lzwd).nextCode (.inr rfl)⟩, fun e he => ((h e).outLen he).2, ((h .hufe).table rfl).2⟩

/-- The published registers of engines 0 to 7 are their output registers (40_commands.md R405). -/
theorem outLen_mem_outRegs {e : Eng} (cmd : StartCmd) (he : e ≠ .vq) : Reg.outLen ∈ outRegs e cmd := by
  cases e <;> first | exact .head _ | exact absurd rfl he

theorem auxLen_mem_outRegs (cmd : StartCmd) : Reg.auxLen ∈ outRegs .hufe cmd := .tail _ (.head _)

theorem lzwNextCode_mem_outRegs {e : Eng} (cmd : StartCmd) (he : e = .lzwe ∨ e = .lzwd) :
    Reg.lzwNextCode ∈ outRegs e cmd := by
  rcases he with rfl | rfl <;> exact .tail _ (.head _)

section
variable {s t : State} {e : Eng} {cmd : StartCmd}

/-- With the output registers 0 nothing is published. -/
theorem published_of_zero (h : ∀ r ∈ outRegs e cmd, s.getReg e r = 0#32) : Published s e where
  outLen he := by
    rw [h _ (outLen_mem_outRegs cmd he)]
    exact ⟨Nat.zero_le _, s.specified_zero e _⟩
  table he := by
    subst he
    rw [h _ (auxLen_mem_outRegs cmd)]
    exact ⟨Nat.zero_le _, s.specified_zero _ _⟩
  nextCode he := by
    rw [h _ (lzwNextCode_mem_outRegs cmd he)]
    exact Nat.zero_le _

/-- What leaves the output registers and every specified word alone keeps what is published. -/
theorem Published.of_unchanged (h : Published s e) (hparams : t.params = s.params)
    (hregs : e ≠ .vq → ∀ r ∈ outRegs e .start, t.getReg e r = s.getReg e r)
    (hwords : ∀ r w, w < s.params.words e r → (s.word? (wordAddr e r w)).isSome → (t.word? (wordAddr e r w)).isSome) :
    Published t e where
  outLen he := by
    obtain ⟨hle, hspec⟩ := h.outLen he
    rw [hregs he _ (outLen_mem_outRegs .start he), hparams]
    exact ⟨hle, hspec.of_word? hle (hwords _)⟩
  table he := by
    subst he
    obtain ⟨hle, hspec⟩ := h.table rfl
    rw [hregs (by decide) _ (auxLen_mem_outRegs .start), hparams]
    exact ⟨hle, hspec.of_word? hle (hwords _)⟩
  nextCode he := by
    have hvq : e ≠ .vq := by rcases he with rfl | rfl <;> decide
    rw [hregs hvq _ (lzwNextCode_mem_outRegs .start he), hparams]
    exact h.nextCode he

end

/-! ## What a success publishes -/

/-- An answer publishes a stream in region `r` whose length it gives in a register: within the region's capacity, and with
a word for every element. -/
def Outputs.HasStream (p : Params) (e : Eng) (o : Outputs) (r : Region) (lenReg : Reg) : Prop :=
  ∃ (n : Nat) (ws : List Word) (k : ElemKind), (r, ws) ∈ o.words ∧ (lenReg, toWord n) ∈ o.regs ∧ n ≤ capacity p e r ∧
    elemKind e r = some k ∧ ws.length = wordsFor k n

theorem toNat_toWord_le (n : Nat) : (toWord n).toNat ≤ n := (BitVec.toNat_ofNat n 32).trans_le (Nat.mod_le _ _)

/-- After the completion the stream's length register is within the capacity and its words are specified. -/
theorem Succeeded.hasStream {s t : State} {e : Eng} {o : Outputs} {r : Region} {lenReg : Reg}
    (h : Succeeded s t e o.regs o.words) (hstream : o.HasStream s.params e r lenReg) :
    (t.getReg e lenReg).toNat ≤ capacity t.params e r ∧ t.Specified e r (t.getReg e lenReg).toNat := by
  obtain ⟨n, ws, k, hwords, hreg, hcap, hk, hlen⟩ := hstream
  have hle : (t.getReg e lenReg).toNat ≤ n := h.outputs _ hreg ▸ toNat_toWord_le n
  refine ⟨h.frame.params ▸ hle.trans hcap, (t.specified_iff hk _).mpr fun w hw => ?_⟩
  have hlt : w < ws.length := hlen ▸ hw.trans_le (wordsFor_mono k hle)
  rw [h.words _ hwords w hlt, Option.isSome_some]

section
variable {s : State} {o : Outputs}

theorem idealRlee_hasStream (h : idealRlee s = .ok o) : o.HasStream s.params .rlee .r2 .outLen := by
  unfold idealRlee at h
  dsimp only at h
  repeat' split at h
  all_goals cases h
  next hcap => exact ⟨_, _, .word, .head _, .head _, not_lt.mp hcap, rfl, rfl⟩

theorem idealRled_hasStream (h : idealRled s = .ok o) : o.HasStream s.params .rled .r2 .outLen := by
  unfold idealRled at h
  dsimp only at h
  repeat' split at h
  all_goals cases h
  next hcap => exact ⟨_, _, .word, .head _, .head _, not_lt.mp hcap, rfl, expandRuns_length _⟩

theorem idealGre_hasStream (h : idealGre s = .ok o) : o.HasStream s.params .gre .r2 .outLen := by
  unfold idealGre at h
  dsimp only at h
  repeat' split at h
  all_goals cases h
  next hcap =>
    exact ⟨_, _, .bit, .head _, .head _, not_lt.mp hcap, rfl, by rw [packBits_length, grEncode_length]⟩

theorem idealGrd_hasStream (h : idealGrd s = .ok o) : o.HasStream s.params .grd .r2 .outLen := by
  unfold idealGrd at h
  dsimp only at h
  repeat' split at h
  all_goals cases h
  next hcap => exact ⟨_, _, .word, .head _, .head _, not_lt.mp hcap, rfl, rfl⟩

theorem idealHufe_hasStream (h : idealHufe s = .ok o) : o.HasStream s.params .hufe .r2 .outLen := by
  unfold idealHufe at h
  dsimp only at h
  repeat' split at h
  all_goals cases h
  next hcap => exact ⟨_, _, .bit, .head _, .head _, not_lt.mp hcap, rfl, packBits_length _⟩

theorem idealHufe_hasTable (h : idealHufe s = .ok o) : o.HasStream s.params .hufe .r3 .auxLen := by
  unfold idealHufe at h
  dsimp only at h
  repeat' split at h
  all_goals cases h
  next hcap _ => exact ⟨_, _, .entry, .tail _ (.head _), .tail _ (.head _), not_lt.mp hcap, rfl, packEntries_length _⟩

theorem idealHufd_hasStream (h : idealHufd s = .ok o) : o.HasStream s.params .hufd .r2 .outLen := by
  unfold idealHufd at h
  dsimp only at h
  repeat' split at h
  all_goals cases h
  next hcap => exact ⟨_, _, .word, .head _, .head _, not_lt.mp hcap, rfl, rfl⟩

theorem idealLzwe_hasStream (h : idealLzwe s = .ok o) : o.HasStream s.params .lzwe .r2 .outLen := by
  unfold idealLzwe at h
  dsimp only at h
  repeat' split at h
  all_goals cases h
  next hcap => exact ⟨_, _, .word, .head _, .head _, not_lt.mp hcap, rfl, List.length_map _⟩

theorem idealLzwd_hasStream (h : idealLzwd s = .ok o) : o.HasStream s.params .lzwd .r2 .outLen := by
  unfold idealLzwd at h
  dsimp only at h
  repeat' split at h
  all_goals cases h
  next hcap => exact ⟨_, _, .byte, .head _, .head _, not_lt.mp hcap, rfl, packBytes_length _⟩

/-- An LZW engine's published next code is within LZW_DICT_CAP (44_lzw.md R802, R813, R826). -/
def Outputs.HasNextCode (p : Params) (o : Outputs) : Prop :=
  ∃ n : Nat, (Reg.lzwNextCode, toWord n) ∈ o.regs ∧ n ≤ p.lzwDictCap

theorem idealLzwe_hasNextCode (h : idealLzwe s = .ok o) : o.HasNextCode s.params := by
  unfold idealLzwe at h
  dsimp only at h
  repeat' split at h
  all_goals cases h
  next hcap _ => exact ⟨_, .tail _ (.head _), not_lt.mp hcap⟩

theorem idealLzwd_hasNextCode (h : idealLzwd s = .ok o) : o.HasNextCode s.params := by
  unfold idealLzwd at h
  dsimp only at h
  repeat' split at h
  all_goals cases h
  next hcap _ => exact ⟨_, .tail _ (.head _), not_lt.mp hcap⟩

theorem ideal_hasStream {e : Eng} {cmd : StartCmd} (he : e ≠ .vq) (h : ideal e cmd s = .ok o) :
    o.HasStream s.params e .r2 .outLen := by
  cases e with
  | rlee => exact idealRlee_hasStream h
  | rled => exact idealRled_hasStream h
  | gre => exact idealGre_hasStream h
  | grd => exact idealGrd_hasStream h
  | hufe => exact idealHufe_hasStream h
  | hufd => exact idealHufd_hasStream h
  | lzwe => exact idealLzwe_hasStream h
  | lzwd => exact idealLzwd_hasStream h
  | vq => exact absurd rfl he

theorem published_of_success {e : Eng} {cmd : StartCmd} (hlegal : s.params.legal = true) (h : ideal e cmd s = .ok o) :
    Published (s.publish e cmd o) e := by
  have hsucc := State.publish_succeeded hlegal (ideal_fits h)
  refine ⟨fun he => hsucc.hasStream (ideal_hasStream he h), ?_, fun he => ?_⟩
  · rintro rfl
    exact hsucc.hasStream (idealHufe_hasTable h)
  · obtain ⟨n, hreg, hcap⟩ : o.HasNextCode s.params := by
      rcases he with rfl | rfl
      · exact idealLzwe_hasNextCode h
      · exact idealLzwd_hasNextCode h
    rw [hsucc.outputs _ hreg, State.publish_params]
    exact (toNat_toWord_le n).trans hcap

end

end Sys2Proof.Machine
end

section
/-! The invariant of the whole block: that of the memory, and an invariant of each engine, under every change (10_state.md;
20_memory.md, Engine accesses; 40_commands.md, START). -/
namespace Sys2Proof.Machine

/-! ## Memory -/

section
variable {s : State}

theorem State.MemInv.writeWord (h : s.MemInv) {e : Eng} {r : Region} {w : Nat} (v : Word) (hw : w < s.params.words e r) :
    (s.setMem (s.mem.setWord (wordAddr e r w) v)).MemInv := by
  obtain ⟨hwf, hmapped⟩ := h
  refine ⟨Memory.wf_setWord _ _ _ hwf, fun c hc => ?_⟩
  rcases Memory.mem_setWord _ _ _ c hc with ⟨i, hi, hci⟩ | hc
  · exact ⟨e, r, w, i, hw, hi, hci⟩
  · exact hmapped c hc

theorem State.MemInv.forgetRegions (h : s.MemInv) (e : Eng) (rs : List Region) : (s.forgetRegions e rs).MemInv := by
  obtain ⟨hwf, hmapped⟩ := h
  refine ⟨s.wf_forgetRegions e rs hwf, fun c hc => ?_⟩
  rw [State.forgetRegions_params]
  exact hmapped c (s.mem_forgetRegions e rs c hc)

theorem State.MemInv.writeStreams (h : s.MemInv) {e : Eng} {l : List (Region × List Word)}
    (hlen : ∀ x ∈ l, x.2.length ≤ s.params.words e x.1) : (s.writeStreams e l).MemInv := by
  obtain ⟨hwf, hmapped⟩ := h
  refine ⟨s.wf_writeStreams e l hwf, fun c hc => ?_⟩
  rw [State.writeStreams_params]
  rcases s.mem_writeStreams e l c hc with ⟨x, hx, j, i, hj, hi, hci⟩ | hc
  · exact ⟨e, x.1, j, i, hj.trans_le (hlen x hx), hi, hci⟩
  · exact hmapped c hc

/-- The invariant of the memory depends on the memory and the parameters only. -/
theorem State.MemInv.congr {t : State} (h : s.MemInv) (hmem : t.mem = s.mem) (hparams : t.params = s.params) : t.MemInv := by
  rw [State.MemInv, hmem, hparams]
  exact h

theorem State.writeReg_mem (s : State) (e : Eng) (r : Reg) (v : Word) : (s.writeReg e r v).mem = s.mem := by
  unfold State.writeReg
  split
  · split <;> simp
  · rfl

theorem Change.memInv {t : State} (hc : Change s t) (h : s.MemInv) : t.MemInv := by
  cases hc with
  | same => exact h
  | read => exact h
  | drop e _ => exact h
  | illegal e _ => exact h
  | clear e _ => exact h
  | start e cmd _ _ =>
    exact (h.forgetRegions e (outRegions e cmd)).congr (s.startFrame_mem e cmd) (by simp)
  | writeReg e r v _ => exact h.congr (s.writeReg_mem e r v) (by simp)
  | writeWord e r w v _ hw => exact h.writeWord v hw
  | complete e cmd _ =>
    have hforget := h.forgetRegions e (outRegions e cmd)
    cases hideal : ideal e cmd s with
    | ok o =>
      refine (hforget.writeStreams (l := o.words) (e := e) fun x hx => ?_).congr (s.publish_mem e cmd o) (by simp [State.finish])
      rw [State.forgetRegions_params]
      exact (ideal_fits hideal).lengths x hx
    | error x => exact hforget.congr (s.fail_mem e cmd x) (by simp [State.finish])
  | reset => exact ⟨List.Pairwise.nil, fun c hc => nomatch hc⟩

end

/-! ## One engine -/

/-- While BUSY, an engine's output registers are 0 and its output regions unspecified (40_commands.md R405). -/
def OutputsBlank (s : State) (e : Eng) : Prop :=
  ∀ cmd : StartCmd, (s.ctl.get e).running = some cmd →
    (cmd = .startDec → e = .vq) ∧ (∀ r ∈ outRegs e cmd, s.getReg e r = 0#32) ∧
    ∀ r ∈ outRegions e cmd, ∀ w i : Nat, w < s.params.words e r → i < 4 → s.mem.get? (wordAddr e r w + i) = none

/-- The invariant of one engine, apart from its STATUS. -/
structure EngineInv (s : State) (e : Eng) : Prop where
  blank : OutputsBlank s e
  published : Published s e

theorem State.inv_iff {s : State} :
    s.Inv ↔ s.params.legal = true ∧ s.StatusInv ∧ s.MemInv ∧ ∀ e, EngineInv s e := by
  constructor
  · rintro ⟨hlegal, hstatus, hmem, hbusy, hlengths, hpublished⟩
    exact ⟨hlegal, hstatus, hmem, fun e => ⟨hbusy e, lengthInv_and_publishedInv_iff.mp ⟨hlengths, hpublished⟩ e⟩⟩
  · rintro ⟨hlegal, hstatus, hmem, hengines⟩
    obtain ⟨hlengths, hpublished⟩ := lengthInv_and_publishedInv_iff.mpr fun e => (hengines e).published
    exact ⟨hlegal, hstatus, hmem, fun e => (hengines e).blank, hlengths, hpublished⟩

section
variable {s t : State} {e : Eng}

theorem outputsBlank_of_idle (h : s.busy e = false) : OutputsBlank s e := fun cmd hrunning => by
  simp [busy_eq, hrunning] at h

/-- An engine whose part of the block is as before keeps its invariant; DROPPED and the other STATUS fields do not matter. -/
theorem EngineInv.of_unchanged (h : EngineInv s e) (hlegal : s.params.legal = true) (hparams : t.params = s.params)
    (hrunning : (t.ctl.get e).running = (s.ctl.get e).running) (hregs : ∀ r : Reg, t.getReg e r = s.getReg e r)
    (hmem : ∀ a : Nat, InWindow e a → t.mem.get? a = s.mem.get? a) : EngineInv t e where
  blank cmd hcmd := by
    obtain ⟨hdec, hzero, hnone⟩ := h.blank cmd (hrunning ▸ hcmd)
    refine ⟨hdec, fun r hr => (hregs r).trans (hzero r hr), fun r hr w i hw hi => ?_⟩
    rw [hparams] at hw
    rw [hmem _ (inWindow_wordAddr e r (hw.trans_le (legal_words hlegal e r)) hi)]
    exact hnone r hr w i hw hi
  published := h.published.of_unchanged hparams (fun _ r _ => hregs r) fun r w hw hsome => by
    have hwindow (i : Nat) (hi : i < 4) : t.mem.get? (wordAddr e r w + i) = s.mem.get? (wordAddr e r w + i) :=
      hmem _ (inWindow_wordAddr e r (hw.trans_le (legal_words hlegal e r)) hi)
    rwa [State.word?_congr hwindow]

/-- An IDLE engine keeps its invariant when its output registers and its bytes stay. -/
theorem EngineInv.of_idle (h : EngineInv s e) (hidle : t.busy e = false) (hparams : t.params = s.params)
    (hregs : e ≠ .vq → ∀ r ∈ outRegs e .start, t.getReg e r = s.getReg e r) (hmem : t.mem = s.mem) : EngineInv t e where
  blank := outputsBlank_of_idle hidle
  published := h.published.of_unchanged hparams hregs fun r w _ hsome => by
    rwa [State.word?_congr (s := s) (t := t) fun i _ => by rw [hmem]]

/-- With every other engine framed, the invariant of the block needs that of the engine changed only. -/
theorem State.Inv.of_frame (h : s.Inv) (hc : Change s t) {regs : List Reg} {regions : List Region}
    (hframe : Frame s t e regs regions) (he : EngineInv t e) : t.Inv := by
  obtain ⟨hlegal, hstatus, hmem, hengines⟩ := State.inv_iff.mp h
  refine State.inv_iff.mpr ⟨hframe.params ▸ hlegal, hc.statusInv hstatus, hc.memInv hmem, fun e' => ?_⟩
  by_cases heq : e' = e
  · exact heq ▸ he
  · exact (hengines e').of_unchanged hlegal hframe.params (by rw [hframe.ctl e' heq]) (hframe.getReg_ne heq)
      fun a => hframe.get?_ne hlegal heq

/-- The invariant does not see the queue, the response or the draw counter. -/
theorem State.Inv.with_host_fields (h : s.Inv) (q : List Event) (p : PortResponse) (d : Nat) :
    State.Inv { s with inbox := q, port := p, draws := d } :=
  ⟨h.legal, h.status, h.mem, h.busy, h.lengths, h.published⟩

end

/-! ## The changes -/

section
variable {s : State} {e : Eng}

theorem engineInv_setCtl_idle (h : EngineInv s e) {c : Ctl} (hidle : c.busy = false) : EngineInv (s.setCtl e c) e :=
  h.of_idle (by rwa [State.busy, State.setCtl_ctl, PerEngine.get_set_same]) rfl (fun _ r _ => s.getReg_setCtl e e c r) rfl

theorem engineInv_startFrame (cmd : StartCmd) (hdec : cmd = .startDec → e = .vq) : EngineInv (s.startFrame e cmd) e := by
  have hstart := s.startFrame_started e cmd
  refine ⟨fun cmd' hcmd' => ?_, published_of_zero hstart.outputs⟩
  rw [hstart.ctl, Option.some_inj] at hcmd'
  subst hcmd'
  refine ⟨hdec, hstart.outputs, fun r hr w i hw hi => hstart.unspecified r hr _ (inRegion_wordAddr e ?_ hi)⟩
  rwa [State.startFrame_params] at hw

/-- The host may write no output register of engines 0 to 7. -/
theorem not_hostWritable_outRegs : ∀ e : Eng, e ≠ .vq → ∀ r ∈ outRegs e .start, hostWritable e r = false := by
  intro e
  cases e <;> decide

theorem State.writeReg_getReg_output (s : State) (r : Reg) (v : Word) (he : e ≠ .vq) :
    ∀ r' ∈ outRegs e .start, (s.writeReg e r v).getReg e r' = s.getReg e r' := by
  intro r' hr'
  by_cases hr : r = r'
  · subst hr
    rw [s.writeReg_of_readOnly v (not_hostWritable_outRegs e he r hr')]
  · refine (s.writeReg_frame e r v).regs e r' fun hmem => hr (List.mem_singleton.mp hmem.2).symm

theorem State.writeReg_busy (s : State) (e : Eng) (r : Reg) (v : Word) : (s.writeReg e r v).busy e = s.busy e := by
  by_cases hr : r = .ctrl
  · subst hr
    rw [State.writeReg_ctrl, State.busy, State.setCtl_ctl, PerEngine.get_set_same]
    rfl
  · rw [State.busy, s.writeReg_ctl e v hr, State.busy]

theorem engineInv_writeReg (h : EngineInv s e) (hidle : s.busy e = false) (r : Reg) (v : Word) :
    EngineInv (s.writeReg e r v) e :=
  h.of_idle ((s.writeReg_busy e r v).trans hidle) (s.writeReg_params e r v) (s.writeReg_getReg_output r v)
    (s.writeReg_mem e r v)

theorem engineInv_writeWord (h : EngineInv s e) (hidle : s.busy e = false) (a : Nat) (v : Word) :
    EngineInv (s.setMem (s.mem.setWord a v)) e :=
  ⟨outputsBlank_of_idle hidle, h.published.of_unchanged rfl (fun _ r _ => s.getReg_setMem _ e r) fun _ _ _ =>
    State.word?_isSome_setWord⟩

theorem engineInv_fail (cmd : StartCmd) (x : Err) : EngineInv (s.fail e cmd x) e := by
  have hfail := s.fail_failedWith e cmd x
  exact ⟨outputsBlank_of_idle (by rw [busy_eq, hfail.ctl, Option.isSome_none]), published_of_zero hfail.outputs⟩

theorem engineInv_publish {cmd : StartCmd} {o : Outputs} (hlegal : s.params.legal = true) (h : ideal e cmd s = .ok o) :
    EngineInv (s.publish e cmd o) e := by
  have hsucc := State.publish_succeeded hlegal (ideal_fits h)
  exact ⟨outputsBlank_of_idle (by rw [busy_eq, hsucc.ctl, Option.isSome_none]), published_of_success hlegal h⟩

end

theorem inv_resetWith {p : Params} (h : p.legal = true) : (State.resetWith p).Inv := by
  refine State.inv_iff.mpr ⟨h, fun e => State.resetWith_ctl_get p e ▸ statusOk_reset, ⟨List.Pairwise.nil, nofun⟩,
    fun e => ⟨outputsBlank_of_idle ?_, published_of_zero (cmd := .start) fun r => State.getReg_resetWith_output p⟩⟩
  rw [busy_eq, State.resetWith_ctl_get]
  rfl

theorem legal_suggested : Config.suggested.legal = true := by decide

/-- Settles O27: at reset nothing runs, nothing is listed and every output register is 0. -/
theorem resetSatisfiesInv : Obligations.ResetSatisfiesInv := ⟨fun _ => inv_resetWith, inv_resetWith legal_suggested⟩

theorem Change.inv {s t : State} (hc : Change s t) (h : s.Inv) : t.Inv := by
  obtain ⟨hlegal, -, -, hengines⟩ := State.inv_iff.mp h
  cases hc with
  | same => exact h
  | read => exact h.with_host_fields _ _ _
  | drop e hbusy =>
    refine h.of_frame (.drop e hbusy) (s.setCtl_frame e _) ((hengines e).of_unchanged hlegal rfl ?_ (s.drop_getReg e e)
      fun _ _ => rfl)
    rw [State.drop_ctl, PerEngine.get_set_same, Ctl.drop]
  | illegal e hidle => exact h.of_frame (.illegal e hidle) (s.setCtl_frame e _) (engineInv_setCtl_idle (hengines e) hidle)
  | clear e hidle => exact h.of_frame (.clear e hidle) (s.setCtl_frame e _) (engineInv_setCtl_idle (hengines e) hidle)
  | start e cmd hidle hdec =>
    exact h.of_frame (.start e cmd hidle hdec) (s.startFrame_started e cmd).frame (engineInv_startFrame cmd hdec)
  | writeReg e r v hidle =>
    exact h.of_frame (.writeReg e r v hidle) (s.writeReg_frame e r v) (engineInv_writeReg (hengines e) hidle r v)
  | writeWord e r w v hidle hw =>
    exact h.of_frame (.writeWord e r w v hidle hw) (s.writeWord_frame e v hw) (engineInv_writeWord (hengines e) hidle _ v)
  | complete e cmd hrunning =>
    have hchange := Change.complete e cmd hrunning
    cases hideal : ideal e cmd s with
    | ok o =>
      rw [hideal] at hchange
      exact h.of_frame hchange (State.publish_frame (ideal_fits hideal)) (engineInv_publish hlegal hideal)
    | error x =>
      rw [hideal] at hchange
      exact h.of_frame hchange (s.fail_failedWith e cmd x).frame (engineInv_fail cmd x)
  | reset => exact (inv_resetWith hlegal).with_host_fields _ _ _

/-- Settles O29: every change keeps the invariant, and a step is a change apart from the queue and the response. -/
theorem blockInvariantKept : Obligations.BlockInvariantKept := by
  intro s t hinv hstep
  obtain ⟨q, p, hc⟩ := step_change s t hstep
  exact hc.inv (hinv.with_host_fields q p s.draws)

end Sys2Proof.Machine
end

section
/-! Isolation of the engines (20_memory.md R213; 00_scope.md): what an engine reads is in its own registers and window, so its
ideal function and its completion agree on two states that agree there. -/
namespace Sys2Proof.Machine

/-! ## Registers -/

theorem LenRegs.ext_get {x y : LenRegs} (h : ∀ r, x.get r = y.get r) : x = y := by
  cases x
  cases y
  exact congrArg₂ LenRegs.mk (h .inLen) (h .outLen)

theorem GrRegs.ext_get {x y : GrRegs} (h : ∀ r, x.get r = y.get r) : x = y := by
  cases x
  cases y
  obtain rfl := h .inLen
  obtain rfl := h .outLen
  obtain rfl := h .grM
  rfl

theorem HufRegs.ext_get {x y : HufRegs} (h : ∀ r, x.get r = y.get r) : x = y := by
  cases x
  cases y
  obtain rfl := h .inLen
  obtain rfl := h .outLen
  obtain rfl := h .auxLen
  rfl

theorem LzwRegs.ext_get {x y : LzwRegs} (h : ∀ r, x.get r = y.get r) : x = y := by
  cases x
  cases y
  obtain rfl := h .inLen
  obtain rfl := h .outLen
  obtain rfl := h .lzwNextCode
  rfl

/-- VQ_INIT_SRC is read as its stored bit under zeros; every other register is read as it is stored. -/
theorem VqRegs.ext_get {x y : VqRegs} (h : ∀ r, x.get r = y.get r) : x = y := by
  have hsrc : x.initSrc = y.initSrc := by
    have hbit := congrArg (BitVec.getLsbD · 0) (h .vqInitSrc)
    simp only [VqRegs.get, BitVec.getLsbD_append] at hbit
    simpa using hbit
  cases x
  cases y
  obtain rfl : _ = _ := hsrc
  obtain rfl := h .vqLevels
  obtain rfl := h .vqBs
  obtain rfl := h .vqMaxIter
  obtain rfl := h .vqH
  obtain rfl := h .vqW
  obtain rfl := h .vqC
  obtain rfl := h .vqTh
  obtain rfl := h .vqTw
  obtain rfl := h .vqK
  obtain rfl := h .vqIters
  obtain rfl := h .vqNblk
  obtain rfl := h .vqSseLo
  obtain rfl := h .vqSseHi
  obtain rfl := h .vqNsamp
  rfl

/-! ## Regions -/

section
variable {s t : State} {e : Eng} {r : Region} {n : Nat}

theorem AgreeOn.wordAt (h : AgreeOn e s t) {w : Nat} (hw : w < 2 ^ 20) :
    t.wordAt (wordAddr e r w) = s.wordAt (wordAddr e r w) := by
  have hbyte (i : Nat) (hi : i < 4) : t.byteAt (wordAddr e r w + i) = s.byteAt (wordAddr e r w + i) := by
    rw [State.byteAt, State.byteAt, h.draws, h.mem _ (inWindow_wordAddr e r hw hi)]
  rw [State.wordAt, State.wordAt, hbyte 1 (by decide), hbyte 2 (by decide), hbyte 3 (by decide)]
  exact congrArg (wordOfBytes · _ _ _) (hbyte 0 (by decide))

variable (h : AgreeOn e s t) (hlegal : s.params.legal = true) (hn : n ≤ capacity s.params e r)
include h hlegal hn

theorem AgreeOn.inWords (hk : elemKind e r = some .word) : t.inWords e r n = s.inWords e r n := by
  have hwords := legal_words hlegal e r
  simp only [capacity, hk] at hn
  exact List.map_congr_left fun j hj => h.wordAt (by have := List.mem_range.mp hj; omega)

theorem AgreeOn.inBytes (hk : elemKind e r = some .byte) : t.inBytes e r n = s.inBytes e r n := by
  have hwords := legal_words hlegal e r
  simp only [capacity, hk] at hn
  refine List.map_congr_left fun j hj => ?_
  rw [State.elemByte, State.elemByte, h.wordAt (by have := List.mem_range.mp hj; omega)]

theorem AgreeOn.inBits (hk : elemKind e r = some .bit) : t.inBits e r n = s.inBits e r n := by
  have hwords := legal_words hlegal e r
  simp only [capacity, hk] at hn
  refine List.map_congr_left fun j hj => ?_
  rw [State.elemBit, State.elemBit, h.wordAt (by have := List.mem_range.mp hj; omega)]

theorem AgreeOn.inEntries (hk : elemKind e r = some .entry) : t.inEntries e r n = s.inEntries e r n := by
  have hwords := legal_words hlegal e r
  simp only [capacity, hk] at hn
  refine List.map_congr_left fun j hj => ?_
  have hj := List.mem_range.mp hj
  rw [State.elemEntry, State.elemEntry, h.wordAt (by omega), h.wordAt (by omega)]

end

/-! ## The ideal functions -/

theorem vqShapeError_none_capacities {s : State} {g : VqGeom} (h : vqShapeError s g = none) :
    g.n ≤ capacity s.params .vq .r3 ∧ s.vq.k.toNat * g.d ≤ capacity s.params .vq .r2 := by
  unfold vqShapeError at h
  repeat' split at h
  all_goals cases h
  next hn hk => exact ⟨not_lt.mp hn, not_lt.mp hk⟩

section
variable {s t : State} (hlegal : s.params.legal = true)
include hlegal

theorem AgreeOn.idealRlee (h : AgreeOn .rlee s t) : idealRlee t = idealRlee s := by
  have hregs : t.rlee = s.rlee := LenRegs.ext_get h.regs
  simp only [Machine.idealRlee, hregs, h.params]
  split
  · rfl
  · next hin => rw [h.inWords hlegal (not_lt.mp hin) rfl]

theorem AgreeOn.idealRled (h : AgreeOn .rled s t) : idealRled t = idealRled s := by
  have hregs : t.rled = s.rled := LenRegs.ext_get h.regs
  simp only [Machine.idealRled, hregs, h.params]
  split
  · rfl
  · next hin => rw [h.inWords hlegal (not_lt.mp hin) rfl]

theorem AgreeOn.idealGre (h : AgreeOn .gre s t) : idealGre t = idealGre s := by
  have hregs : t.gre = s.gre := GrRegs.ext_get h.regs
  simp only [Machine.idealGre, hregs, h.params]
  split
  · rfl
  · next hin => rw [h.inWords hlegal (not_lt.mp hin) rfl]

theorem AgreeOn.idealGrd (h : AgreeOn .grd s t) : idealGrd t = idealGrd s := by
  have hregs : t.grd = s.grd := GrRegs.ext_get h.regs
  simp only [Machine.idealGrd, hregs, h.params]
  split
  · rfl
  · next hin => rw [h.inBits hlegal (not_lt.mp hin) rfl]

theorem AgreeOn.idealHufe (h : AgreeOn .hufe s t) : idealHufe t = idealHufe s := by
  have hregs : t.hufe = s.hufe := HufRegs.ext_get h.regs
  simp only [Machine.idealHufe, hregs, h.params]
  split
  · rfl
  · next hin => rw [h.inWords hlegal (not_lt.mp hin) rfl]

theorem AgreeOn.idealHufd (h : AgreeOn .hufd s t) : idealHufd t = idealHufd s := by
  have hregs : t.hufd = s.hufd := HufRegs.ext_get h.regs
  simp only [Machine.idealHufd, hregs, h.params]
  split
  · rfl
  · next hin =>
    split
    · rfl
    · next haux => rw [h.inBits hlegal (not_lt.mp hin) rfl, h.inEntries hlegal (not_lt.mp haux) rfl]

theorem AgreeOn.idealLzwe (h : AgreeOn .lzwe s t) : idealLzwe t = idealLzwe s := by
  have hregs : t.lzwe = s.lzwe := LzwRegs.ext_get h.regs
  simp only [Machine.idealLzwe, hregs, h.params]
  split
  · rfl
  · next hin => rw [h.inBytes hlegal (not_lt.mp hin) rfl]

theorem AgreeOn.idealLzwd (h : AgreeOn .lzwd s t) : idealLzwd t = idealLzwd s := by
  have hregs : t.lzwd = s.lzwd := LzwRegs.ext_get h.regs
  simp only [Machine.idealLzwd, hregs, h.params]
  split
  · rfl
  · next hin => rw [h.inWords hlegal (not_lt.mp hin) rfl]

theorem AgreeOn.vqInitial (h : AgreeOn .vq s t) (n k : Nat) : vqInitial t n k = vqInitial s n k := by
  have hregs : t.vq = s.vq := VqRegs.ext_get h.regs
  simp only [Machine.vqInitial, hregs, h.params, h.draws]
  split
  · split
    · rfl
    · next hk => rw [h.inWords hlegal (not_lt.mp hk) rfl]
  · rfl

theorem AgreeOn.idealVqEnc (h : AgreeOn .vq s t) : idealVqEnc t = idealVqEnc s := by
  have hregs : t.vq = s.vq := VqRegs.ext_get h.regs
  have hgeom : vqEncGeom t = vqEncGeom s := by rw [vqEncGeom, hregs, vqEncGeom]
  have hconf : vqConfigError t true = vqConfigError s true := by simp only [vqConfigError, hregs, h.params]
  have hcount : vqK t (vqEncGeom s) = vqK s (vqEncGeom s) := by rw [vqK, hregs, vqK]
  simp only [Machine.idealVqEnc, hconf, hgeom, hcount, h.vqInitial hlegal, h.params]
  cases hnone : vqConfigError s true with
  | some x => rfl
  | none =>
    obtain ⟨-, -, -, hraster⟩ := vqConfigError_eq_none_iff.mp hnone
    have hbytes : t.inBytes .vq .r1 (vqEncGeom s).bytes = s.inBytes .vq .r1 (vqEncGeom s).bytes :=
      h.inBytes hlegal hraster rfl
    rw [hbytes, hregs]

theorem AgreeOn.idealVqDec (h : AgreeOn .vq s t) : idealVqDec t = idealVqDec s := by
  have hregs : t.vq = s.vq := VqRegs.ext_get h.regs
  have hgeom : vqDecGeom t = vqDecGeom s := by rw [vqDecGeom, hregs, vqDecGeom]
  have hconf : vqConfigError t false = vqConfigError s false := by simp only [vqConfigError, hregs, h.params]
  have hshape : vqShapeError t (vqDecGeom s) = vqShapeError s (vqDecGeom s) := by
    simp only [vqShapeError, hregs, h.params]
  simp only [Machine.idealVqDec, hconf, hgeom, hshape]
  cases vqConfigError s false with
  | some x => rfl
  | none =>
    cases hnone : vqShapeError s (vqDecGeom s) with
    | some x => rfl
    | none =>
      obtain ⟨hn, hk⟩ := vqShapeError_none_capacities hnone
      rw [h.inWords hlegal hn rfl, hregs, h.inBytes hlegal hk rfl]

/-- An ideal function reads its own engine's part of the state only. -/
theorem AgreeOn.ideal {e : Eng} (h : AgreeOn e s t) (cmd : StartCmd) : ideal e cmd t = ideal e cmd s := by
  cases e with
  | rlee => exact h.idealRlee hlegal
  | rled => exact h.idealRled hlegal
  | gre => exact h.idealGre hlegal
  | grd => exact h.idealGrd hlegal
  | hufe => exact h.idealHufe hlegal
  | hufd => exact h.idealHufd hlegal
  | lzwe => exact h.idealLzwe hlegal
  | lzwd => exact h.idealLzwd hlegal
  | vq =>
    cases cmd with
    | start => exact h.idealVqEnc hlegal
    | startDec => exact h.idealVqDec hlegal

end

/-! ## The completion -/

/-- A byte after stream writes depends on that byte before them only. -/
theorem State.get?_writeStreams_congr {s t : State} (e : Eng) (l : List (Region × List Word)) {a : Nat}
    (h : t.mem.get? a = s.mem.get? a) : (t.writeStreams e l).mem.get? a = (s.writeStreams e l).mem.get? a := by
  induction l generalizing s t with
  | nil => exact h
  | cons x l ih => exact ih (by simp only [State.setMem_mem, Memory.get?_setWords, h])

section
variable {s t : State} {e : Eng}

theorem AgreeOn.publish (h : AgreeOn e s t) (cmd : StartCmd) (o : Outputs) :
    AgreeOn e (s.publish e cmd o) (t.publish e cmd o) where
  params := by rw [State.publish_params, State.publish_params, h.params]
  draws := by rw [State.publish_draws, State.publish_draws, h.draws]
  ctl := by rw [State.publish_ctl, State.publish_ctl, PerEngine.get_set_same, PerEngine.get_set_same, h.ctl]
  regs r := by
    rw [State.publish_getReg, State.publish_getReg, if_pos rfl, if_pos rfl]
    exact State.setRegs_getReg_congr e o.regs r t s h.regs
  mem a ha := by
    rw [State.publish_mem, State.publish_mem]
    refine State.get?_writeStreams_congr e o.words ?_
    rw [State.get?_forgetRegions, State.get?_forgetRegions, h.params, h.mem a ha]

theorem AgreeOn.fail (h : AgreeOn e s t) (cmd : StartCmd) (x : Err) : AgreeOn e (s.fail e cmd x) (t.fail e cmd x) where
  params := by rw [State.fail_params, State.fail_params, h.params]
  draws := by rw [State.fail_draws, State.fail_draws, h.draws]
  ctl := by rw [State.fail_ctl, State.fail_ctl, PerEngine.get_set_same, PerEngine.get_set_same, h.ctl]
  regs r := by rw [State.fail_getReg, State.fail_getReg, h.regs r]
  mem a ha := by rw [State.fail_get?, State.fail_get?, h.params, h.mem a ha]

theorem AgreeOn.completeEngine (hlegal : s.params.legal = true) (h : AgreeOn e s t) :
    AgreeOn e (completeEngine e s) (completeEngine e t) := by
  cases hrunning : (s.ctl.get e).running with
  | none =>
    rw [completeEngine_idle e s (by rw [busy_eq, hrunning, Option.isSome_none]),
      completeEngine_idle e t (by rw [busy_eq, h.ctl, hrunning, Option.isSome_none])]
    exact h
  | some cmd =>
    have hrunning' : (t.ctl.get e).running = some cmd := h.ctl ▸ hrunning
    cases hideal : Machine.ideal e cmd s with
    | ok o =>
      rw [completeEngine_ok hrunning hideal, completeEngine_ok hrunning' ((h.ideal hlegal cmd).trans hideal)]
      exact h.publish cmd o
    | error x =>
      rw [completeEngine_error hrunning hideal, completeEngine_error hrunning' ((h.ideal hlegal cmd).trans hideal)]
      exact h.fail cmd x

end

/-- Settles O32: the ideal function reads its engine's part only, and the completion's frame leaves every other engine. -/
theorem engineIsolation : Obligations.EngineIsolation := by
  refine ⟨fun s t e hlegal h => h.completeEngine hlegal, fun s e e' hlegal hne => ?_⟩
  obtain ⟨regs, regions, hframe⟩ := exists_completeEngine_frame s e
  exact ⟨hframe.ctl e' hne, hframe.getReg_ne hne, fun a => hframe.get?_ne hlegal hne⟩

end Sys2Proof.Machine
end

section
/-! Streams packed into words (20_memory.md R209 to R212; 30_encoding.md R311): a region that holds one reads back as its
elements, and the padding bits are 0. -/
namespace Sys2Proof.Machine

theorem toNat_toWord {n : Nat} (h : n < 2 ^ 32) : (toWord n).toNat = n := by
  rw [toWord, BitVec.toNat_ofNat, Nat.mod_eq_of_lt h]

theorem toWord_toNat (w : Word) : toWord w.toNat = w := by rw [toWord, BitVec.ofNat_toNat, BitVec.setWidth_eq]

section
variable {s : State} {e : Eng} {r : Region} {ws : List Word}

theorem State.Holds.wordAt (h : s.Holds e r ws) {j : Nat} (hj : j < ws.length) : s.wordAt (wordAddr e r j) = ws[j] :=
  State.wordAt_of_word? (h j hj)

theorem State.Holds.inWords (h : s.Holds e r ws) : s.inWords e r ws.length = ws :=
  List.ext_getElem (s.inWords_length e r _) fun j _ hj => by
    simp only [State.inWords, List.getElem_map, List.getElem_range]
    exact h.wordAt hj

end

/-! ## Bytes -/

theorem bytesToNat_lt (bs : List Byte) : bytesToNat bs < 256 ^ bs.length := by
  induction bs with
  | nil => exact Nat.one_pos
  | cons b bs ih =>
    have hb : b.toNat < 256 := b.isLt
    rw [bytesToNat, List.length_cons, Nat.pow_succ]
    omega

theorem bytesToNat_div_mod (bs : List Byte) (i : Nat) : bytesToNat bs / 256 ^ i % 256 = (bs.getD i 0#8).toNat := by
  induction bs generalizing i with
  | nil => simp [bytesToNat]
  | cons b bs ih =>
    have hb : b.toNat < 256 := b.isLt
    rw [bytesToNat]
    cases i with
    | zero =>
      rw [Nat.pow_zero, Nat.div_one, List.getD_cons_zero]
      omega
    | succ i =>
      have hdiv : (b.toNat + 256 * bytesToNat bs) / 256 = bytesToNat bs := by omega
      rw [Nat.pow_succ', ← Nat.div_div_eq_div_mul, hdiv, ih, List.getD_cons_succ]

theorem two_pow_eight_mul (i : Nat) : 2 ^ (8 * i) = 256 ^ i := by rw [Nat.pow_mul]

/-- The four bytes that word `w` of a packed stream holds; fewer in the last word. -/
def byteChunk (bs : List Byte) (w : Nat) : List Byte := (bs.drop (4 * w)).take 4

theorem byteChunk_length (bs : List Byte) (w : Nat) : (byteChunk bs w).length = min 4 (bs.length - 4 * w) := by
  rw [byteChunk, List.length_take, List.length_drop]

theorem byteChunk_getD (bs : List Byte) {j : Nat} (hj : j < bs.length) : (byteChunk bs (j / 4)).getD (j % 4) 0#8 = bs[j] := by
  have hmod : j % 4 < 4 := Nat.mod_lt j (by decide)
  have hindex : 4 * (j / 4) + j % 4 = j := Nat.div_add_mod j 4
  simp [byteChunk, hmod, hindex, hj]

theorem toNat_packedBytes (bs : List Byte) (w : Nat) :
    (toWord (bytesToNat (byteChunk bs w))).toNat = bytesToNat (byteChunk bs w) := by
  refine toNat_toWord ((bytesToNat_lt _).trans_le ?_)
  calc 256 ^ (byteChunk bs w).length ≤ 256 ^ 4 :=
        Nat.pow_le_pow_right (by decide) (byteChunk_length bs w ▸ Nat.min_le_left _ _)
    _ = 2 ^ 32 := by decide

theorem packBytes_getElem {bs : List Byte} {w : Nat} (hw : w < (packBytes bs).length) :
    (packBytes bs)[w] = toWord (bytesToNat (byteChunk bs w)) := by
  simp only [packBytes, List.getElem_map, List.getElem_range, byteChunk]

theorem State.Holds.inBytes {s : State} {e : Eng} {r : Region} {bs : List Byte} (h : s.Holds e r (packBytes bs)) :
    s.inBytes e r bs.length = bs := by
  refine List.ext_getElem (s.inBytes_length e r _) fun j _ hj => ?_
  have hw : j / 4 < (packBytes bs).length := by
    rw [packBytes_length, wordsFor]
    omega
  simp only [State.inBytes, List.getElem_map, List.getElem_range, State.elemByte]
  rw [h.wordAt hw, packBytes_getElem hw]
  apply BitVec.eq_of_toNat_eq
  rw [BitVec.extractLsb'_toNat, toNat_packedBytes, Nat.shiftRight_eq_div_pow, two_pow_eight_mul, bytesToNat_div_mod,
    byteChunk_getD bs hj]

/-! ## Bits -/

theorem bitsToNat_lt (bs : List Bool) : bitsToNat bs < 2 ^ bs.length := by
  induction bs with
  | nil => exact Nat.one_pos
  | cons b bs ih =>
    have hb : b.toNat < 2 := b.toNat_lt
    rw [bitsToNat, List.length_cons, Nat.pow_succ]
    omega

theorem bitsToNat_testBit (bs : List Bool) (i : Nat) : (bitsToNat bs).testBit i = bs.getD i false := by
  induction bs generalizing i with
  | nil => simp [bitsToNat]
  | cons b bs ih =>
    have hb : b.toNat < 2 := b.toNat_lt
    rw [bitsToNat]
    cases i with
    | zero =>
      have hmod : (b.toNat + 2 * bitsToNat bs) % 2 = b.toNat := by omega
      rw [Nat.testBit_zero, hmod, List.getD_cons_zero]
      cases b <;> rfl
    | succ i =>
      have hdiv : (b.toNat + 2 * bitsToNat bs) / 2 = bitsToNat bs := by omega
      rw [Nat.testBit_succ, hdiv, ih, List.getD_cons_succ]

/-- The 32 bits that word `w` of a packed stream holds; fewer in the last word. -/
def bitChunk (bs : List Bool) (w : Nat) : List Bool := (bs.drop (32 * w)).take 32

theorem bitChunk_length (bs : List Bool) (w : Nat) : (bitChunk bs w).length = min 32 (bs.length - 32 * w) := by
  rw [bitChunk, List.length_take, List.length_drop]

theorem bitChunk_getD (bs : List Bool) {j : Nat} (hj : j < bs.length) :
    (bitChunk bs (j / 32)).getD (j % 32) false = bs[j] := by
  have hmod : j % 32 < 32 := Nat.mod_lt j (by decide)
  have hindex : 32 * (j / 32) + j % 32 = j := Nat.div_add_mod j 32
  simp [bitChunk, hmod, hindex, hj]

theorem packBits_getElem {bs : List Bool} {w : Nat} (hw : w < (packBits bs).length) :
    (packBits bs)[w] = toWord (bitsToNat (bitChunk bs w)) := by
  simp only [packBits, List.getElem_map, List.getElem_range, bitChunk]

theorem State.Holds.inBits {s : State} {e : Eng} {r : Region} {bs : List Bool} (h : s.Holds e r (packBits bs)) :
    s.inBits e r bs.length = bs := by
  refine List.ext_getElem (s.inBits_length e r _) fun j _ hj => ?_
  have hw : j / 32 < (packBits bs).length := by
    rw [packBits_length, wordsFor]
    omega
  have hmod : j % 32 < 32 := Nat.mod_lt j (by decide)
  simp only [State.inBits, List.getElem_map, List.getElem_range, State.elemBit]
  rw [h.wordAt hw, packBits_getElem hw, toWord, BitVec.getLsbD_ofNat, bitsToNat_testBit, bitChunk_getD bs hj,
    decide_eq_true hmod, Bool.true_and]

/-! ## Entries -/

theorem packEntries_getElem? (t : List (Word × Nat)) (j : Nat) :
    (packEntries t)[2 * j]? = t[j]?.map Prod.fst ∧ (packEntries t)[2 * j + 1]? = t[j]?.map fun x => toWord x.2 := by
  induction t generalizing j with
  | nil => simp [packEntries]
  | cons x t ih =>
    cases j with
    | zero => exact ⟨rfl, rfl⟩
    | succ j => exact ih j

theorem State.Holds.inEntries {s : State} {e : Eng} {r : Region} {t : List (Word × Nat)} (hcount : ∀ x ∈ t, x.2 < 2 ^ 32)
    (h : s.Holds e r (packEntries t)) : s.inEntries e r t.length = t := by
  refine List.ext_getElem (s.inEntries_length e r _) fun j _ hj => ?_
  have hlen : (packEntries t).length = 2 * t.length := packEntries_length t
  obtain ⟨hsym, hcnt⟩ := packEntries_getElem? t j
  rw [List.getElem?_eq_getElem hj, List.getElem?_eq_getElem (by omega), Option.map_some, Option.some_inj] at hsym hcnt
  simp only [State.inEntries, List.getElem_map, List.getElem_range, State.elemEntry]
  rw [h.wordAt (by omega), h.wordAt (by omega), hsym, hcnt, toNat_toWord (hcount _ (List.getElem_mem hj))]

/-! ## Padding -/

theorem ushiftRight_eq_zero {w : Word} {i : Nat} (h : w.toNat < 2 ^ i) : w >>> i = 0#32 :=
  BitVec.eq_of_toNat_eq (by rw [BitVec.toNat_ushiftRight, Nat.shiftRight_eq_div_pow, Nat.div_eq_of_lt h]; rfl)

theorem packBytes_padding {bs : List Byte} (h : bs.length % 4 ≠ 0) :
    (packBytes bs).getD (bs.length / 4) 0#32 >>> (8 * (bs.length % 4)) = 0#32 := by
  have hw : bs.length / 4 < (packBytes bs).length := by
    rw [packBytes_length, wordsFor]
    omega
  have hlen : (byteChunk bs (bs.length / 4)).length = bs.length % 4 := by
    rw [byteChunk_length]
    omega
  rw [List.getD_eq_getElem _ _ hw, packBytes_getElem hw]
  refine ushiftRight_eq_zero ?_
  rw [toNat_packedBytes, two_pow_eight_mul, ← hlen]
  exact bytesToNat_lt _

theorem packBits_padding {bs : List Bool} (h : bs.length % 32 ≠ 0) :
    (packBits bs).getD (bs.length / 32) 0#32 >>> (bs.length % 32) = 0#32 := by
  have hw : bs.length / 32 < (packBits bs).length := by
    rw [packBits_length, wordsFor]
    omega
  have hlen : (bitChunk bs (bs.length / 32)).length = bs.length % 32 := by
    rw [bitChunk_length]
    omega
  rw [List.getD_eq_getElem _ _ hw, packBits_getElem hw]
  refine ushiftRight_eq_zero ((toNat_toWord_le _).trans_lt ?_)
  rw [← hlen]
  exact bitsToNat_lt _

/-- Settles O17: each element by its place in its word, and the last word by the length of its chunk. -/
theorem packedStreamsReadBack : Obligations.PackedStreamsReadBack :=
  ⟨fun _ _ _ _ => State.Holds.inBytes, fun _ _ _ _ => State.Holds.inBits, fun _ _ _ _ => State.Holds.inEntries,
    fun _ => packBytes_padding, fun _ => packBits_padding⟩

end Sys2Proof.Machine
end

section
/-! The RLE artifact: decimal numerals and maximal runs (41_rle.md R503, R504), and the round trip (41_rle.md R528). -/
namespace Sys2Proof.Machine

/-! ## Numerals -/

theorem toNat_digitWord {d : Nat} (h : d < 10) : (toWord (0x30 + d)).toNat = 0x30 + d := toNat_toWord (by omega)

theorem rleDigit_digitWord {d : Nat} (h : d < 10) : RleDigit (toWord (0x30 + d)) := by
  rw [RleDigit, toNat_digitWord h]
  omega

theorem numeralValue_concat (ds : List Word) (d : Word) :
    numeralValue (ds ++ [d]) = 10 * numeralValue ds + (d.toNat - 0x30) := List.foldl_concat ..

theorem decDigits_digits {fuel n : Nat} : ∀ d ∈ decDigits fuel n, RleDigit d := by
  induction fuel generalizing n with
  | zero => exact List.forall_mem_nil _
  | succ fuel ih =>
    rw [decDigits]
    split
    case isTrue h => exact List.forall_mem_singleton.mpr (rleDigit_digitWord h)
    case isFalse =>
      exact List.forall_mem_append.mpr ⟨ih, List.forall_mem_singleton.mpr (rleDigit_digitWord (n.mod_lt (by decide)))⟩

theorem decDigits_value {fuel n : Nat} (h : n < fuel) : numeralValue (decDigits fuel n) = n := by
  induction fuel generalizing n with
  | zero => exact absurd h n.not_lt_zero
  | succ fuel ih =>
    rw [decDigits]
    split
    case isTrue hlt => simp [numeralValue, toNat_digitWord hlt]
    case isFalse =>
      rw [numeralValue_concat, ih (by omega), toNat_digitWord (n.mod_lt (by decide)), Nat.add_sub_cancel_left]
      exact Nat.div_add_mod n 10

/-- The numeral of a positive number begins with a digit other than 0. -/
theorem decDigits_head? {fuel n : Nat} (hn : 0 < n) (h : n < fuel) :
    ∃ d, 0 < d ∧ d < 10 ∧ (decDigits fuel n).head? = some (toWord (0x30 + d)) := by
  induction fuel generalizing n with
  | zero => exact absurd h n.not_lt_zero
  | succ fuel ih =>
    rw [decDigits]
    split
    case isTrue hlt => exact ⟨n, hn, hlt, rfl⟩
    case isFalse =>
      obtain ⟨d, hpos, hlt, hhead⟩ := ih (n := n / 10) (by omega) (by omega)
      exact ⟨d, hpos, hlt, by rw [List.head?_append, hhead]; rfl⟩

theorem dec_isNumeral {n : Nat} (hn : 0 < n) : IsNumeral n (dec n) := by
  obtain ⟨d, hpos, hlt, hhead⟩ := decDigits_head? hn n.lt_succ_self
  refine ⟨?_, decDigits_digits, ?_, decDigits_value n.lt_succ_self⟩
  · intro hnil
    rw [dec] at hnil
    simp [hnil] at hhead
  · rw [dec, hhead]
    intro heq
    have hnat : 0x30 + d = 0x30 := (toNat_digitWord hlt).symm.trans (congrArg BitVec.toNat (Option.some_inj.mp heq))
    omega

/-! ## Runs -/

theorem runs_cons (x : Word) (xs : List Word) :
    (∃ n rest, runs xs = (n, x) :: rest ∧ runs (x :: xs) = (n + 1, x) :: rest) ∨
    ((∀ y, (runs xs).head? = some y → x ≠ y.2) ∧ runs (x :: xs) = (1, x) :: runs xs) := by
  rw [runs]
  split
  · next n y rest hruns =>
    by_cases hxy : x = y
    · subst hxy
      exact .inl ⟨n, rest, hruns, if_pos rfl⟩
    · rw [if_neg hxy, hruns]
      refine .inr ⟨fun z hz => ?_, rfl⟩
      cases hz
      exact hxy
  · next hruns =>
    rw [hruns]
    exact .inr ⟨nofun, rfl⟩

theorem expandRuns_cons (n : Nat) (x : Word) (rs : List (Nat × Word)) :
    expandRuns ((n, x) :: rs) = List.replicate n x ++ expandRuns rs := List.flatMap_cons ..

theorem expandRuns_runs (xs : List Word) : expandRuns (runs xs) = xs := by
  induction xs with
  | nil => rfl
  | cons x xs ih =>
    obtain ⟨n, rest, hruns, heq⟩ | ⟨-, heq⟩ := runs_cons x xs
    · rw [hruns, expandRuns_cons] at ih
      rw [heq, expandRuns_cons, List.replicate_succ, List.cons_append, ih]
    · rw [heq, expandRuns_cons, ih]
      rfl

/-- Neighbouring runs have different symbols (R503). -/
theorem runs_isChain (xs : List Word) : (runs xs).IsChain fun x y => x.2 ≠ y.2 := by
  induction xs with
  | nil => exact .nil
  | cons x xs ih =>
    obtain ⟨n, rest, hruns, heq⟩ | ⟨hhead, heq⟩ := runs_cons x xs
    · rw [hruns, List.isChain_cons] at ih
      rw [heq, List.isChain_cons]
      exact ih
    · rw [heq, List.isChain_cons]
      exact ⟨fun y hy => hhead y hy, ih⟩

theorem mem_of_mem_runs {xs : List Word} : ∀ x ∈ runs xs, x.2 ∈ xs := by
  intro x hx
  have hpos := runs_pos xs x hx
  rw [← expandRuns_runs xs]
  exact List.mem_flatMap.mpr ⟨x, hx, List.mem_replicate.mpr ⟨hpos.ne', rfl⟩⟩

/-- Settles O36: the runs of the input, each with its numeral. -/
theorem rleArtifactIsMaximalRuns : Obligations.RleArtifactIsMaximalRuns := by
  intro s hs
  refine ⟨_, (runs s).map fun x => (x.1, x.2, dec x.1), rleEncode_of_symbols hs, ?_, ?_, ?_, ?_⟩
  · exact List.forall_mem_map.mpr fun x hx => ⟨runs_pos s x hx, dec_isNumeral (runs_pos s x hx)⟩
  · rw [List.isChain_map]
    exact runs_isChain s
  · rw [List.flatMap_map]
    exact (expandRuns_runs s).symm
  · rw [List.flatMap_map]
    rfl

/-! ## The round trip -/

theorem rleDecode_rleEmit {rs : List (Nat × Word)} (hpos : ∀ x ∈ rs, 0 < x.1) (hsym : ∀ x ∈ rs, RleSymbol x.2) :
    rleDecode (rleEmit rs) = .ok rs := by
  have hgroups : rleEmit rs = (rs.map fun x => (dec x.1, x.2)).flatMap fun x => x.1 ++ [x.2] := by
    rw [List.flatMap_map, rleEmit]
  have hvalue : rs.map (fun x => (numeralValue (dec x.1), x.2)) = rs :=
    (List.map_congr_left fun x _ => congrArg (·, x.2) (decDigits_value x.1.lt_succ_self)).trans (List.map_id rs)
  rw [rleDecode, hgroups, rleScan_groups, List.map_map]
  · exact congrArg Except.ok hvalue
  · refine List.forall_mem_map.mpr fun x hx => ?_
    obtain ⟨hne, hdigits, -, -⟩ := dec_isNumeral (hpos x hx)
    exact ⟨hne, hdigits, hsym x hx⟩

/-- What a successful RLE encode has read and publishes. -/
theorem idealRlee_eq_ok {s : State} {ws : List Word} {n : Word} (h : idealRlee s = .ok ⟨[(.r2, ws)], [(.outLen, n)]⟩) :
    (∀ c ∈ s.inWords .rlee .r1 s.rlee.inLen.toNat, RleSymbol c) ∧
    ws = rleEmit (runs (s.inWords .rlee .r1 s.rlee.inLen.toNat)) ∧ ws.length ≤ capacity s.params .rlee .r2 ∧
    n = toWord ws.length := by
  unfold idealRlee rleEncode at h
  dsimp only at h
  split at h
  · cases h
  split at h
  · cases h
  next out henc =>
  split at h
  · cases h
  next hcap =>
  cases h
  split at henc
  · cases henc
  next hfind =>
  cases henc
  exact ⟨by simpa [List.findIdx?_eq_none_iff] using hfind, rfl, not_lt.mp hcap, rfl⟩

theorem capacity_word {p : Params} {e : Eng} {r : Region} (hk : elemKind e r = some .word) :
    capacity p e r = p.words e r := by rw [capacity, hk]

theorem capacity_bit {p : Params} {e : Eng} {r : Region} (hk : elemKind e r = some .bit) :
    capacity p e r = 32 * p.words e r := by rw [capacity, hk]

theorem capacity_byte {p : Params} {e : Eng} {r : Region} (hk : elemKind e r = some .byte) :
    capacity p e r = 4 * p.words e r := by rw [capacity, hk]

theorem capacity_entry {p : Params} {e : Eng} {r : Region} (hk : elemKind e r = some .entry) :
    capacity p e r = p.words e r / 2 := by rw [capacity, hk]

/-- A legal capacity fits a register (00_scope.md R9, R10). -/
theorem capacity_lt {p : Params} (hlegal : p.legal = true) (e : Eng) (r : Region) : capacity p e r < 2 ^ 32 := by
  have hwords := legal_words hlegal e r
  unfold capacity
  split <;> omega

/-- Settles O40: the artifact's groups are the input's runs, whose expansion is the input. -/
theorem rleRoundTrip : Obligations.RleRoundTrip := by
  intro s t ws n hlegal henc hholds hlen hin hout
  obtain ⟨hsym, hws, hcap, hn⟩ := idealRlee_eq_ok henc
  set xs := s.inWords .rlee .r1 s.rlee.inLen.toNat with hxs
  have hxslen : xs.length = s.rlee.inLen.toNat := s.inWords_length _ _ _
  have hnat : t.rled.inLen.toNat = ws.length := by
    rw [hlen, hn, toNat_toWord (hcap.trans_lt (capacity_lt hlegal .rlee .r2))]
  have hread : t.inWords .rled .r1 t.rled.inLen.toNat = ws := by rw [hnat, hholds.inWords]
  have hdec : rleDecode (t.inWords .rled .r1 t.rled.inLen.toNat) = .ok (runs xs) := by
    rw [hread, hws, rleDecode_rleEmit (runs_pos xs) fun x hx => hsym _ (mem_of_mem_runs x hx)]
  have hrunslen : runsLength (runs xs) = s.rlee.inLen.toNat := by rw [← expandRuns_length, expandRuns_runs, hxslen]
  rw [idealRled_eq_decoderAnswer (hnat.trans_le hin), decoderAnswer_fits hdec (hrunslen.trans_le hout),
    expandRuns_runs, hrunslen, toWord_toNat]

end Sys2Proof.Machine
end

section
/-! Golomb-Rice codewords and streams (42_golomb_rice.md R603, R604, R620 to R626), and the round trip (R629). -/
namespace Sys2Proof.Machine

/-! ## Codewords -/

@[simp] theorem msbBits_length (r k : Nat) : (msbBits r k).length = k := by simp [msbBits]

theorem msbBits_getElem? {r k t : Nat} (ht : t < k) : (msbBits r k)[t]? = some (r.testBit (k - 1 - t)) := by
  simp [msbBits, ht]

theorem grWord_eq (m q r : Nat) : grWord m q r = List.replicate q true ++ (false :: msbBits r (clog2 m)) := rfl

theorem grWord_length (m q r : Nat) : (grWord m q r).length = q + 1 + clog2 m := by
  rw [grWord_eq, List.length_append, List.length_replicate, List.length_cons, msbBits_length]
  omega

/-- A codeword's unary part: `q` ones and a zero. -/
theorem grWord_getElem?_ones {m q r i : Nat} (hi : i < q) : (grWord m q r)[i]? = some true := by
  rw [grWord_eq, List.getElem?_append_left (by rwa [List.length_replicate])]
  simp [hi]

theorem grWord_getElem?_after (m q r j : Nat) : (grWord m q r)[q + j]? = (false :: msbBits r (clog2 m))[j]? := by
  rw [grWord_eq, List.getElem?_append_right (by simp), List.length_replicate, Nat.add_sub_cancel_left]

theorem grCodeword_eq (m v : Nat) : grCodeword m v = grWord m (v / m) (v % m) := by
  rw [grCodeword, grWord_eq, List.append_assoc]
  rfl

theorem grEncode_eq (m : Nat) (s : List Word) :
    grEncode m s = s.flatMap fun c => grWord m (c.toNat / m) (c.toNat % m) := by simp only [grEncode, grCodeword_eq]

/-- The remainder field read back, most significant bit first (R622). -/
theorem msbValue_msbBits (r k : Nat) : msbValue (msbBits r k) = r % 2 ^ k := by
  induction k generalizing r with
  | zero => simp [msbBits, msbValue, Nat.mod_one]
  | succ k ih =>
    have hbits : msbBits r (k + 1) = msbBits (r / 2) k ++ [r.testBit 0] := by
      rw [msbBits, List.range_succ, List.map_append, List.map_singleton, msbBits]
      refine congrArg₂ _ (List.map_congr_left fun t ht => ?_) (by simp)
      have hlt := List.mem_range.mp ht
      rw [← Nat.testBit_succ]
      congr 1
      omega
    have hbit : (r.testBit 0).toNat = r % 2 := Nat.toNat_testBit r 0 ▸ by simp
    calc msbValue (msbBits r (k + 1)) = 2 * msbValue (msbBits (r / 2) k) + (r.testBit 0).toNat := by
          rw [hbits]; exact List.foldl_concat ..
      _ = r % 2 ^ (k + 1) := by rw [ih, hbit, Nat.pow_succ', Nat.mod_mul, Nat.add_comm]

/-! ## The decoder's loop -/

section
variable {m fuel start q r : Nat} {l : List Bool}

theorem takeWhile_ones (q : Nat) (l : List Bool) :
    ((List.replicate q true ++ false :: l).takeWhile fun x => x) = List.replicate q true := by
  induction q with
  | zero => rfl
  | succ q ih => rw [List.replicate_succ, List.cons_append, List.takeWhile_cons, if_pos rfl, ih]

/-- One turn of the loop after a terminated unary part: the remainder field must be whole and the value a code point
(R621 to R624). -/
theorem grLoop_terminated : grLoop m (fuel + 1) start (List.replicate q true ++ false :: l) =
    if l.length < clog2 m then .error (.malformed .r1 start)
    else if maxCodePoint < q * m + msbValue (l.take (clog2 m)) then .error (.malformed .r1 start)
    else (grLoop m fuel (start + q + 1 + clog2 m) (l.drop (clog2 m))).map
      (toWord (q * m + msbValue (l.take (clog2 m))) :: ·) := by
  obtain ⟨b, bs, hbs⟩ := List.exists_cons_of_ne_nil (l := List.replicate q true ++ false :: l) (by simp)
  have hones : ((b :: bs).takeWhile fun x => x).length = q := by rw [← hbs, takeWhile_ones, List.length_replicate]
  have hrest : (b :: bs).drop q = false :: l := by rw [← hbs, List.drop_left' (List.length_replicate ..)]
  rw [hbs, grLoop]
  dsimp only
  rw [hones, hrest]
  dsimp only
  split
  · rfl
  split
  · rfl
  cases grLoop m fuel (start + q + 1 + clog2 m) (l.drop (clog2 m)) <;> rfl

/-- An unterminated unary run is malformed at its first bit (R621). -/
theorem grLoop_ones (hq : 1 ≤ q) : grLoop m fuel start (List.replicate q true) = .error (.malformed .r1 start) := by
  obtain ⟨q, rfl⟩ := Nat.exists_eq_add_of_le' hq
  cases fuel with
  | zero => rfl
  | succ fuel =>
    have hones : ((true :: List.replicate q true).takeWhile fun x => x).length = q + 1 := by simp
    rw [List.replicate_succ, grLoop]
    dsimp only
    rw [hones, List.drop_eq_nil_of_le (by simp)]

/-- A cut remainder field is malformed at its codeword's first bit (R622). -/
theorem grLoop_cut (hl : l.length < clog2 m) :
    grLoop m fuel start (List.replicate q true ++ [false] ++ l) = .error (.malformed .r1 start) := by
  rw [List.append_assoc, List.singleton_append]
  cases fuel with
  | zero => cases q <;> rfl
  | succ fuel => rw [grLoop_terminated, if_pos hl]

/-- The field after a whole codeword's unary part is its remainder. -/
theorem grLoop_grWord (hr : r < 2 ^ clog2 m) : grLoop m (fuel + 1) start (grWord m q r ++ l) =
    if maxCodePoint < q * m + r then .error (.malformed .r1 start)
    else (grLoop m fuel (start + (grWord m q r).length) l).map (toWord (q * m + r) :: ·) := by
  have hwhole : ¬(msbBits r (clog2 m) ++ l).length < clog2 m := by simp
  have hfield : (msbBits r (clog2 m) ++ l).take (clog2 m) = msbBits r (clog2 m) := List.take_left' (msbBits_length ..)
  have hrest : (msbBits r (clog2 m) ++ l).drop (clog2 m) = l := List.drop_left' (msbBits_length ..)
  rw [grWord_length, grWord_eq, List.append_assoc, List.cons_append, grLoop_terminated, if_neg hwhole, hfield, hrest,
    msbValue_msbBits, Nat.mod_eq_of_lt hr, ← Nat.add_assoc start, ← Nat.add_assoc start]

/-- A codeword of a value above 0x10FFFF is malformed at its first bit (R624). -/
theorem grLoop_above (hr : r < 2 ^ clog2 m) (h : maxCodePoint < q * m + r) :
    grLoop m fuel start (grWord m q r ++ l) = .error (.malformed .r1 start) := by
  cases fuel with
  | zero =>
    rw [grWord_eq]
    cases q <;> rfl
  | succ fuel => rw [grLoop_grWord hr, if_pos h]

/-- Codewords of code points are read one a turn, whatever follows them. -/
theorem grLoop_grWords {vs : List (Nat × Nat)} (hvs : ∀ x ∈ vs, x.2 < 2 ^ clog2 m ∧ x.1 * m + x.2 ≤ 0x10FFFF) :
    grLoop m (vs.length + fuel) start ((vs.flatMap fun x => grWord m x.1 x.2) ++ l) =
      (grLoop m fuel (start + (vs.flatMap fun x => grWord m x.1 x.2).length) l).map
        ((vs.map fun x => toWord (x.1 * m + x.2)) ++ ·) := by
  induction vs generalizing start with
  | nil =>
    rw [List.length_nil, Nat.zero_add]
    change grLoop m fuel start l = (grLoop m fuel start l).map ([] ++ ·)
    cases grLoop m fuel start l <;> rfl
  | cons x vs ih =>
    obtain ⟨⟨hr, hle⟩, hvs⟩ := List.forall_mem_cons.mp hvs
    have hfits : ¬maxCodePoint < x.1 * m + x.2 := not_lt.mpr hle
    rw [List.flatMap_cons, List.append_assoc, List.length_cons, Nat.add_right_comm, grLoop_grWord hr, if_neg hfits,
      ih hvs, List.length_append, Nat.add_assoc start]
    cases grLoop m fuel _ l <;> rfl

end

theorem flatMap_grWord_length_ge (m : Nat) (vs : List (Nat × Nat)) :
    vs.length ≤ (vs.flatMap fun x => grWord m x.1 x.2).length := by
  induction vs with
  | nil => exact le_rfl
  | cons x vs ih =>
    rw [List.flatMap_cons, List.length_append, List.length_cons, grWord_length]
    omega

section
variable {m : Nat} {vs : List (Nat × Nat)} (hvs : ∀ x ∈ vs, x.2 < 2 ^ clog2 m ∧ x.1 * m + x.2 ≤ 0x10FFFF)
include hvs

/-- A stream of codewords and what follows them: the loop gets to what follows with fuel left. -/
theorem grDecode_grWords (l : List Bool) : ∃ fuel, grDecode m ((vs.flatMap fun x => grWord m x.1 x.2) ++ l) =
    (grLoop m fuel (vs.flatMap fun x => grWord m x.1 x.2).length l).map
      ((vs.map fun x => toWord (x.1 * m + x.2)) ++ ·) := by
  have hlen : vs.length ≤ ((vs.flatMap fun x => grWord m x.1 x.2) ++ l).length := by
    rw [List.length_append]
    exact (flatMap_grWord_length_ge m vs).trans (Nat.le_add_right _ _)
  obtain ⟨fuel, hfuel⟩ := Nat.exists_eq_add_of_le hlen
  exact ⟨fuel, by rw [grDecode, hfuel, grLoop_grWords hvs, Nat.zero_add]⟩

theorem grDecode_codewords :
    grDecode m (vs.flatMap fun x => grWord m x.1 x.2) = .ok (vs.map fun x => toWord (x.1 * m + x.2)) := by
  obtain ⟨fuel, h⟩ := grDecode_grWords hvs []
  have hnil : grLoop m fuel (vs.flatMap fun x => grWord m x.1 x.2).length [] = .ok [] := by cases fuel <;> rfl
  rw [List.append_nil, hnil] at h
  rw [h]
  exact congrArg Except.ok (List.append_nil _)

/-- A malformed rest is reported at the first bit after the codewords. -/
theorem grDecode_malformed_rest {l : List Bool}
    (hl : ∀ fuel start, grLoop m fuel start l = .error (.malformed .r1 start)) :
    grDecode m ((vs.flatMap fun x => grWord m x.1 x.2) ++ l) =
      .error ⟨.malformed, .r1, (vs.flatMap fun x => grWord m x.1 x.2).length⟩ := by
  obtain ⟨fuel, h⟩ := grDecode_grWords hvs l
  rw [h, hl]
  rfl

end

/-- Settles O44: the codeword bit by bit, and the loop past the codewords. -/
theorem golombStreamDecoding : Obligations.GolombStreamDecoding := by
  refine ⟨fun m q r => ⟨grWord_length m q r, fun i => grWord_getElem?_ones, grWord_getElem?_after m q r 0, fun t ht => ?_⟩,
    grEncode_eq, fun m vs _ hvs => ⟨grDecode_codewords hvs, fun q hq => ?_, fun q l hl => ?_, fun q r l hr habove => ?_⟩⟩
  · rw [Nat.add_assoc, grWord_getElem?_after, Nat.add_comm 1, List.getElem?_cons_succ, msbBits_getElem? ht]
  · exact grDecode_malformed_rest hvs fun _ _ => grLoop_ones hq
  · exact grDecode_malformed_rest hvs fun _ _ => grLoop_cut hl
  · exact grDecode_malformed_rest hvs fun _ _ => grLoop_above hr habove

/-! ## The round trip -/

/-- The encoder's codewords decode to the encoder's input (R629). -/
theorem grDecode_grEncode {m : Nat} (hm : 0 < m) {xs : List Word} (hxs : ∀ c ∈ xs, c.toNat ≤ 0x10FFFF) :
    grDecode m (grEncode m xs) = .ok xs := by
  have hwords : grEncode m xs =
      (xs.map fun c => (c.toNat / m, c.toNat % m)).flatMap fun x => grWord m x.1 x.2 := by
    rw [grEncode_eq, List.flatMap_map]
  have hvalue (c : Word) : c.toNat / m * m + c.toNat % m = c.toNat := Nat.div_add_mod' _ _
  rw [hwords, grDecode_codewords, List.map_map]
  · refine congrArg Except.ok ((List.map_congr_left fun c _ => ?_).trans (List.map_id xs))
    exact (congrArg toWord (hvalue c)).trans (toWord_toNat c)
  · refine List.forall_mem_map.mpr fun c hc => ⟨?_, (hvalue c).trans_le (hxs c hc)⟩
    exact (Nat.mod_lt _ hm).trans_le (clog2_le_iff.mp le_rfl)

theorem forall_le_of_findIdx?_eq_none {xs : List Word}
    (h : xs.findIdx? (fun c => decide (maxCodePoint < c.toNat)) = none) : ∀ c ∈ xs, c.toNat ≤ 0x10FFFF := fun c hc =>
  not_lt.mp (of_decide_eq_false (List.findIdx?_eq_none_iff.mp h c hc))

/-- What a successful Golomb-Rice encode has checked, read and published. -/
theorem idealGre_eq_ok {s : State} {ws : List Word} {n : Word} (h : idealGre s = .ok ⟨[(.r2, ws)], [(.outLen, n)]⟩) :
    0 < sint32 s.gre.m ∧ (∀ c ∈ s.inWords .gre .r1 s.gre.inLen.toNat, c.toNat ≤ 0x10FFFF) ∧
    ∃ bits, bits = grEncode s.gre.m.toNat (s.inWords .gre .r1 s.gre.inLen.toNat) ∧ ws = packBits bits ∧
      bits.length ≤ capacity s.params .gre .r2 ∧ n = toWord bits.length := by
  rw [idealGre] at h
  dsimp only at h
  split at h
  · cases h
  split at h
  · cases h
  next hm =>
  split at h
  · cases h
  next hfind =>
  rw [← grEncode_length, toNat_sint32_of_pos (not_le.mp hm)] at h
  split at h
  · cases h
  next hcap =>
  cases h
  exact ⟨not_le.mp hm, forall_le_of_findIdx?_eq_none hfind, _, rfl, rfl, not_lt.mp hcap, rfl⟩

/-- Settles O45: the packed bits read back, and the encoder's codewords decode to its input. -/
theorem golombRoundTrip : Obligations.GolombRoundTrip := by
  intro s t ws n hlegal henc hholds hlen hm hin hout
  obtain ⟨hpos, hle, bits, hbits, rfl, hcap, hn⟩ := idealGre_eq_ok henc
  set xs := s.inWords .gre .r1 s.gre.inLen.toNat
  have hxslen : xs.length = s.gre.inLen.toNat := s.inWords_length _ _ _
  have hnat : t.grd.inLen.toNat = bits.length := by
    rw [hlen, hn, toNat_toWord (hcap.trans_lt (capacity_lt hlegal .gre .r2))]
  have hmpos : 0 < s.gre.m.toNat := by
    have := toNat_sint32_of_pos hpos
    omega
  have hdec : grDecode t.grd.m.toNat (t.inBits .grd .r1 t.grd.inLen.toNat) = .ok xs := by
    rw [hnat, hholds.inBits, hbits, hm, grDecode_grEncode hmpos hle]
  rw [idealGrd_eq_decoderAnswer (hlen ▸ hin) (hm ▸ hpos), decoderAnswer_fits hdec (hxslen.trans_le hout), hxslen,
    toWord_toNat, id]

end Sys2Proof.Machine
end

section
/-! The Huffman round trip (43_huffman.md R730): the codewords of a sequence under its own table decode to it. -/
namespace Sys2Proof.Machine

theorem hufEncode_of_buildTree {t : List (Word × Nat)} {root : HufTree} (h : buildTree t = some root) (xs : List Word) :
    hufEncode t xs = xs.flatMap (codeOf (codeTable root)) := by rw [hufEncode, h]

/-- A sequence of one symbol is one 0 bit per symbol (R704). -/
theorem hufEncode_leaf {t : List (Word × Nat)} {sym : Word} (h : buildTree t = some (.leaf sym)) (n : Nat) :
    hufEncode t (List.replicate n sym) = List.replicate n false := by
  rw [hufEncode_of_buildTree h]
  induction n with
  | zero => rfl
  | succ n ih =>
    rw [List.replicate_succ, List.flatMap_cons, codeOf_codeTable_leaf, ih]
    rfl

theorem hufDecode_hufEncode {xs : List Word} (hxs : ∀ c ∈ xs, c.toNat ≤ 0x10FFFF) :
    hufDecode (freqTable xs) (hufEncode (freqTable xs) xs) = .ok xs := by
  have hvalid : hufTableError (freqTable xs) = none :=
    hufTableError_eq_none (fun c hc => hxs c (mem_freqTable_symbols.mp hc)) (freqTable_symbols_nodup xs)
  by_cases hnil : freqTable xs = []
  · obtain rfl : xs = [] := List.eq_nil_iff_forall_not_mem.mpr fun c hc => by
      have hmem := mem_freqTable_symbols.mpr hc
      simp [hnil] at hmem
    rfl
  · obtain ⟨root, hroot, hsymbols⟩ := exists_buildTree hnil
    have hmem : ∀ c ∈ xs, c ∈ root.symbols := fun c hc => hsymbols.mem_iff.mpr (mem_freqTable_symbols.mpr hc)
    cases root with
    | leaf sym =>
      have hxs' : xs = List.replicate xs.length sym :=
        List.eq_replicate_iff.mpr ⟨rfl, fun c hc => List.mem_singleton.mp (hmem c hc)⟩
      calc hufDecode (freqTable xs) (hufEncode (freqTable xs) xs)
          = hufDecode (freqTable xs) (hufEncode (freqTable xs) (List.replicate xs.length sym)) := by rw [← hxs']
        _ = .ok (List.replicate xs.length sym) := by rw [hufEncode_leaf hroot, hufDecode_leaf_zeros hvalid hroot]
        _ = .ok xs := by rw [← hxs']
    | node l r =>
      rw [hufDecode_node hvalid hroot, hufEncode_of_buildTree hroot]
      simpa [hufWalk] using hufWalk_codewords (i := 0) (start := 0) (rest := []) hmem

/-- What a successful Huffman encode has checked, read and published. -/
theorem idealHufe_eq_ok {s : State} {bits table : List Word} {n l : Word}
    (h : idealHufe s = .ok ⟨[(.r2, bits), (.r3, table)], [(.outLen, n), (.auxLen, l)]⟩) :
    (∀ c ∈ s.inWords .hufe .r1 s.hufe.inLen.toNat, c.toNat ≤ 0x10FFFF) ∧
    ∃ (t : List (Word × Nat)) (out : List Bool), t = freqTable (s.inWords .hufe .r1 s.hufe.inLen.toNat) ∧
      out = hufEncode t (s.inWords .hufe .r1 s.hufe.inLen.toNat) ∧ bits = packBits out ∧ table = packEntries t ∧
      out.length ≤ capacity s.params .hufe .r2 ∧ t.length ≤ capacity s.params .hufe .r3 ∧
      n = toWord out.length ∧ l = toWord t.length := by
  rw [idealHufe] at h
  dsimp only at h
  split at h
  · cases h
  split at h
  · cases h
  next hfind =>
  split at h
  · cases h
  next htable =>
  split at h
  · cases h
  next hcap =>
  cases h
  exact ⟨forall_le_of_findIdx?_eq_none hfind, _, _, rfl, rfl, rfl, rfl, not_lt.mp hcap, not_lt.mp htable, rfl, rfl⟩

/-- Settles O50: bits and table read back, and the codewords of the input decode to it. -/
theorem huffmanRoundTrip : Obligations.HuffmanRoundTrip := by
  intro s t bits table n l hlegal henc hbits htable hlen haux hin hauxin hout
  obtain ⟨hle, T, out, hT, hout', rfl, rfl, hcap2, hcap3, hn, hl⟩ := idealHufe_eq_ok henc
  set xs := s.inWords .hufe .r1 s.hufe.inLen.toNat
  have hxslen : xs.length = s.hufe.inLen.toNat := s.inWords_length _ _ _
  have hnbits : t.hufd.inLen.toNat = out.length := by
    rw [hlen, hn, toNat_toWord (hcap2.trans_lt (capacity_lt hlegal .hufe .r2))]
  have hnentries : t.hufd.auxLen.toNat = T.length := by
    rw [haux, hl, toNat_toWord (hcap3.trans_lt (capacity_lt hlegal .hufe .r3))]
  have hcount : ∀ x ∈ T, x.2 < 2 ^ 32 := fun x hx => by
    rw [freqTable_count (hT ▸ hx)]
    exact List.count_le_length.trans_lt (hxslen ▸ s.hufe.inLen.isLt)
  have hdec : hufDecode (t.inEntries .hufd .r3 t.hufd.auxLen.toNat) (t.inBits .hufd .r1 t.hufd.inLen.toNat) = .ok xs := by
    rw [hnentries, htable.inEntries hcount, hnbits, hbits.inBits, hout', hT, hufDecode_hufEncode hle]
  rw [idealHufd_eq_decoderAnswer (hlen ▸ hin) (haux ▸ hauxin), decoderAnswer_fits hdec (hxslen.trans_le hout), hxslen,
    toWord_toNat, id]

end Sys2Proof.Machine
end

section
/-! The LZW codec (44_lzw.md): the decoder's check of its codes, the encoder's greedy phrases, and the round trip
(R801, R810 to R812, R820 to R825, R830 to R832). -/
namespace Sys2Proof.Machine

/-! ## The check of the codes -/

/-- Code `j` of a sequence whose first code stands at index `i` is above every entry that can exist then (R821). -/
theorem lzwBadCode_eq_some_iff {i n : Nat} {cs : List Nat} : lzwBadCode i cs = some n ↔
    ∃ j, n = i + j ∧ j < cs.length ∧ 255 + (i + j) < cs.getD j 0 ∧ ∀ k, k < j → cs.getD k 0 ≤ 255 + (i + k) := by
  induction cs generalizing i with
  | nil => simp [lzwBadCode]
  | cons c cs ih =>
    rw [lzwBadCode]
    split
    case isTrue hc =>
      constructor
      · rintro ⟨⟩
        exact ⟨0, rfl, Nat.succ_pos _, hc, fun k hk => absurd hk k.not_lt_zero⟩
      · rintro ⟨j, rfl, -, -, hlow⟩
        cases j with
        | zero => rfl
        | succ j => exact absurd hc (not_lt.mpr (hlow 0 j.succ_pos))
    case isFalse hc =>
      rw [ih]
      constructor
      · rintro ⟨j, rfl, hj, hbad, hlow⟩
        refine ⟨j + 1, by omega, Nat.succ_lt_succ hj, ?_, fun k hk => ?_⟩
        · rw [List.getD_cons_succ]
          omega
        · cases k with
          | zero => exact not_lt.mp hc
          | succ k =>
            have := hlow k (Nat.lt_of_succ_lt_succ hk)
            rw [List.getD_cons_succ]
            omega
      · rintro ⟨j, rfl, hj, hbad, hlow⟩
        cases j with
        | zero => exact absurd hbad hc
        | succ j =>
          rw [List.getD_cons_succ] at hbad
          refine ⟨j, by omega, Nat.lt_of_succ_lt_succ hj, by omega, fun k hk => ?_⟩
          have := hlow (k + 1) (Nat.succ_lt_succ hk)
          rw [List.getD_cons_succ] at this
          omega

theorem lzwDecode_eq_error_iff {c : List Nat} {i : Nat} :
    lzwDecode c = .error ⟨.malformed, .r1, i⟩ ↔ lzwBadCode 0 c = some i := by
  unfold lzwDecode
  cases lzwBadCode 0 c with
  | some k => simp [Err.malformed]
  | none => cases c <;> simp

theorem exists_lzwDecode_ok {c : List Nat} (h : lzwBadCode 0 c = none) : ∃ res, lzwDecode c = .ok res := by
  unfold lzwDecode
  rw [h]
  cases c <;> exact ⟨_, rfl⟩

/-- Settles O51: the check stands first, and past it the decoder answers. -/
theorem lzwFirstUnknownCode : Obligations.LzwFirstUnknownCode := by
  refine ⟨fun c i => ?_, fun c hc => exists_lzwDecode_ok (Option.eq_none_iff_forall_ne_some.mpr fun n hn => ?_)⟩
  · rw [lzwDecode_eq_error_iff, lzwBadCode_eq_some_iff]
    simp only [Nat.zero_add]
    exact ⟨fun ⟨_, hij, h⟩ => hij ▸ h, fun h => ⟨i, rfl, h⟩⟩
  · obtain ⟨j, -, hj, hbad, -⟩ := lzwBadCode_eq_some_iff.mp hn
    have := hc j hj
    omega

/-! ## Entries and codes -/

theorem lzwEntry_byte (dict : List (List Byte)) (b : Byte) : lzwEntry dict b.toNat = some [b] := by
  rw [lzwEntry, if_pos b.isLt, BitVec.ofNat_toNat, BitVec.setWidth_eq]

theorem lzwEntry_created (dict : List (List Byte)) (j : Nat) : lzwEntry dict (256 + j) = dict[j]? := by
  rw [lzwEntry, if_neg (by omega), Nat.add_sub_cancel_left]

theorem lzwCode_byte (dict : List (List Byte)) (b : Byte) : lzwCode dict [b] = some b.toNat := rfl

theorem lzwCode_of_not_byte {dict : List (List Byte)} {w : List Byte} (h : ∀ b, w ≠ [b]) :
    lzwCode dict w = (dict.findIdx? fun x => decide (x = w)).map (256 + ·) := by
  unfold lzwCode
  split
  · next b => exact absurd rfl (h b)
  · cases dict.findIdx? fun x => decide (x = w) <;> rfl

/-- The code of a sequence names it. -/
theorem lzwEntry_of_lzwCode {dict : List (List Byte)} {w : List Byte} {c : Nat} (h : lzwCode dict w = some c) :
    lzwEntry dict c = some w := by
  by_cases hbyte : ∃ b, w = [b]
  · obtain ⟨b, rfl⟩ := hbyte
    cases h
    exact lzwEntry_byte dict b
  · rw [lzwCode_of_not_byte (not_exists.mp hbyte), Option.map_eq_some_iff] at h
    obtain ⟨j, hj, rfl⟩ := h
    obtain ⟨hlt, heq, -⟩ := List.findIdx?_eq_some_iff_getElem.mp hj
    rw [lzwEntry_created, List.getElem?_eq_getElem hlt, of_decide_eq_true heq]

/-- A sequence without a code is no entry. -/
theorem lzwEntry_ne_of_lzwCode_none {dict : List (List Byte)} {w : List Byte} (h : lzwCode dict w = none) (c : Nat) :
    lzwEntry dict c ≠ some w := by
  have hbyte : ∀ b, w ≠ [b] := by
    rintro b rfl
    cases h
  intro hentry
  rw [lzwEntry] at hentry
  split at hentry
  · exact hbyte _ (Option.some_inj.mp hentry).symm
  · rw [lzwCode_of_not_byte hbyte, Option.map_eq_none_iff] at h
    have := List.findIdx?_eq_none_iff.mp h w (List.mem_of_getElem? hentry)
    simp at this

theorem lt_of_lzwEntry {dict : List (List Byte)} {c : Nat} {p : List Byte} (h : lzwEntry dict c = some p) :
    c < 256 + dict.length := by
  rw [lzwEntry] at h
  split at h
  · omega
  · have := (List.getElem?_eq_some_iff.mp h).1
    omega

/-! ## The encoder's phrases -/

/-- The encoder cuts its input into phrases: each is named by its code in the dictionary so far, and each but the last,
extended by the first byte of the next, is in no entry yet and becomes the next one (R810 to R812). -/
inductive LzwPhrases : List (List Byte) → List (List Byte) → List Nat → List (List Byte) → Prop
  /-- The last phrase makes no entry. -/
  | last (dict : List (List Byte)) (p : List Byte) (c : Nat) (code : lzwEntry dict c = some p) (pos : p ≠ []) :
      LzwPhrases dict [p] [c] dict
  /-- A phrase before another makes an entry. -/
  | more (dict : List (List Byte)) (p q : List Byte) (ps : List (List Byte)) (c : Nat) (cs : List Nat)
      (final : List (List Byte)) (code : lzwEntry dict c = some p) (pos : p ≠ [])
      (fresh : ∀ c', lzwEntry dict c' ≠ some (p ++ q.take 1))
      (rest : LzwPhrases (dict ++ [p ++ q.take 1]) (q :: ps) cs final) : LzwPhrases dict (p :: q :: ps) (c :: cs) final

theorem lzwEncLoop_phrases (bs : List Byte) : ∀ {dict : List (List Byte)} {w : List Byte} {c : Nat}, w ≠ [] →
    lzwCode dict w = some c → ∃ p ps, LzwPhrases dict (p :: ps) (lzwEncLoop dict w bs).1 (lzwEncLoop dict w bs).2 ∧
      (p :: ps).flatten = w ++ bs ∧ w <+: p := by
  induction bs with
  | nil =>
    intro dict w c hw hc
    refine ⟨w, [], ?_, by simp, List.prefix_refl w⟩
    rw [lzwEncLoop, if_neg hw, hc]
    exact .last dict w c (lzwEntry_of_lzwCode hc) hw
  | cons b bs ih =>
    intro dict w c hw hc
    rw [lzwEncLoop]
    split
    · next c' hc' =>
      obtain ⟨p, ps, hphrases, hflat, hpre⟩ := ih (by simp) hc'
      exact ⟨p, ps, hphrases, by simpa using hflat, (List.prefix_append w [b]).trans hpre⟩
    · next hnone =>
      obtain ⟨q, ps, hphrases, hflat, hpre⟩ := ih (dict := dict ++ [w ++ [b]]) (List.cons_ne_nil b []) (lzwCode_byte _ b)
      obtain ⟨r, rfl⟩ := hpre
      rw [hc]
      exact ⟨w, ([b] ++ r) :: ps, .more dict w _ ps c _ _ (lzwEntry_of_lzwCode hc) hw (lzwEntry_ne_of_lzwCode_none hnone)
        hphrases, by rw [List.flatten_cons, hflat]; rfl, List.prefix_refl w⟩

/-- The first byte is a phrase of its own to begin with. -/
theorem lzwEncode_phrases {x : List Byte} (hx : x ≠ []) :
    ∃ ps, LzwPhrases [] ps (lzwEncode x).1 (lzwEncode x).2 ∧ ps.flatten = x := by
  obtain ⟨b, bs, rfl⟩ := List.exists_cons_of_ne_nil hx
  obtain ⟨p, ps, hphrases, hflat, -⟩ := lzwEncLoop_phrases bs (List.cons_ne_nil b []) (lzwCode_byte [] b)
  exact ⟨p :: ps, hphrases, hflat⟩

section
variable {dict ps final : List (List Byte)} {cs : List Nat}

theorem LzwPhrases.ne_nil (h : LzwPhrases dict ps cs final) : ∀ p ∈ ps, p ≠ [] := by
  induction h with
  | last _ p _ _ hp => exact List.forall_mem_singleton.mpr hp
  | more _ p _ _ _ _ _ _ hp _ _ ih => exact List.forall_mem_cons.mpr ⟨hp, ih⟩

theorem LzwPhrases.length_eq (h : LzwPhrases dict ps cs final) :
    ps.length = cs.length ∧ final.length + 1 = dict.length + ps.length := by
  induction h with
  | last => exact ⟨rfl, rfl⟩
  | more _ _ _ _ _ _ _ _ _ _ _ ih =>
    obtain ⟨hlen, hdict⟩ := ih
    simp only [List.length_cons, List.length_append, List.length_nil] at hlen hdict ⊢
    omega

/-- Entries are only added. -/
theorem LzwPhrases.take_final (h : LzwPhrases dict ps cs final) : final.take dict.length = dict := by
  induction h with
  | last dict => exact List.take_length
  | more dict p q _ _ _ final _ _ _ _ ih =>
    have htake := congrArg (List.take dict.length) ih
    rwa [List.take_take, List.take_left' rfl, List.length_append, Nat.min_eq_left (Nat.le_add_right _ _)] at htake

/-- Each phrase is what its code names in the entries made before it. -/
theorem LzwPhrases.code (h : LzwPhrases dict ps cs final) : ∀ i, i < ps.length →
    lzwEntry (final.take (dict.length + i)) (cs.getD i 0) = some (ps.getD i []) := by
  induction h with
  | last dict p c hcode _ =>
    intro i hi
    obtain rfl : i = 0 := Nat.lt_one_iff.mp hi
    rw [Nat.add_zero, List.take_length]
    exact hcode
  | more dict p q ps c cs final hcode hp hfresh hrest ih =>
    intro i hi
    cases i with
    | zero =>
      have htake : final.take dict.length = dict := (LzwPhrases.more dict p q ps c cs final hcode hp hfresh hrest).take_final
      rw [Nat.add_zero, htake]
      exact hcode
    | succ i =>
      have hi' := ih i (Nat.lt_of_succ_lt_succ hi)
      rwa [List.length_append, List.length_singleton, Nat.add_assoc, Nat.add_comm 1] at hi'

/-- Each phrase before another, extended by the next byte, is new and is the entry made then. -/
theorem LzwPhrases.entry (h : LzwPhrases dict ps cs final) : ∀ i, i + 1 < ps.length →
    final[dict.length + i]? = some (ps.getD i [] ++ (ps.getD (i + 1) []).take 1) ∧
    ∀ c, lzwEntry (final.take (dict.length + i)) c ≠ some (ps.getD i [] ++ (ps.getD (i + 1) []).take 1) := by
  induction h with
  | last => exact fun i hi => absurd hi (by simp)
  | more dict p q ps c cs final hcode hp hfresh hrest ih =>
    intro i hi
    cases i with
    | zero =>
      have htake : final.take dict.length = dict := (LzwPhrases.more dict p q ps c cs final hcode hp hfresh hrest).take_final
      have hentry : final[dict.length]? = some (p ++ q.take 1) := by
        obtain ⟨later, rfl⟩ : (dict ++ [p ++ q.take 1]) <+: final := hrest.take_final ▸ List.take_prefix _ _
        simp
      rw [Nat.add_zero, htake]
      exact ⟨hentry, hfresh⟩
    | succ i =>
      have hi' := ih i (Nat.lt_of_succ_lt_succ hi)
      rwa [List.length_append, List.length_singleton, Nat.add_assoc, Nat.add_comm 1] at hi'

/-- Created entries have two bytes or more, so a phrase of one byte has its byte's code and a longer one a created code. -/
theorem phrase_length {c : Nat} {p : List Byte} (hdict : ∀ d ∈ dict, 2 ≤ d.length) (h : lzwEntry dict c = some p) :
    (c < 256 ∧ p.length = 1) ∨ (256 ≤ c ∧ 2 ≤ p.length) := by
  rw [lzwEntry] at h
  split at h
  case isTrue hc =>
    cases h
    exact .inl ⟨hc, rfl⟩
  case isFalse hc => exact .inr ⟨not_lt.mp hc, hdict p (List.mem_of_getElem? h)⟩

/-- There are at most as many codes as bytes, and fewer exactly when some code is a created one (R832). -/
theorem LzwPhrases.codes_length (h : LzwPhrases dict ps cs final) (hdict : ∀ d ∈ dict, 2 ≤ d.length) :
    cs.length ≤ ps.flatten.length ∧ (cs.length < ps.flatten.length ↔ ∃ c ∈ cs, 256 ≤ c) := by
  induction h with
  | last dict p c hcode _ =>
    rcases phrase_length hdict hcode with ⟨hc, hp⟩ | ⟨hc, hp⟩ <;> simp [hp] <;> omega
  | more dict p q ps c cs final hcode hp _ hrest ih =>
    have hq : q ≠ [] := hrest.ne_nil q List.mem_cons_self
    have hnew : 2 ≤ (p ++ q.take 1).length := by
      have := List.length_pos_of_ne_nil hp
      have := List.length_pos_of_ne_nil hq
      rw [List.length_append, List.length_take]
      omega
    obtain ⟨hle, hiff⟩ := ih (List.forall_mem_append.mpr ⟨hdict, List.forall_mem_singleton.mpr hnew⟩)
    rw [List.flatten_cons, List.length_append, List.length_cons, List.exists_mem_cons_iff]
    rcases phrase_length hdict hcode with ⟨hc, hlen⟩ | ⟨hc, hlen⟩
    · rw [or_iff_right (not_le.mpr hc), ← hiff]
      omega
    · exact ⟨by omega, iff_of_true (by omega) (.inl hc)⟩

/-! ## Decoding the encoder's codes -/

theorem LzwPhrases.lzwBadCode (h : LzwPhrases dict ps cs final) : lzwBadCode dict.length cs = none := by
  induction h with
  | last dict p c hcode _ =>
    have := lt_of_lzwEntry hcode
    rw [Machine.lzwBadCode, if_neg (by omega)]
    rfl
  | more dict p q ps c cs final hcode _ _ _ ih =>
    have := lt_of_lzwEntry hcode
    rw [Machine.lzwBadCode, if_neg (by omega)]
    rwa [List.length_append] at ih

/-- One turn of the decoder's loop, which reads a code without an entry as the KwKwK case (R823, R824). -/
theorem lzwDecLoop_cons {w q : List Byte} {c : Nat} (cs : List Nat)
    (h : (lzwEntry dict c).getD (w ++ w.take 1) = q) : lzwDecLoop dict w (c :: cs) =
      (q ++ (lzwDecLoop (dict ++ [w ++ q.take 1]) q cs).1, (lzwDecLoop (dict ++ [w ++ q.take 1]) q cs).2) := by
  subst h
  rw [lzwDecLoop]
  cases lzwEntry dict c <;> rfl

/-- The decoder is one entry behind: a code that names the encoder's newest entry is the KwKwK case, and then the phrase
begins with its predecessor's first byte (R824). -/
theorem lzwEntry_getD_of_behind {w q : List Byte} {c : Nat} (hw : w ≠ [])
    (h : lzwEntry (dict ++ [w ++ q.take 1]) c = some q) : (lzwEntry dict c).getD (w ++ w.take 1) = q := by
  rcases lt_or_ge c 256 with hc | hc
  · rw [lzwEntry, if_pos hc] at h
    rw [lzwEntry, if_pos hc, h, Option.getD_some]
  · obtain ⟨j, rfl⟩ := Nat.exists_eq_add_of_le hc
    rw [lzwEntry_created] at h ⊢
    rcases lt_or_ge j dict.length with hj | hj
    · rw [List.getElem?_append_left hj] at h
      rw [h, Option.getD_some]
    · rw [List.getElem?_append_right hj, List.getElem?_singleton] at h
      split at h
      · obtain ⟨b, w, rfl⟩ := List.exists_cons_of_ne_nil hw
        have hq : b :: w ++ q.take 1 = q := Option.some_inj.mp h
        have hfirst : q.take 1 = [b] := (congrArg (List.take 1) hq).symm
        rw [List.getElem?_eq_none hj, Option.getD_none, ← hq, hfirst]
        rfl
      · cases h

theorem LzwPhrases.lzwDecLoop (h : LzwPhrases dict ps cs final) : ∀ {D : List (List Byte)} {w q : List Byte}
    {qs : List (List Byte)}, w ≠ [] → ps = q :: qs → dict = D ++ [w ++ q.take 1] →
    lzwDecLoop D w cs = (ps.flatten, final) := by
  induction h with
  | last dict p c hcode _ =>
    rintro D w q qs hw ⟨⟩ rfl
    rw [lzwDecLoop_cons [] (lzwEntry_getD_of_behind hw hcode)]
    rfl
  | more dict p q' ps c cs final hcode hp _ _ ih =>
    rintro D w q qs hw ⟨⟩ rfl
    rw [lzwDecLoop_cons cs (lzwEntry_getD_of_behind hw hcode), ih hp rfl rfl]
    rfl

theorem LzwPhrases.lzwDecode (h : LzwPhrases [] ps cs final) : lzwDecode cs = .ok (ps.flatten, final) := by
  have hgood : Machine.lzwBadCode 0 cs = none := h.lzwBadCode
  unfold Machine.lzwDecode
  rw [hgood]
  cases h with
  | last _ p c hcode _ =>
    simp [hcode, Machine.lzwDecLoop]
  | more _ p q ps c cs final hcode hp _ hrest =>
    simp [hcode, hrest.lzwDecLoop (D := []) hp rfl rfl]

end

theorem lzwDecode_lzwEncode (x : List Byte) : lzwDecode (lzwEncode x).1 = .ok (x, (lzwEncode x).2) := by
  by_cases hx : x = []
  · subst hx
    rfl
  · obtain ⟨ps, hphrases, hflat⟩ := lzwEncode_phrases hx
    rw [hphrases.lzwDecode, hflat]

/-- Settles O52: the phrases of the encoder's loop. -/
theorem lzwGreedyCodes : Obligations.LzwGreedyCodes := by
  refine ⟨rfl, fun x codes dict hx henc => ?_⟩
  obtain ⟨ps, hphrases, hflat⟩ := lzwEncode_phrases hx
  rw [henc] at hphrases
  dsimp only at hphrases
  obtain ⟨hlen, hdict⟩ := hphrases.length_eq
  obtain ⟨hle, hiff⟩ := hphrases.codes_length nofun
  rw [List.length_nil, Nat.zero_add] at hdict
  have hcode := hphrases.code
  have hentry := hphrases.entry
  simp only [List.length_nil, Nat.zero_add] at hcode hentry
  exact ⟨⟨ps, hflat, hphrases.ne_nil, hlen, hdict, hcode, hentry⟩, by omega, hflat ▸ hle, hflat ▸ hiff⟩

/-! ## The round trip -/

/-- What a successful LZW encode has read and publishes. -/
theorem idealLzwe_eq_ok {s : State} {ws : List Word} {n next : Word}
    (h : idealLzwe s = .ok ⟨[(.r2, ws)], [(.outLen, n), (.lzwNextCode, next)]⟩) :
    ∃ codes dict, lzwEncode (s.inBytes .lzwe .r1 s.lzwe.inLen.toNat) = (codes, dict) ∧ ws = codes.map toWord ∧
      codes.length ≤ capacity s.params .lzwe .r2 ∧ lzwNext dict ≤ s.params.lzwDictCap ∧ n = toWord codes.length ∧
      next = toWord (lzwNext dict) := by
  rw [idealLzwe] at h
  dsimp only at h
  split at h
  · cases h
  split at h
  · cases h
  next hdict =>
  split at h
  · cases h
  next hcap =>
  cases h
  exact ⟨_, _, rfl, rfl, not_lt.mp hcap, not_lt.mp hdict, rfl, rfl⟩

/-- Settles O53: the published codes read back, and they decode to the encoder's bytes and dictionary. -/
theorem lzwRoundTrip : Obligations.LzwRoundTrip := by
  intro s t ws n next hlegal henc hholds hlen hin hnext hout
  obtain ⟨codes, dict, hcodes, rfl, hcap, hdict, hn, hnext'⟩ := idealLzwe_eq_ok henc
  set xs := s.inBytes .lzwe .r1 s.lzwe.inLen.toNat
  have hxslen : xs.length = s.lzwe.inLen.toNat := s.inBytes_length _ _ _
  have hlt : lzwNext dict < 2 ^ 32 := (hdict.trans (legal_lzwDictCap hlegal)).trans_lt (by decide)
  have hnat : t.lzwd.inLen.toNat = (codes.map toWord).length := by
    rw [hlen, hn, toNat_toWord (hcap.trans_lt (capacity_lt hlegal .lzwe .r2)), List.length_map]
  have hread : (t.inWords .lzwd .r1 t.lzwd.inLen.toNat).map BitVec.toNat = codes := by
    have hcodeslt : ∀ c ∈ codes, c < lzwNext dict := by
      have := lzwEncode_codes_lt xs
      rwa [hcodes] at this
    rw [hnat, hholds.inWords, List.map_map]
    exact (List.map_congr_left fun c hc => toNat_toWord ((hcodeslt c hc).trans hlt)).trans (List.map_id codes)
  have hdec : lzwDecode ((t.inWords .lzwd .r1 t.lzwd.inLen.toNat).map BitVec.toNat) = .ok (xs, dict) := by
    have := lzwDecode_lzwEncode xs
    rwa [hcodes, ← hread] at this
  have hfits : lzwNext dict ≤ t.params.lzwDictCap := by rwa [hnext', toNat_toWord hlt] at hnext
  rw [idealLzwd_of_ok (hlen ▸ hin) hdec, withinLimit_fits hfits, withinLimit_fits (hxslen.trans_le hout), hxslen,
    toWord_toNat, hnext']

end Sys2Proof.Machine
end

section
/-! Engine 8 before the iterations: the nearest centroid and the initial indices (45_vq_kmeans.md R905, R906). -/
namespace Sys2Proof.Machine

/-! ## The nearest centroid -/

/-- The scan keeps its best so far, or ends at the first of the nearest among the strictly nearer ones. -/
theorem nearestFrom_cases (v : List Nat) (mus : List (List ℚ)) : ∀ (best : Nat) (d : ℚ) (j : Nat),
    (nearestFrom v best d j mus = best ∧ ∀ i, i < mus.length → d ≤ dist2 v (mus.getD i [])) ∨
    ∃ i, i < mus.length ∧ nearestFrom v best d j mus = j + i ∧ dist2 v (mus.getD i []) < d ∧
      (∀ k, k < mus.length → dist2 v (mus.getD i []) ≤ dist2 v (mus.getD k [])) ∧
      ∀ k, k < i → dist2 v (mus.getD i []) < dist2 v (mus.getD k []) := by
  induction mus with
  | nil => exact fun best d j => .inl ⟨rfl, fun i hi => absurd hi i.not_lt_zero⟩
  | cons mu mus ih =>
    intro best d j
    rw [nearestFrom]
    split
    case isTrue hlt =>
      rcases ih j (dist2 v mu) (j + 1) with ⟨hj, hall⟩ | ⟨i, hi, hres, hd, hall, hfirst⟩
      · refine .inr ⟨0, Nat.succ_pos _, hj, hlt, fun k hk => ?_, fun k hk => absurd hk k.not_lt_zero⟩
        cases k with
        | zero => exact le_rfl
        | succ k => exact hall k (Nat.lt_of_succ_lt_succ hk)
      · refine .inr ⟨i + 1, Nat.succ_lt_succ hi, hres.trans (by omega), hd.trans hlt, fun k hk => ?_, fun k hk => ?_⟩
        · cases k with
          | zero => exact hd.le
          | succ k => exact hall k (Nat.lt_of_succ_lt_succ hk)
        · cases k with
          | zero => exact hd
          | succ k => exact hfirst k (Nat.lt_of_succ_lt_succ hk)
    case isFalse hge =>
      have hge := not_lt.mp hge
      rcases ih best d (j + 1) with ⟨hbest, hall⟩ | ⟨i, hi, hres, hd, hall, hfirst⟩
      · refine .inl ⟨hbest, fun k hk => ?_⟩
        cases k with
        | zero => exact hge
        | succ k => exact hall k (Nat.lt_of_succ_lt_succ hk)
      · refine .inr ⟨i + 1, Nat.succ_lt_succ hi, hres.trans (by omega), hd, fun k hk => ?_, fun k hk => ?_⟩
        · cases k with
          | zero => exact (hd.trans_le hge).le
          | succ k => exact hall k (Nat.lt_of_succ_lt_succ hk)
        · cases k with
          | zero => exact hd.trans_le hge
          | succ k => exact hfirst k (Nat.lt_of_succ_lt_succ hk)

/-- Settles O54: the scan of the rest of the list against the first centroid. -/
theorem vqNearestCentroid : Obligations.VqNearestCentroid := by
  intro v mus hne
  obtain ⟨mu, mus, rfl⟩ := List.exists_cons_of_ne_nil hne
  have split_index {P : Nat → Prop} (h0 : P 0) (hs : ∀ k, k < mus.length → P (k + 1)) :
      ∀ k, k < (mu :: mus).length → P k := fun k hk => by
    cases k with
    | zero => exact h0
    | succ k => exact hs k (Nat.lt_of_succ_lt_succ hk)
  rw [nearest]
  rcases nearestFrom_cases v mus 0 (dist2 v mu) 1 with ⟨hres, hall⟩ | ⟨i, hi, hres, hd, hall, hfirst⟩
  · rw [hres]
    exact ⟨Nat.succ_pos _, split_index le_rfl hall, fun k hk => absurd hk k.not_lt_zero⟩
  · rw [hres, Nat.add_comm 1 i]
    refine ⟨Nat.succ_lt_succ hi, split_index hd.le hall, fun k hk => ?_⟩
    cases k with
    | zero => exact hd
    | succ k => exact hfirst k (Nat.lt_of_succ_lt_succ hk)

theorem nearest_lt (v : List Nat) {mus : List (List ℚ)} (h : mus ≠ []) : nearest v mus < mus.length :=
  (vqNearestCentroid v mus h).1

/-! ## The engine's own draw -/

/-- Drawn indices do not repeat: each leaves the pool (R905). -/
theorem drawIndices_nodup (choice : Nat → Nat) {k : Nat} {pool : List Nat} (hpool : pool.Nodup) (hk : k ≤ pool.length) :
    (drawIndices choice k pool).Nodup := by
  induction k generalizing pool with
  | zero => exact List.nodup_nil
  | succ k ih =>
    have hp : choice k % pool.length < pool.length := Nat.mod_lt _ (by omega)
    have hperm := List.getElem_cons_eraseIdx_perm hp
    obtain ⟨hnot, hrest⟩ := List.nodup_cons.mp (hperm.nodup_iff.mpr hpool)
    have hlen : k ≤ (pool.eraseIdx (choice k % pool.length)).length := by
      rw [List.length_eraseIdx_of_lt hp]
      omega
    rw [drawIndices]
    rw [List.getD_eq_getElem _ _ hp]
    exact List.nodup_cons.mpr ⟨fun hmem => hnot (drawIndices_subset choice k _ hlen _ hmem), ih hrest hlen⟩

/-- A draw of `k` indices uses the first `k` choices only. -/
theorem drawIndices_congr {f g : Nat → Nat} {k : Nat} (h : ∀ i, i < k → f i = g i) (pool : List Nat) :
    drawIndices f k pool = drawIndices g k pool := by
  induction k generalizing pool with
  | zero => rfl
  | succ k ih =>
    rw [drawIndices, drawIndices, h k k.lt_succ_self]
    rw [ih fun i hi => h i (Nat.lt_succ_of_lt hi)]

/-- Every sequence of distinct elements of the pool is a draw: each choice is the element's place in what is left of the
pool (P6). -/
theorem exists_drawIndices {pool idx : List Nat} (hpool : pool.Nodup) (hidx : idx.Nodup) (hsub : ∀ i ∈ idx, i ∈ pool) :
    ∃ choice : Nat → Nat, drawIndices choice idx.length pool = idx := by
  induction idx generalizing pool with
  | nil => exact ⟨fun _ => 0, rfl⟩
  | cons x idx ih =>
    obtain ⟨hx, hidx⟩ := List.nodup_cons.mp hidx
    obtain ⟨hxpool, hsub⟩ := List.forall_mem_cons.mp hsub
    have hp : pool.idxOf x < pool.length := List.idxOf_lt_length_iff.mpr hxpool
    have hperm := List.getElem_cons_eraseIdx_perm hp
    rw [List.getElem_idxOf hp] at hperm
    have hrest : (pool.eraseIdx (pool.idxOf x)).Nodup := (List.nodup_cons.mp (hperm.nodup_iff.mpr hpool)).2
    obtain ⟨choice, hchoice⟩ := ih hrest hidx fun i hi =>
      (List.mem_cons.mp (hperm.mem_iff.mpr (hsub i hi))).resolve_left fun heq => hx (heq ▸ hi)
    refine ⟨Function.update choice idx.length (pool.idxOf x), ?_⟩
    rw [List.length_cons, drawIndices, Function.update_self, Nat.mod_eq_of_lt hp]
    rw [List.getD_eq_getElem _ _ hp, List.getElem_idxOf hp,
      drawIndices_congr (fun i hi => Function.update_of_ne hi.ne _ choice), hchoice]

/-! ## The checked indices -/

section
variable {s : State} {n k : Nat}

theorem vqInitial_host (hsrc : s.vq.initSrc = false) (hk : k ≤ capacity s.params .vq .r4) : vqInitial s n k =
    (firstBadOrRepeated (fun i : Nat => decide (i < n)) [] 0 ((s.inWords .vq .r4 k).map BitVec.toNat)).elim
      (.ok ((s.inWords .vq .r4 k).map BitVec.toNat)) fun j => .error ⟨.config, .r4, j⟩ := by
  rw [vqInitial, if_pos hsrc, if_neg hk.not_gt]
  dsimp only
  cases firstBadOrRepeated (fun i : Nat => decide (i < n)) [] 0 ((s.inWords .vq .r4 k).map BitVec.toNat) <;> rfl

theorem vqInitial_engine (hsrc : s.vq.initSrc = true) :
    vqInitial s n k = .ok (drawIndices (Config.freeChoice s.draws) k (List.range n)) := by
  rw [vqInitial, if_neg (by simp [hsrc])]

end

theorem badOrRepeated_index_iff {n j : Nat} {idx : List Nat} :
    BadOrRepeated (fun i : Nat => decide (i < n)) 0 [] idx j ↔
      n ≤ idx.getD j 0 ∨ ∃ i, i < j ∧ idx.getD i 0 = idx.getD j 0 := by
  simp [BadOrRepeated]

/-- Settles O58: the host's indices by the search for the first bad one, the engine's by its draw. -/
theorem vqInitialIndices : Obligations.VqInitialIndices := by
  refine ⟨fun s n k hsrc hk => ?capacity, fun s n k idx hsrc hk hidx => ⟨fun j hj hbad hgood => ?bad, fun hnodup hlt => ?good⟩,
    fun s n k hsrc hk => ?draw, fun n idx hnodup hlt => ?choice⟩
  case capacity => rw [vqInitial, if_pos hsrc, if_pos hk]
  case bad =>
    have hlen : idx.length = k := by rw [← hidx, List.length_map, State.inWords_length]
    have hfirst : firstBadOrRepeated (fun i : Nat => decide (i < n)) [] 0 idx = some j :=
      (firstBadOrRepeated_eq_some_iff 0).mpr ⟨hlen ▸ hj, badOrRepeated_index_iff.mpr hbad, fun i hi h => by
        obtain ⟨hin, hnew⟩ := hgood i hi
        rcases badOrRepeated_index_iff.mp h with hle | ⟨i', hi', heq⟩
        · exact absurd hin hle.not_gt
        · exact hnew i' hi' heq⟩
    rw [vqInitial_host hsrc hk, hidx, hfirst]
    rfl
  case good =>
    have hnone : firstBadOrRepeated (fun i : Nat => decide (i < n)) [] 0 idx = none :=
      firstBadOrRepeated_eq_none_of_nodup (fun i hi => ⟨decide_eq_true (hlt i hi), List.not_mem_nil⟩) hnodup
    rw [vqInitial_host hsrc hk, hidx, hnone]
    rfl
  case draw =>
    have hlen : k ≤ (List.range n).length := by rwa [List.length_range]
    exact ⟨_, vqInitial_engine hsrc, drawIndices_length _ _ _, drawIndices_nodup _ List.nodup_range hlen,
      fun i hi => List.mem_range.mp (drawIndices_subset _ _ _ hlen i hi)⟩
  case choice => exact exists_drawIndices List.nodup_range hnodup fun i hi => List.mem_range.mpr (hlt i hi)

end Sys2Proof.Machine
end

section
/-! Empty inputs (60_exceptions.md, Priority; 45_vq_kmeans.md R913). -/
namespace Sys2Proof.Machine

section
variable {s : State}

theorem idealRlee_empty (h : s.rlee.inLen = 0#32) : idealRlee s = .ok ⟨[(.r2, [])], [(.outLen, 0#32)]⟩ := by
  have hin : s.rlee.inLen.toNat = 0 := congrArg BitVec.toNat h
  have henc : rleEncode (s.inWords .rlee .r1 s.rlee.inLen.toNat) = .ok [] := by rw [hin]; rfl
  rw [idealRlee_of_rleEncode (by omega) henc]
  exact withinLimit_fits (Nat.zero_le _)

theorem idealRled_empty (h : s.rled.inLen = 0#32) : idealRled s = .ok ⟨[(.r2, [])], [(.outLen, 0#32)]⟩ := by
  have hin : s.rled.inLen.toNat = 0 := congrArg BitVec.toNat h
  have hdec : rleDecode (s.inWords .rled .r1 s.rled.inLen.toNat) = .ok [] := by rw [hin]; rfl
  rw [idealRled_eq_decoderAnswer (by omega)]
  exact decoderAnswer_fits hdec (Nat.zero_le _)

theorem idealGre_empty (h : s.gre.inLen = 0#32) (hm : 0 < sint32 s.gre.m) :
    idealGre s = .ok ⟨[(.r2, [])], [(.outLen, 0#32)]⟩ := by
  have hin : s.gre.inLen.toNat = 0 := congrArg BitVec.toNat h
  have hread : s.inWords .gre .r1 s.gre.inLen.toNat = [] := by rw [hin]; rfl
  rw [idealGre_of_codePoints (by omega) hm hread rfl]
  have hstream : packBits (grEncode s.gre.m.toNat []) = [] := by rw [grEncode, List.flatMap_nil, packBits]; rfl
  have hlength : grLength s.gre.m.toNat [] = 0 := rfl
  rw [hstream, hlength]
  exact withinLimit_fits (Nat.zero_le _)

theorem idealGrd_empty (h : s.grd.inLen = 0#32) (hm : 0 < sint32 s.grd.m) :
    idealGrd s = .ok ⟨[(.r2, [])], [(.outLen, 0#32)]⟩ := by
  have hin : s.grd.inLen.toNat = 0 := congrArg BitVec.toNat h
  have hdec : grDecode s.grd.m.toNat (s.inBits .grd .r1 s.grd.inLen.toNat) = .ok [] := by rw [hin]; rfl
  rw [idealGrd_eq_decoderAnswer (by omega) hm]
  exact decoderAnswer_fits hdec (Nat.zero_le _)

theorem idealHufe_empty (h : s.hufe.inLen = 0#32) :
    idealHufe s = .ok ⟨[(.r2, []), (.r3, [])], [(.outLen, 0#32), (.auxLen, 0#32)]⟩ := by
  have hin : s.hufe.inLen.toNat = 0 := congrArg BitVec.toNat h
  have hread : s.inWords .hufe .r1 s.hufe.inLen.toNat = [] := by rw [hin]; rfl
  rw [idealHufe_of_codePoints (by omega) hread rfl]
  exact (withinLimit_fits (Nat.zero_le _)).trans (withinLimit_fits (Nat.zero_le _))

theorem idealHufd_empty (h : s.hufd.inLen = 0#32) (haux : s.hufd.auxLen = 0#32) :
    idealHufd s = .ok ⟨[(.r2, [])], [(.outLen, 0#32)]⟩ := by
  have hin : s.hufd.inLen.toNat = 0 := congrArg BitVec.toNat h
  have haux : s.hufd.auxLen.toNat = 0 := congrArg BitVec.toNat haux
  have hdec : hufDecode (s.inEntries .hufd .r3 s.hufd.auxLen.toNat) (s.inBits .hufd .r1 s.hufd.inLen.toNat) = .ok [] := by
    rw [hin, haux]; rfl
  rw [idealHufd_eq_decoderAnswer (by omega) (by omega)]
  exact decoderAnswer_fits hdec (Nat.zero_le _)

theorem idealLzwe_empty (h : s.lzwe.inLen = 0#32) (hdict : 256 ≤ s.params.lzwDictCap) :
    idealLzwe s = .ok ⟨[(.r2, [])], [(.outLen, 0#32), (.lzwNextCode, 256#32)]⟩ := by
  have hin : s.lzwe.inLen.toNat = 0 := congrArg BitVec.toNat h
  have henc : lzwEncode (s.inBytes .lzwe .r1 s.lzwe.inLen.toNat) = ([], []) := by rw [hin]; rfl
  rw [idealLzwe_of_lzwEncode (by omega) henc]
  exact (withinLimit_fits hdict).trans (withinLimit_fits (Nat.zero_le _))

theorem idealLzwd_empty (h : s.lzwd.inLen = 0#32) (hdict : 256 ≤ s.params.lzwDictCap) :
    idealLzwd s = .ok ⟨[(.r2, [])], [(.outLen, 0#32), (.lzwNextCode, 256#32)]⟩ := by
  have hin : s.lzwd.inLen.toNat = 0 := congrArg BitVec.toNat h
  have hdec : lzwDecode ((s.inWords .lzwd .r1 s.lzwd.inLen.toNat).map BitVec.toNat) = .ok ([], []) := by rw [hin]; rfl
  rw [idealLzwd_of_ok (by omega) hdec]
  exact (withinLimit_fits hdict).trans (withinLimit_fits (Nat.zero_le _))

/-! ## A raster with no whole block -/

theorem vqInitial_zero (n : Nat) : vqInitial s n 0 = .ok [] := by
  cases hsrc : s.vq.initSrc with
  | false => exact vqInitial_host hsrc (Nat.zero_le _)
  | true => exact vqInitial_engine hsrc

/-- With less than one block row or column the trimmed raster is empty (R900). -/
theorem vqEncGeom_no_block (h : s.vq.h.toNat < (sint32 s.vq.bs).toNat ∨ s.vq.w.toNat < (sint32 s.vq.bs).toNat) :
    (vqEncGeom s).n = 0 ∧ (vqEncGeom s).th * (vqEncGeom s).tw = 0 := by
  have trimmed {x : Nat} (hx : x < (sint32 s.vq.bs).toNat) : x - x % (sint32 s.vq.bs).toNat = 0 := by
    rw [Nat.mod_eq_of_lt hx, Nat.sub_self]
  simp only [VqGeom.n, VqGeom.gw, vqEncGeom]
  rcases h with h | h <;> rw [trimmed h] <;> simp

/-- Without blocks nothing is encoded (R913). -/
theorem vqEncode_no_block {g : VqGeom} (hn : g.n = 0) (cap : Nat) (raster : List Byte) :
    vqEncode g cap (blockVectors g raster) [] = ⟨[], [], 0, 0⟩ := by
  rw [blockVectors, hn]
  rfl

theorem idealVqEnc_no_block (hconf : vqConfigError s true = none)
    (h : s.vq.h.toNat < (sint32 s.vq.bs).toNat ∨ s.vq.w.toNat < (sint32 s.vq.bs).toNat) :
    idealVqEnc s = .ok ⟨[(.r2, []), (.r3, [])],
      [(.vqTh, toWord (vqEncGeom s).th), (.vqTw, toWord (vqEncGeom s).tw), (.vqK, 0#32), (.vqIters, 0#32),
       (.vqNblk, 0#32), (.vqSseLo, 0#32), (.vqSseHi, 0#32), (.vqNsamp, 0#32)]⟩ := by
  obtain ⟨hn, htrim⟩ := vqEncGeom_no_block h
  have hk : vqK s (vqEncGeom s) = 0 := by rw [vqK, hn, Nat.min_zero]
  rw [idealVqEnc, hconf]
  dsimp only
  rw [hk, vqInitial_zero]
  dsimp only
  rw [hn, if_neg (Nat.not_lt_zero _), Nat.zero_mul, if_neg (Nat.not_lt_zero _), if_neg (Nat.not_lt_zero _),
    vqEncode_no_block hn, htrim, Nat.zero_mul]
  rfl

end

/-- Settles O35: an empty input reads as the empty sequence, whose result is empty on every engine. -/
theorem emptyInputSucceeds : Obligations.EmptyInputSucceeds :=
  ⟨fun _ => idealRlee_empty, fun _ => idealRled_empty, fun _ => idealGre_empty, fun _ => idealGrd_empty,
    fun _ => idealHufe_empty, fun _ => idealHufd_empty, fun _ => idealLzwe_empty, fun _ => idealLzwd_empty,
    fun _ => idealVqEnc_no_block⟩

end Sys2Proof.Machine
end

section
/-! START_ENC's VQ_SSE is the error of START_DEC's raster over the trimmed region (45_vq_kmeans.md, Properties). -/
namespace Sys2Proof.Machine

/-! ## The order of summation -/

theorem sum_range_mul_eq (m k : Nat) (f : Nat → Nat) :
    ∑ i ∈ Finset.range (m * k), f i = ∑ p ∈ Finset.range m, ∑ q ∈ Finset.range k, f (p * k + q) := by
  induction m with
  | zero => simp
  | succ m ih => rw [Nat.succ_mul, Finset.sum_range_add, ih, Finset.sum_range_succ]

/-- A sum over a raster of `nb` by `gw` blocks, pixel by pixel, is the sum over the blocks' elements (R903). -/
theorem sum_raster_eq_sum_blocks {nb gw b C : Nat} {F : Nat → Nat → Nat → Nat} {G : Nat → Nat → Nat}
    (h : ∀ br < nb, ∀ bc < gw, ∀ r < b, ∀ s < b, ∀ c < C,
      F (br * b + r) (bc * b + s) c = G (br * gw + bc) ((r * b + s) * C + c)) :
    ∑ y ∈ Finset.range (nb * b), ∑ x ∈ Finset.range (gw * b), ∑ c ∈ Finset.range C, F y x c =
      ∑ i ∈ Finset.range (nb * gw), ∑ e ∈ Finset.range (b * b * C), G i e := by
  simp only [sum_range_mul_eq]
  refine Finset.sum_congr rfl fun br hbr => ?_
  rw [Finset.sum_comm]
  refine Finset.sum_congr rfl fun bc hbc => Finset.sum_congr rfl fun r hr => Finset.sum_congr rfl fun s hs =>
    Finset.sum_congr rfl fun c hc => ?_
  exact h br (Finset.mem_range.mp hbr) bc (Finset.mem_range.mp hbc) r (Finset.mem_range.mp hr) s (Finset.mem_range.mp hs) c
    (Finset.mem_range.mp hc)

theorem trimmedError_eq_sum (g : VqGeom) (x y : List Byte) : trimmedError g x y =
    ∑ r ∈ Finset.range g.th, ∑ q ∈ Finset.range g.tw, ∑ c ∈ Finset.range g.c,
      sqDiff (x.getD ((r * g.w + q) * g.c + c) 0#8).toNat (y.getD ((r * g.w + q) * g.c + c) 0#8).toNat := rfl

/-- The element `e` of the codebook entry of block `i`. -/
def entryElem (cb : List (List Nat)) (a : List Nat) (i e : Nat) : Nat := (cb.getD (a.getD i 0) []).getD e 0

theorem zipWith_sum_eq_sum {α β : Type} {f : α → β → Nat} {xs : List α} {ys : List β} {n : Nat} (x : α) (y : β)
    (hx : xs.length = n) (hy : ys.length = n) :
    (List.zipWith f xs ys).sum = ∑ i ∈ Finset.range n, f (xs.getD i x) (ys.getD i y) := by
  have hlist : List.zipWith f xs ys = (List.range n).map fun i => f (xs.getD i x) (ys.getD i y) :=
    List.ext_getElem (by simp [hx, hy]) fun i hi _ => by
      rw [List.length_zipWith] at hi
      simp [show i < xs.length by omega, show i < ys.length by omega]
  rw [hlist]
  rfl

theorem sqDiff_le {x y n : Nat} (hx : x ≤ n) (hy : y ≤ n) : sqDiff x y ≤ n * n := by
  rw [sqDiff, Int.toNat_le]
  push_cast
  nlinarith

/-! ## Blocks and codebook entries -/

section
variable {g : VqGeom} {raster : List Byte} {cb : List (List Nat)} {a : List Nat}

theorem getD_of_forall_mem {α : Type} {P : α → Prop} {l : List α} (h : ∀ x ∈ l, P x) {i : Nat} (hi : i < l.length) (x : α) :
    P (l.getD i x) := by
  rw [List.getD_eq_getElem _ _ hi]
  exact h _ (List.getElem_mem hi)

theorem sumSquaredError_eq_sum (ha : a.length = g.n) (hlt : ∀ j ∈ a, j < cb.length) (hcb : ∀ x ∈ cb, x.length = g.d) :
    sumSquaredError (blockVectors g raster) cb a =
      ∑ i ∈ Finset.range g.n, ∑ e ∈ Finset.range g.d, sqDiff ((blockVector g raster i).getD e 0) (entryElem cb a i e) := by
  rw [sumSquaredError, zipWith_sum_eq_sum [] 0 (by simp [blockVectors]) ha]
  refine Finset.sum_congr rfl fun i hi => ?_
  have hi := Finset.mem_range.mp hi
  have hvec : (blockVectors g raster).getD i [] = blockVector g raster i := by simp [blockVectors, hi]
  rw [hvec]
  exact zipWith_sum_eq_sum 0 0 (by simp [blockVector])
    (getD_of_forall_mem hcb (getD_of_forall_mem (P := (· < cb.length)) hlt (ha ▸ hi) 0) [])

theorem flatten_getD {d : Nat} (hcb : ∀ x ∈ cb, x.length = d) {e : Nat} (he : e < d) (j : Nat) :
    cb.flatten.getD (j * d + e) 0 = (cb.getD j []).getD e 0 := by
  induction cb generalizing j with
  | nil => simp
  | cons x cb ih =>
    obtain ⟨hx, hcb⟩ := List.forall_mem_cons.mp hcb
    rw [List.flatten_cons]
    cases j with
    | zero => rw [Nat.zero_mul, Nat.zero_add, List.getD_append _ _ _ _ (hx ▸ he), List.getD_cons_zero]
    | succ j =>
      have hpast : (j + 1) * d + e = x.length + (j * d + e) := by rw [hx]; ring
      rw [hpast, List.getD_append_right _ _ _ _ (Nat.le_add_right _ _), Nat.add_sub_cancel_left, ih hcb, List.getD_cons_succ]

/-! ## One pixel -/

theorem mul_add_div_of_lt {j k i : Nat} (h : i < k) : (j * k + i) / k = j := by
  rw [Nat.mul_comm, Nat.mul_add_div (Nat.zero_lt_of_lt h), Nat.div_eq_of_lt h, Nat.add_zero]

theorem mul_add_lt_mul {j m i k : Nat} (hj : j < m) (hi : i < k) : j * k + i < m * k := by
  rw [Nat.mul_comm j]
  exact Nat.mul_add_lt_mul_of_lt_of_lt hj hi

/-- The byte of channel `c` at row `y` and column `x` of a decoded raster (R920, R922). -/
theorem vqDecode_pixel {bs : List Byte} {y x c : Nat} (hy : y < g.h) (hx : x < g.w) (hc : c < g.c) :
    (vqDecode g bs a).getD ((y * g.w + x) * g.c + c) 0#8 =
      if y < g.th ∧ x < g.tw then
        bs.getD (a.getD (y / g.b * g.gw + x / g.b) 0 * g.d + (y % g.b * g.b + x % g.b) * g.c + c) 0#8
      else 0#8 := by
  have hp : (y * g.w + x) * g.c + c < g.bytes := mul_add_lt_mul (mul_add_lt_mul hy hx) hc
  rw [vqDecode, List.getD_eq_getElem _ _ (by rwa [List.length_map, List.length_range])]
  simp only [List.getElem_map, List.getElem_range, rasterByte, mul_add_div_of_lt hc, Nat.mul_add_mod_of_lt hc,
    mul_add_div_of_lt hx, Nat.mul_add_mod_of_lt hx]

section
variable {br bc r s c : Nat} (hbc : bc < g.gw) (hr : r < g.b) (hs : s < g.b) (hc : c < g.c)
include hbc hr hs hc

theorem blockVector_elem : (blockVector g raster (br * g.gw + bc)).getD ((r * g.b + s) * g.c + c) 0 =
    (raster.getD (((br * g.b + r) * g.w + (bc * g.b + s)) * g.c + c) 0#8).toNat := by
  have he : (r * g.b + s) * g.c + c < g.d := mul_add_lt_mul (mul_add_lt_mul hr hs) hc
  rw [blockVector, List.getD_eq_getElem _ _ (by rwa [List.length_map, List.length_range])]
  simp only [List.getElem_map, List.getElem_range, mul_add_div_of_lt hc, Nat.mul_add_mod_of_lt hc, mul_add_div_of_lt hs,
    Nat.mul_add_mod_of_lt hs, mul_add_div_of_lt hbc, Nat.mul_add_mod_of_lt hbc, Nat.add_assoc]

/-- Inside the trimmed region the decoded byte is the element of the block's codebook entry (R922). -/
theorem vqDecode_block_elem (hbr : br < g.th / g.b) (hth : g.th / g.b * g.b = g.th) (htw : g.gw * g.b = g.tw)
    (hh : g.th ≤ g.h) (hw : g.tw ≤ g.w) (hcb : ∀ x ∈ cb, x.length = g.d ∧ ∀ y ∈ x, y ≤ 255) :
    ((vqDecode g (cb.flatten.map (BitVec.ofNat 8)) a).getD
      (((br * g.b + r) * g.w + (bc * g.b + s)) * g.c + c) 0#8).toNat =
      entryElem cb a (br * g.gw + bc) ((r * g.b + s) * g.c + c) := by
  have hy : br * g.b + r < g.th := hth ▸ mul_add_lt_mul hbr hr
  have hx : bc * g.b + s < g.tw := htw ▸ mul_add_lt_mul hbc hs
  have he : (r * g.b + s) * g.c + c < g.d := mul_add_lt_mul (mul_add_lt_mul hr hs) hc
  have hbyte : ∀ x ∈ cb.flatten, x ≤ 255 := fun x hx =>
    have ⟨entry, hentry, hmem⟩ := List.mem_flatten.mp hx
    (hcb entry hentry).2 x hmem
  rw [vqDecode_pixel (hy.trans_le hh) (hx.trans_le hw) hc, if_pos ⟨hy, hx⟩, mul_add_div_of_lt hr, mul_add_div_of_lt hs,
    Nat.mul_add_mod_of_lt hr, Nat.mul_add_mod_of_lt hs, Nat.add_assoc, entryElem,
    ← flatten_getD (fun x hx => (hcb x hx).1) he]
  exact (congrArg BitVec.toNat (List.getD_map _ 0 (BitVec.ofNat 8))).trans
    (Nat.mod_eq_of_lt (Nat.lt_succ_of_le (getD_zero_le hbyte _)))

end

/-- VQ_SSE measures the decoded raster (R910, R924). -/
theorem trimmedError_vqDecode (hth : g.th / g.b * g.b = g.th) (htw : g.gw * g.b = g.tw) (hh : g.th ≤ g.h)
    (hw : g.tw ≤ g.w) (ha : a.length = g.n) (hlt : ∀ j ∈ a, j < cb.length)
    (hcb : ∀ x ∈ cb, x.length = g.d ∧ ∀ y ∈ x, y ≤ 255) :
    trimmedError g raster (vqDecode g (cb.flatten.map (BitVec.ofNat 8)) a) =
      sumSquaredError (blockVectors g raster) cb a := by
  rw [sumSquaredError_eq_sum ha hlt fun x hx => (hcb x hx).1, trimmedError_eq_sum, ← hth, ← htw]
  refine sum_raster_eq_sum_blocks fun br hbr bc hbc r hr s hs c hc => ?_
  rw [blockVector_elem hbc hr hs hc, vqDecode_block_elem hbc hr hs hc hbr hth htw hh hw hcb]

end

theorem sum_range_le {f : Nat → Nat} {bound : Nat} (n : Nat) (h : ∀ i, f i ≤ bound) :
    ∑ i ∈ Finset.range n, f i ≤ n * bound := by
  simpa using Finset.sum_le_card_nsmul (Finset.range n) f bound fun i _ => h i

/-- The error of fewer than 2^32 bytes fits the two registers of VQ_SSE. -/
theorem trimmedError_lt {g : VqGeom} {x y : List Byte} (h : g.th * g.tw * g.c < 2 ^ 32) : trimmedError g x y < 2 ^ 64 := by
  have hsum : trimmedError g x y ≤ g.th * (g.tw * (g.c * (255 * 255))) := by
    rw [trimmedError_eq_sum]
    exact sum_range_le _ fun _ => sum_range_le _ fun _ => sum_range_le _ fun _ =>
      sqDiff_le (Nat.le_of_lt_succ (BitVec.isLt _)) (Nat.le_of_lt_succ (BitVec.isLt _))
  calc trimmedError g x y ≤ g.th * (g.tw * (g.c * (255 * 255))) := hsum
    _ = g.th * g.tw * g.c * (255 * 255) := by ring
    _ < 2 ^ 64 := by omega

end Sys2Proof.Machine
end

section
/-! START_DEC on what a START_ENC leaves (45_vq_kmeans.md, Properties R923, R924). -/
namespace Sys2Proof.Machine

/-! ## What a successful START_ENC publishes -/

theorem withinLimit_eq_ok {src : ErrSrc} {cap n : Nat} {r : Except Err Outputs} {o : Outputs}
    (h : withinLimit src cap n r = .ok o) : n ≤ cap ∧ r = .ok o := by
  rw [withinLimit] at h
  split at h
  · cases h
  · exact ⟨not_lt.mp ‹_›, h⟩

theorem vqEncode_assignments (g : VqGeom) (cap : Nat) (vs : List (List Nat)) (idx : List Nat) :
    (vqEncode g cap vs idx).assignments = assignAll vs (kmeansLoop g.d vs cap (initialCentroids vs idx)).1 := by
  rw [vqEncode]
  split
  · next h =>
    subst h
    cases cap <;> rfl
  · rfl

theorem vqEncode_sse (g : VqGeom) (cap : Nat) (vs : List (List Nat)) (idx : List Nat) : (vqEncode g cap vs idx).sse =
    sumSquaredError vs (vqEncode g cap vs idx).codebook (vqEncode g cap vs idx).assignments := rfl

/-- R923. -/
theorem vqEncode_assignments_lt {g : VqGeom} {raster : List Byte} {idx : List Nat} (cap : Nat) (h : ∀ i ∈ idx, i < g.n)
    (hne : 0 < g.n → idx ≠ []) : ∀ j ∈ (vqEncode g cap (blockVectors g raster) idx).assignments, j < idx.length := by
  intro j hj
  have hn : 0 < g.n := vqEncode_assignments_length g cap raster idx ▸ List.length_pos_of_mem hj
  have hlen : (kmeansLoop g.d (blockVectors g raster) cap (initialCentroids (blockVectors g raster) idx)).1.length =
      idx.length := by
    rw [← vqEncode_codebook_entries cap h, vqEncode_codebook, codebookOf, List.length_map]
  rw [vqEncode_assignments] at hj
  obtain ⟨v, -, rfl⟩ := List.mem_map.mp hj
  rw [← hlen]
  exact nearest_lt v (List.ne_nil_of_length_pos (hlen ▸ List.length_pos_of_ne_nil (hne hn)))

section
variable {s t : State} {o : Outputs}

theorem idealVqEnc_capacities (h : idealVqEnc s = .ok o) :
    vqK s (vqEncGeom s) * (vqEncGeom s).d ≤ capacity s.params .vq .r2 ∧ (vqEncGeom s).n ≤ capacity s.params .vq .r3 := by
  obtain ⟨hconf, idx, -, hidx, -⟩ := idealVqEnc_eq_ok h
  obtain ⟨o', ho'⟩ := idealVqEnc_of_vqInitial_ok hconf hidx
  obtain ⟨-, h⟩ := withinLimit_eq_ok (ho'.symm.trans h)
  obtain ⟨hbook, h⟩ := withinLimit_eq_ok h
  exact ⟨hbook, (withinLimit_eq_ok h).1⟩

/-- The trimmed shape is whole blocks and within the raster (R900). -/
theorem vqEncGeom_trimmed (s : State) :
    (vqEncGeom s).th / (vqEncGeom s).b * (vqEncGeom s).b = (vqEncGeom s).th ∧
    (vqEncGeom s).gw * (vqEncGeom s).b = (vqEncGeom s).tw ∧ (vqEncGeom s).th ≤ (vqEncGeom s).h ∧
    (vqEncGeom s).tw ≤ (vqEncGeom s).w :=
  ⟨Nat.div_mul_cancel (Nat.dvd_sub_mod _), Nat.div_mul_cancel (Nat.dvd_sub_mod _), Nat.sub_le _ _, Nat.sub_le _ _⟩

/-- A successful START_ENC chooses at least one centroid when there is a block (R904). -/
theorem vqK_pos (hconf : vqConfigError s true = none) (hn : 0 < (vqEncGeom s).n) : 0 < vqK s (vqEncGeom s) := by
  obtain ⟨-, hlevels, -, -⟩ := vqConfigError_eq_none_iff.mp hconf
  exact lt_min (Int.lt_toNat.mpr (hlevels rfl)) hn

/-- The codebook, assignments and error that a successful START_ENC publishes (R904, R909, R910, R923). -/
structure VqResult.Encodes (res : VqResult) (g : VqGeom) (k : Nat) (raster : List Byte) : Prop where
  entries : res.codebook.length = k
  bytes : ∀ x ∈ res.codebook, x.length = g.d ∧ ∀ y ∈ x, y ≤ 255
  count : res.assignments.length = g.n
  lt : ∀ j ∈ res.assignments, j < k
  sse : res.sse = sumSquaredError (blockVectors g raster) res.codebook res.assignments

theorem idealVqEnc_encodes {idx : List Nat} {res : VqResult} {raster : List Byte} (hconf : vqConfigError s true = none)
    (hidx : vqInitial s (vqEncGeom s).n (vqK s (vqEncGeom s)) = .ok idx)
    (hres : res = vqEncode (vqEncGeom s) s.vq.maxIter.toNat (blockVectors (vqEncGeom s) raster) idx) :
    res.Encodes (vqEncGeom s) (vqK s (vqEncGeom s)) raster := by
  obtain ⟨hlen, hin⟩ := vqInitial_ok (Nat.min_le_right _ _) hidx
  have hlen : idx.length = vqK s (vqEncGeom s) := hlen
  have hne (hn : 0 < (vqEncGeom s).n) : idx ≠ [] := List.ne_nil_of_length_pos (hlen ▸ vqK_pos hconf hn)
  subst hres
  exact
    { entries := (vqEncode_codebook_entries _ hin).trans hlen
      bytes := vqEncode_codebook_bytes _ hin
      count := vqEncode_assignments_length _ _ _ _
      lt := hlen ▸ vqEncode_assignments_lt _ hin hne
      sse := vqEncode_sse _ _ _ _ }

/-- A START_DEC that passes its checks (R920 to R922). -/
theorem idealVqDec_of_checks {a : List Nat} (hconf : vqConfigError s false = none)
    (hshape : vqShapeError s (vqDecGeom s) = none) (ha : (s.inWords .vq .r3 (vqDecGeom s).n).map BitVec.toNat = a)
    (hlt : ∀ j ∈ a, j < s.vq.k.toNat) :
    idealVqDec s = .ok ⟨[(.r1, packBytes (vqDecode (vqDecGeom s) (s.inBytes .vq .r2 (s.vq.k.toNat * (vqDecGeom s).d)) a))],
      [(.vqNblk, toWord (vqDecGeom s).n)]⟩ := by
  have hfind : a.findIdx? (fun j => decide (s.vq.k.toNat ≤ j)) = none :=
    List.findIdx?_eq_none_iff.mpr fun j hj => decide_eq_false (hlt j hj).not_ge
  rw [idealVqDec, hconf]
  dsimp only
  rw [hshape]
  dsimp only
  rw [ha, hfind]

end

/-! ## The registers of the decoding state -/

/-- The registers of `t` that START_DEC reads, and VQ_SSE, are those a START_ENC of `s` with total error `sse` publishes. -/
structure VqPublished (s t : State) (sse : Nat) : Prop where
  params : t.params = s.params
  bs : t.vq.bs = s.vq.bs
  geom : vqDecGeom t = vqEncGeom s
  k : t.vq.k.toNat = vqK s (vqEncGeom s)
  nblk : t.vq.nblk = toWord (vqEncGeom s).n
  nblk_toNat : t.vq.nblk.toNat = (vqEncGeom s).n
  sse : sse < 2 ^ 64 → t.vq.sseHi.toNat * 2 ^ 32 + t.vq.sseLo.toNat = sse

section
variable {s t : State} {o : Outputs}

theorem vqPublished {res : VqResult} (hlegal : s.params.legal = true) (h : idealVqEnc s = .ok o) (hparams : t.params = s.params)
    (hconfig : ∀ r ∈ [Reg.vqH, .vqW, .vqC, .vqBs], t.getReg .vq r = s.getReg .vq r)
    (hout : ∀ x ∈ o.regs, t.getReg .vq x.1 = x.2)
    (hregs : o.regs = [(.vqTh, toWord (vqEncGeom s).th), (.vqTw, toWord (vqEncGeom s).tw),
      (.vqK, toWord (vqK s (vqEncGeom s))), (.vqIters, toWord res.iters), (.vqNblk, toWord (vqEncGeom s).n),
      (.vqSseLo, toWord (res.sse % 2 ^ 32)), (.vqSseHi, toWord (res.sse / 2 ^ 32)),
      (.vqNsamp, toWord ((vqEncGeom s).th * (vqEncGeom s).tw * (vqEncGeom s).c))]) : VqPublished s t res.sse := by
  obtain ⟨-, hn⟩ := idealVqEnc_capacities h
  have hn := hn.trans_lt (capacity_lt hlegal .vq .r3)
  obtain ⟨-, -, hthle, htwle⟩ := vqEncGeom_trimmed s
  have hk : vqK s (vqEncGeom s) < 2 ^ 32 := (Nat.min_le_right _ _).trans_lt hn
  simp only [List.forall_mem_cons, List.not_mem_nil, false_implies, implies_true, and_true] at hconfig
  obtain ⟨hh, hw, hc, hbs⟩ : t.vq.h = s.vq.h ∧ t.vq.w = s.vq.w ∧ t.vq.c = s.vq.c ∧ t.vq.bs = s.vq.bs := hconfig
  rw [hregs] at hout
  simp only [List.forall_mem_cons, List.not_mem_nil, false_implies, implies_true, and_true] at hout
  obtain ⟨hth, htw, htk, -, hnblk, hlo, hhi, -⟩ : t.vq.th = toWord (vqEncGeom s).th ∧ t.vq.tw = toWord (vqEncGeom s).tw ∧
    t.vq.k = toWord (vqK s (vqEncGeom s)) ∧ t.vq.iters = toWord res.iters ∧ t.vq.nblk = toWord (vqEncGeom s).n ∧
    t.vq.sseLo = toWord (res.sse % 2 ^ 32) ∧ t.vq.sseHi = toWord (res.sse / 2 ^ 32) ∧ _ := hout
  exact
    { params := hparams
      bs := hbs
      geom := by
        rw [vqDecGeom, hh, hw, hc, hbs, hth, htw, toNat_toWord (hthle.trans_lt s.vq.h.isLt),
          toNat_toWord (htwle.trans_lt s.vq.w.isLt)]
        rfl
      k := by rw [htk, toNat_toWord hk]
      nblk := hnblk
      nblk_toNat := by rw [hnblk, toNat_toWord hn]
      sse := fun hsse => by
        rw [hlo, hhi, toNat_toWord (Nat.mod_lt _ (Nat.two_pow_pos 32)),
          toNat_toWord (Nat.div_lt_of_lt_mul hsse), Nat.div_add_mod'] }

/-- START_DEC's checks pass on what START_ENC published (R901, R921). -/
theorem VqPublished.checks {sse : Nat} (h : VqPublished s t sse) (henc : idealVqEnc s = .ok o) :
    vqConfigError t false = none ∧ vqShapeError t (vqDecGeom t) = none := by
  obtain ⟨hconf, -⟩ := idealVqEnc_eq_ok henc
  obtain ⟨hc, -, hside, hraster⟩ := vqConfigError_eq_none_iff.mp hconf
  obtain ⟨hbook, hn⟩ := idealVqEnc_capacities henc
  obtain ⟨hth, htw, hthle, htwle⟩ := vqEncGeom_trimmed s
  have hgeom_c : t.vq.c = s.vq.c := BitVec.eq_of_toNat_eq (congrArg VqGeom.c h.geom)
  have hgeom_h : t.vq.h.toNat = s.vq.h.toNat := congrArg VqGeom.h h.geom
  have hgeom_w : t.vq.w.toNat = s.vq.w.toNat := congrArg VqGeom.w h.geom
  refine ⟨vqConfigError_eq_none_iff.mpr ⟨?_, nofun, ?_, ?_⟩, ?_⟩
  · rwa [hgeom_c]
  · rwa [h.bs, h.params]
  · rwa [hgeom_h, hgeom_w, hgeom_c, h.params]
  · rw [h.geom]
    refine vqShapeError_eq_none hthle (Nat.mod_eq_zero_of_dvd (Dvd.intro_left _ hth)) htwle
      (Nat.mod_eq_zero_of_dvd (Dvd.intro_left _ htw)) ?_ ?_
    · rwa [h.params]
    · rwa [h.k, h.params]

end

theorem map_toNat_map_toWord {l : List Nat} (h : ∀ j ∈ l, j < 2 ^ 32) : (l.map toWord).map BitVec.toNat = l := by
  rw [List.map_map]
  exact (List.map_congr_left fun j hj => toNat_toWord (h j hj)).trans (List.map_id l)

/-- Settles O60: the registers and regions give START_DEC the encoder's geometry, codebook and assignments, so its raster
shows each block's entry, whose error is VQ_SSE. -/
theorem vqEncodeThenDecode : Obligations.VqEncodeThenDecode := by
  intro s t o hlegal henc hparams hconfig hout hholds
  obtain ⟨hconf, idx, res, hidx, hres, hwords, hregs⟩ := idealVqEnc_eq_ok henc
  obtain ⟨hentries, hbytes, hcount, hlt, hsse⟩ := idealVqEnc_encodes hconf hidx hres
  have hpub := vqPublished hlegal henc hparams hconfig hout hregs
  obtain ⟨hconf', hshape⟩ := hpub.checks henc
  obtain ⟨hth, htw, hthle, htwle⟩ := vqEncGeom_trimmed s
  have hk : vqK s (vqEncGeom s) < 2 ^ 32 := hpub.k ▸ BitVec.isLt _
  have hassign := map_toNat_map_toWord fun j hj => (hlt j hj).trans hk
  simp only [hwords, List.forall_mem_cons, List.not_mem_nil, false_implies, implies_true, and_true] at hholds
  obtain ⟨hholds2, hholds3⟩ := hholds
  have ha : (t.inWords .vq .r3 (vqDecGeom t).n).map BitVec.toNat = res.assignments := by
    rw [hpub.geom, ← hcount, ← res.assignments.length_map toWord, hholds3.inWords, hassign]
  have hbook : (res.codebook.flatten.map (BitVec.ofNat 8)).length = t.vq.k.toNat * (vqDecGeom t).d := by
    rw [List.length_map, sum_length_eq_mul _ _ fun x hx => (hbytes x hx).1, hentries, hpub.k, hpub.geom]
  refine ⟨fun ws hws => ?assignments, vqDecode (vqEncGeom s) (res.codebook.flatten.map (BitVec.ofNat 8)) res.assignments,
    ?decodes, vqDecode_length _ _ _, fun y x c hy hx hc hout => ?border, ?error⟩
  case assignments =>
    have hws : ws = res.assignments.map toWord := by simpa [hwords] using hws
    rw [hws, List.length_map, hcount, hpub.nblk_toNat, hpub.k]
    exact ⟨rfl, List.forall_mem_map.mpr fun j hj => (toNat_toWord_le j).trans_lt (hlt j hj)⟩
  case decodes =>
    rw [idealVqDec_of_checks hconf' hshape ha (hpub.k ▸ hlt), ← hbook, hholds2.inBytes, hpub.geom, ← hpub.nblk]
  case border =>
    have hout : ¬(y < (vqEncGeom s).th ∧ x < (vqEncGeom s).tw) := by
      rw [← hpub.geom]
      exact fun hin => hout.elim hin.1.not_ge hin.2.not_ge
    exact (vqDecode_pixel hy hx hc).trans (if_neg hout)
  case error =>
    obtain ⟨-, -, -, hraster⟩ := vqConfigError_eq_none_iff.mp hconf
    have hsmall : (vqEncGeom s).th * (vqEncGeom s).tw * (vqEncGeom s).c < 2 ^ 32 :=
      ((Nat.mul_le_mul_right _ (Nat.mul_le_mul hthle htwle)).trans hraster).trans_lt (capacity_lt hlegal .vq .r1)
    have herror := trimmedError_vqDecode (raster := s.inBytes .vq .r1 (vqEncGeom s).bytes) hth htw hthle htwle hcount
      (hentries ▸ hlt) hbytes
    rw [vqDecode_length, hpub.sse (hsse ▸ herror ▸ trimmedError_lt hsmall), herror, hsse]

end Sys2Proof.Machine
end
